-- ==== Sys2Proof/Word.lean ====
section
/-! DEFINITION. Word types of the block: the 32-bit register word, the 64-bit command word, the
binary32 number (00_scope.md R8, R16) and the two context indices (10_state.md R20, R28). -/

namespace Sys2Proof

/-- A 32-bit register word or response word (10_state.md R21, 20_memory.md R50). -/
abbrev Word := BitVec 32

/-- A 64-bit command word (30_encoding.md R63). -/
abbrev CmdWord := BitVec 64

/-- The spec's `Num` under its default `Numerics`: one IEEE 754 binary32 datum, 1 sign bit, 8 exponent
bits, 23 fraction bits (00_scope.md R8). A wrapper of its own, so that bit arithmetic and number
arithmetic cannot be mixed up; the number operations are in `Machine/Binary32.lean`. -/
structure F32 where
  bits : Word
deriving DecidableEq, Repr, Inhabited

/-- Voice index, 0 to 15: `NVOICE` = 16 (00_scope.md R5, 20_memory.md R47). -/
abbrev VoiceIdx := Fin 16

/-- Sub-oscillator index, 0 to 7: `NSUB` = 8 (00_scope.md R5, 10_state.md R28). -/
abbrev SubIdx := Fin 8

end Sys2Proof
end

