-- ==== Sys2Proof/Syntax.lean ====
section
/-! DEFINITION. The commands of the block: one constructor per row of opcode_table.json
(30_encoding.md R66), with every operand in the type that names it, so that a term of `Instr` can
only be a command the spec gives a meaning. -/

namespace Sys2Proof

/-- A parameter register index, 0x00 to 0x07 in this order (10_state.md R21). -/
inductive ParamReg where
  | pitch
  | spread
  | chaos
  | chaosBw
  | density
  | enables
  | syncIn
  | dt
deriving DecidableEq, Repr

/-- A waveform, and the output register that holds its samples: index 0x00 SIN, 0x01 SAW
(20_memory.md R47). -/
inductive Wave where
  | sin
  | saw
deriving DecidableEq, Repr

/-- A host command. -/
inductive Instr where
  /-- NOP (40_commands.md R72) -/
  | nop
  /-- INIT seed32 (R74) -/
  | init (seed : Word)
  /-- SETTUNE mode32 (R73) -/
  | settune (mode : Word)
  /-- WRP v, r, data32 (R75) -/
  | wrp (v : VoiceIdx) (r : ParamReg) (data : Word)
  /-- RDP v, r (R76) -/
  | rdp (v : VoiceIdx) (r : ParamReg)
  /-- RDO v, w (R77) -/
  | rdo (v : VoiceIdx) (w : Wave)
  /-- RDT (R78) -/
  | rdt
  /-- TICK v (46_tick.md R131) -/
  | tick (v : VoiceIdx)
deriving DecidableEq, Repr

end Sys2Proof
end

