-- ==== Sys2Proof/WellFormed.lean ====
section
/-! DEFINITION. The well-formedness of a raw command word, field by field (30_encoding.md R63, R64, R68).
A term of `Instr` is well formed by its types; what can be ill formed is a word. The decoder works by
mask and match (R66), so these checks are a second reading of the encoding. -/

namespace Sys2Proof

/-- The six fields of a command word (R63). -/
structure Fields where
  op : BitVec 8
  z1 : BitVec 4
  voice : BitVec 4
  reg : BitVec 8
  z2 : BitVec 8
  data : Word
deriving DecidableEq, Repr

/-- The fields of a word: 63:56, 55:52, 51:48, 47:40, 39:32, 31:0 (R63). -/
def Fields.ofWord (w : CmdWord) : Fields where
  op := w.extractLsb' 56 8
  z1 := w.extractLsb' 52 4
  voice := w.extractLsb' 48 4
  reg := w.extractLsb' 40 8
  z2 := w.extractLsb' 32 8
  data := w.extractLsb' 0 32

/-- The five formats (R64). -/
inductive Format where
  | n
  | d
  | v
  | vr
  | vrd
deriving DecidableEq, Repr

/-- Whether a format uses the voice, the register and the data field (R64). -/
def Format.usesVoice : Format → Bool
  | .n => false
  | .d => false
  | .v => true
  | .vr => true
  | .vrd => true

def Format.usesReg : Format → Bool
  | .n => false
  | .d => false
  | .v => false
  | .vr => true
  | .vrd => true

def Format.usesData : Format → Bool
  | .n => false
  | .d => true
  | .v => false
  | .vr => false
  | .vrd => true

/-- The opcodes in use, with the format and the largest register index the command takes (R64, R66); other
opcodes are reserved (R68). -/
def opFormat (op : BitVec 8) : Option (Format × Nat) :=
  if op = 0x00 then some (.n, 0)
  else if op = 0x01 then some (.d, 0)
  else if op = 0x02 then some (.d, 0)
  else if op = 0x03 then some (.vrd, 7)
  else if op = 0x04 then some (.vr, 7)
  else if op = 0x05 then some (.vr, 1)
  else if op = 0x06 then some (.n, 0)
  else if op = 0x07 then some (.v, 0)
  else none

/-- R68's list, negated: a known opcode, `z1` and `z2` zero, every field the format does not use zero, and
the register index in range. -/
def Fields.wellFormed (f : Fields) : Bool :=
  match opFormat f.op with
  | none => false
  | some (fmt, maxReg) =>
    f.z1 == 0 && f.z2 == 0 &&
      (fmt.usesVoice || f.voice == 0) &&
      (if fmt.usesReg then decide (f.reg.toNat ≤ maxReg) else f.reg == 0) &&
      (fmt.usesData || f.data == 0)

/-- A command word that spells a command, by its fields. -/
def wordWellFormed (w : CmdWord) : Bool := (Fields.ofWord w).wellFormed

end Sys2Proof
end

