-- ==== Sys2Proof/Decode.lean ====
section
/-! DEFINITION. The decoder, total on 64-bit words (30_encoding.md R65 to R69), and the encoder (R67). -/

namespace Sys2Proof

/-- The mnemonics of opcode_table.json. -/
inductive Mnemonic where
  | nop
  | init
  | settune
  | wrp
  | rdp
  | rdo
  | rdt
  | tick
deriving DecidableEq, Repr

/-- A row of the opcode map (R66). -/
structure OpRow where
  mnemonic : Mnemonic
  pattern : CmdWord
  mask : CmdWord
deriving DecidableEq, Repr

/-- The opcode map (R66, opcode_table.json): eight rows. -/
def opRows : List OpRow :=
  [⟨.nop, 0x0000000000000000, 0xFFFFFFFFFFFFFFFF⟩,
   ⟨.init, 0x0100000000000000, 0xFFFFFFFF00000000⟩,
   ⟨.settune, 0x0200000000000000, 0xFFFFFFFF00000000⟩,
   ⟨.wrp, 0x0300000000000000, 0xFFF0F8FF00000000⟩,
   ⟨.rdp, 0x0400000000000000, 0xFFF0F8FFFFFFFFFF⟩,
   ⟨.rdo, 0x0500000000000000, 0xFFF0FEFFFFFFFFFF⟩,
   ⟨.rdt, 0x0600000000000000, 0xFFFFFFFFFFFFFFFF⟩,
   ⟨.tick, 0x0700000000000000, 0xFFF0FFFFFFFFFFFF⟩]

/-- A word spells the command of a row if and only if `(w and mask) = match` (R66). -/
def OpRow.fits (r : OpRow) (w : CmdWord) : Bool := w &&& r.mask == r.pattern

/-- `v = cmd_word[51:48]` (R65). -/
def voiceField (w : CmdWord) : VoiceIdx := (w.extractLsb' 48 4).toFin

/-- `reg[2:0]`, the free bits of the register field of WRP and RDP (R66). -/
def regField (w : CmdWord) : Fin 8 := (w.extractLsb' 40 3).toFin

/-- `reg[0]`, the free bit of the register field of RDO (R66). -/
def outField (w : CmdWord) : Bool := w.getLsbD 40

/-- `data = cmd_word[31:0]`, raw bits (R65). -/
def dataField (w : CmdWord) : Word := w.extractLsb' 0 32

/-- The parameter register of an index (10_state.md R21). -/
def paramRegOf (r : Fin 8) : ParamReg :=
  match r with
  | 0 => .pitch
  | 1 => .spread
  | 2 => .chaos
  | 3 => .chaosBw
  | 4 => .density
  | 5 => .enables
  | 6 => .syncIn
  | 7 => .dt

/-- The index of a parameter register (10_state.md R21). -/
def paramRegIndex : ParamReg → Fin 8
  | .pitch => 0
  | .spread => 1
  | .chaos => 2
  | .chaosBw => 3
  | .density => 4
  | .enables => 5
  | .syncIn => 6
  | .dt => 7

/-- The output register of an index bit: 0 SIN, 1 SAW (20_memory.md R47). -/
def waveOf (b : Bool) : Wave := if b then .saw else .sin

/-- The index of an output register. -/
def waveIndex : Wave → Bool
  | .sin => false
  | .saw => true

/-- The command of a row with the operands of a word (R65). -/
def commandOf (m : Mnemonic) (w : CmdWord) : Instr :=
  match m with
  | .nop => .nop
  | .init => .init (dataField w)
  | .settune => .settune (dataField w)
  | .wrp => .wrp (voiceField w) (paramRegOf (regField w)) (dataField w)
  | .rdp => .rdp (voiceField w) (paramRegOf (regField w))
  | .rdo => .rdo (voiceField w) (waveOf (outField w))
  | .rdt => .rdt
  | .tick => .tick (voiceField w)

/-- The decoder (R67): the row that fits, or `none` for a reserved word (R68). -/
def decode (w : CmdWord) : Option Instr :=
  (opRows.find? fun r => r.fits w).map fun r => commandOf r.mnemonic w

/-- `{op, 0x0, v, r, 0x00, data}` (R63, R67). -/
def assemble (op : BitVec 8) (v : VoiceIdx) (r : BitVec 8) (data : Word) : CmdWord :=
  op ++ (0 : BitVec 4) ++ (BitVec.ofFin v : BitVec 4) ++ r ++ (0 : BitVec 8) ++ data

/-- The opcode of a command (R66). -/
def opcode : Instr → BitVec 8
  | .nop => 0x00
  | .init _ => 0x01
  | .settune _ => 0x02
  | .wrp _ _ _ => 0x03
  | .rdp _ _ => 0x04
  | .rdo _ _ => 0x05
  | .rdt => 0x06
  | .tick _ => 0x07

/-- The encoder (R67): the one word of a command, unused operands 0. -/
def encode (i : Instr) : CmdWord :=
  match i with
  | .nop => assemble (opcode i) 0 0 0
  | .init seed => assemble (opcode i) 0 0 seed
  | .settune mode => assemble (opcode i) 0 0 mode
  | .wrp v r data => assemble (opcode i) v (BitVec.ofNat 8 (paramRegIndex r).val) data
  | .rdp v r => assemble (opcode i) v (BitVec.ofNat 8 (paramRegIndex r).val) 0
  | .rdo v w => assemble (opcode i) v (BitVec.ofNat 8 (waveIndex w).toNat) 0
  | .rdt => assemble (opcode i) 0 0 0
  | .tick v => assemble (opcode i) v 0 0

/-- The 64-bit word whose low `nbits` bits are `w`'s and whose other bits are 0 (log 5). -/
def tableWord (nbits w : Nat) : CmdWord := BitVec.ofNat 64 (w % 2 ^ nbits)

/-- The command the decoder reads from a table word (one 64-bit word is the whole instruction, R69). -/
def decodeTableWord (nbits w : Nat) : Option Instr := decode (tableWord nbits w)

end Sys2Proof
end

