-- ==== Sys2Proof/Machine/Binary32.lean ====
section
/-! DEFINITION. IEEE 754 binary32, the default number type (00_scope.md R8 to R11, R14): round to nearest,
ties to even, one rounding per operator, no fused operation. `Machine/Numerics.lean` makes it a `Numerics`
record.

Every finite binary32 number is a whole multiple of 2^-149, so its exact value is held as an integer
count of that unit (`F32.units`); each operator computes the exact real result as a quotient of
integers and rounds it once (`F32.rnd`). -/

namespace Sys2Proof

/-! ## Reading a datum -/

/-- The sign bit. -/
def F32.isNeg (x : F32) : Bool := x.bits.msb

/-- Exponent and fraction fields together, bits 30 to 0, read as an unsigned integer. -/
def F32.mag (x : F32) : Nat := x.bits.toNat % 2 ^ 31

/-- The magnitude field of an infinity: exponent field all ones, fraction field zero. -/
def infMag : Nat := 0x7F800000

/-- Not a number: exponent all ones and fraction not zero. -/
def F32.isNaN (x : F32) : Bool := decide (infMag < x.mag)

/-- One of the two infinities. -/
def F32.isInf (x : F32) : Bool := decide (x.mag = infMag)

/-- Neither an infinity nor a NaN (the predicate `isFinite` of 00_scope.md R8). -/
def F32.isFinite (x : F32) : Bool := decide (x.mag < infMag)

/-- One of the two zeros. -/
def F32.isZero (x : F32) : Bool := decide (x.mag = 0)

/-- The absolute value of a magnitude field, in units of 2^-149: subnormals have exponent field 0 and
no hidden bit, subnormals are kept (00_scope.md R8). At `infMag` it is 2^277, above every finite value. -/
def magUnits (p : Nat) : Nat :=
  if p / 2 ^ 23 = 0 then p else (2 ^ 23 + p % 2 ^ 23) * 2 ^ (p / 2 ^ 23 - 1)

/-- The exact value in units of 2^-149. -/
def F32.units (x : F32) : Int :=
  if x.isNeg then -(magUnits x.mag : Int) else (magUnits x.mag : Int)

/-- The exact value of a finite number. -/
def F32.value (x : F32) : ℚ := x.units / 2 ^ 149

/-- The datum with a given sign bit and magnitude field. -/
def F32.ofSignMag (neg : Bool) (p : Nat) : F32 :=
  ⟨BitVec.ofNat 32 ((if neg then 2 ^ 31 else 0) + p)⟩

/-! ## Constants -/

/-- The NaN that operations produce and the read port shows (00_scope.md R14). -/
def F32.nan : F32 := ⟨0x7FC00000⟩

/-- `zero` of 42_hard_sync.md: 0.0. -/
def F32.zero : F32 := ⟨0x00000000⟩

/-- `half` of 41_phase_bank.md: 0.5. -/
def F32.half : F32 := ⟨0x3F000000⟩

/-- `one` of 41_phase_bank.md: 1.0. -/
def F32.one : F32 := ⟨0x3F800000⟩

/-- `two` of 41_phase_bank.md: 2.0. -/
def F32.two : F32 := ⟨0x40000000⟩

/-- An infinity. -/
def F32.inf (neg : Bool) : F32 := F32.ofSignMag neg infMag

/-! ## Rounding -/

/-- The magnitude field of the binary32 number nearest to `n / d` units of 2^-149, ties to the even
field, at most `infMag`. `e` is the number of low bits the 24-bit significand does not reach; the
field of a significand `m` at that scale is `e * 2^23 + m`, carries included. -/
def roundMag (n d : Nat) : Nat :=
  let e := Nat.log2 (n / d) - 23
  let m := n / (d * 2 ^ e)
  let r := n % (d * 2 ^ e)
  let up := d * 2 ^ e < 2 * r ∨ (2 * r = d * 2 ^ e ∧ m % 2 = 1)
  min (e * 2 ^ 23 + if up then m + 1 else m) infMag

/-- `rnd` (00_scope.md R8): the number nearest to `n / d` units, with the sign given (it is the sign of
the exact result, and decides the sign of a zero). -/
def F32.rnd (neg : Bool) (n d : Nat) : F32 := F32.ofSignMag neg (roundMag n d)

/-! ## Arithmetic (00_scope.md R9) -/

/-- Unary minus: the sign bit flipped, exact. -/
def F32.neg (x : F32) : F32 := ⟨x.bits ^^^ 0x80000000⟩

/-- `a + b`. `inf - inf` is NaN; an exact zero sum is -0 only when both operands are negative zeros. -/
def F32.add (a b : F32) : F32 :=
  if a.isNaN || b.isNaN then F32.nan
  else if a.isInf then (if b.isInf && a.isNeg != b.isNeg then F32.nan else a)
  else if b.isInf then b
  else
    let s := a.units + b.units
    if s = 0 then F32.ofSignMag (a.isNeg && b.isNeg) 0
    else F32.rnd (decide (s < 0)) s.natAbs 1

/-- `a - b`. -/
def F32.sub (a b : F32) : F32 := a.add b.neg

/-- `a * b`. `0 * inf` is NaN. The exact product has unit 2^-298. -/
def F32.mul (a b : F32) : F32 :=
  if a.isNaN || b.isNaN then F32.nan
  else if a.isInf || b.isInf then
    (if a.isZero || b.isZero then F32.nan else F32.inf (a.isNeg != b.isNeg))
  else F32.rnd (a.isNeg != b.isNeg) (magUnits a.mag * magUnits b.mag) (2 ^ 149)

/-- `a / b`. `x / 0` is an infinity of the product sign for finite non-zero `x`; `0 / 0` and
`inf / inf` are NaN. -/
def F32.div (a b : F32) : F32 :=
  if a.isNaN || b.isNaN then F32.nan
  else if a.isInf then (if b.isInf then F32.nan else F32.inf (a.isNeg != b.isNeg))
  else if b.isInf then F32.ofSignMag (a.isNeg != b.isNeg) 0
  else if b.isZero then (if a.isZero then F32.nan else F32.inf (a.isNeg != b.isNeg))
  else F32.rnd (a.isNeg != b.isNeg) (magUnits a.mag * 2 ^ 149) (magUnits b.mag)

/-! ## Comparisons (00_scope.md R10): false when a side is NaN, -0 = +0 -/

/-- `a < b`. -/
def F32.lt (a b : F32) : Bool := !a.isNaN && !b.isNaN && decide (a.units < b.units)

/-- `a <= b`. -/
def F32.le (a b : F32) : Bool := !a.isNaN && !b.isNaN && decide (a.units ≤ b.units)

/-- `a = b` of the spec's pseudocode (number equality, not equality of bits). -/
def F32.eq (a b : F32) : Bool := !a.isNaN && !b.isNaN && decide (a.units = b.units)

/-! ## Integers, reals and bits (00_scope.md R8, R11, R14) -/

/-- `ofInt(n)`: `rnd` of an integer. -/
def F32.ofInt (n : Int) : F32 := F32.rnd (decide (n < 0)) (n.natAbs * 2 ^ 149) 1

/-- `rnd` of the fraction `n / d`. -/
def F32.ofFraction (n : Int) (d : Nat) : F32 := F32.rnd (decide (n < 0)) (n.natAbs * 2 ^ 149) d

/-- `rnd` of a rational (00_scope.md R8). -/
def F32.ofRat (q : ℚ) : F32 := F32.ofFraction q.num q.den

/-- `floor(x)`: the greatest integer not above a finite `x`, exact (00_scope.md R11). No rule applies it
to a non-finite number (log 10). -/
def F32.floor (x : F32) : Int := x.units / 2 ^ 149

/-- `numOfBits(b)` (00_scope.md R14). -/
def numOfBits (b : Word) : F32 := ⟨b⟩

/-- `bitsOfNum(x)` (00_scope.md R14): one NaN pattern. -/
def bitsOfNum (x : F32) : Word := if x.isNaN then 0x7FC00000 else x.bits

end Sys2Proof
end

