-- ==== Sys2Proof/Machine/Numerics.lean ====
section
/-! DEFINITION. The configuration record `Numerics` (00_scope.md R8; 92_eei_decisions.md D5), what R9 to R12
and R14 derive from it, what the rules ask of any instance, and the two instances the spec names: binary32,
the default, and the rationals with the identity as rounding. -/

namespace Sys2Proof

/-- The record `Numerics` over its number type `Num` (R8): rounding, predicates, the value of a finite
number; and the operators, comparisons and conversions that R9, R10, R11 and R14 say in their terms
(`Numerics.Lawful`). They are fields because an instance decides what the real operation leaves open (the
sign of a zero), and which non-finite data it has and how they arise and combine: those stand for the
infinities of R8's extended reals (log 13). -/
structure Numerics (Num : Type) where
  /-- `rnd` on the reals the rules give it, which are rational. -/
  rnd : ℚ → Num
  isNaN : Num → Bool
  isFinite : Num → Bool
  /-- The real a finite number is. -/
  value : Num → ℚ
  neg : Num → Num
  add : Num → Num → Num
  sub : Num → Num → Num
  mul : Num → Num → Num
  div : Num → Num → Num
  lt : Num → Num → Bool
  le : Num → Num → Bool
  eq : Num → Num → Bool
  floor : Num → Int
  ofInt : Int → Num
  numOfBits : Word → Num
  bitsOfNum : Num → Word
  zero : Num
  half : Num
  one : Num
  two : Num

namespace Numerics
variable {Num : Type} (N : Numerics Num)

/-- `a > b` (R10). -/
def gt (a b : Num) : Bool := N.lt b a

/-- `a >= b` (R10). -/
def ge (a b : Num) : Bool := N.le b a

/-- `frac(x) = x - ofInt(floor(x))` (R11). -/
def frac (x : Num) : Num := N.sub x (N.ofInt (N.floor x))

/-- `clamp(x, lo, hi)` (R12): a NaN and everything below go to `lo`. -/
def clamp (x lo hi : Num) : Num := if N.ge x lo then (if N.le x hi then x else hi) else lo

/-- In [0, 1), hence finite (10_state.md R35 (a)). -/
def inUnit (x : Num) : Prop := N.le N.zero x = true ∧ N.lt x N.one = true

/-- The finite number whose value is `q`. -/
def hasValue (x : Num) (q : ℚ) : Prop := N.isFinite x = true ∧ N.value x = q

/-- The same number, but for the sign of a zero, which the rules leave to the instance (R9, R10). -/
def same (x y : Num) : Prop := x = y ∨ (N.hasValue x 0 ∧ N.hasValue y 0)

/-- What the rules ask of every `Numerics`. -/
structure Lawful : Prop where
  finite_not_nan : ∀ x, N.isFinite x = true → N.isNaN x = false
  /-- R8: rounding keeps what is already a number, and keeps order. -/
  rnd_value : ∀ x, N.isFinite x = true → N.same (N.rnd (N.value x)) x
  rnd_mono : ∀ q r : ℚ, q ≤ r → N.le (N.rnd q) (N.rnd r) = true
  /-- R9: the real operation followed by one `rnd`. -/
  add : ∀ a b, N.isFinite a = true → N.isFinite b = true → N.same (N.add a b) (N.rnd (N.value a + N.value b))
  sub : ∀ a b, N.isFinite a = true → N.isFinite b = true → N.same (N.sub a b) (N.rnd (N.value a - N.value b))
  mul : ∀ a b, N.isFinite a = true → N.isFinite b = true → N.same (N.mul a b) (N.rnd (N.value a * N.value b))
  div : ∀ a b, N.isFinite a = true → N.isFinite b = true → N.value b ≠ 0 →
    N.same (N.div a b) (N.rnd (N.value a / N.value b))
  neg : ∀ a, N.isFinite a = true → N.hasValue (N.neg a) (-N.value a)
  /-- R9: any operation on a NaN is a NaN. -/
  nan : ∀ a b, N.isNaN a = true ∨ N.isNaN b = true → N.isNaN (N.add a b) = true ∧
    N.isNaN (N.sub a b) = true ∧ N.isNaN (N.mul a b) = true ∧ N.isNaN (N.div a b) = true
  /-- R10. -/
  compare : ∀ a b, N.isFinite a = true → N.isFinite b = true → (N.lt a b = true ↔ N.value a < N.value b) ∧
    (N.le a b = true ↔ N.value a ≤ N.value b) ∧ (N.eq a b = true ↔ N.value a = N.value b)
  compare_nan : ∀ a b, N.isNaN a = true ∨ N.isNaN b = true →
    N.lt a b = false ∧ N.le a b = false ∧ N.eq a b = false
  /-- R11. -/
  floor : ∀ x, N.isFinite x = true → N.floor x = ⌊N.value x⌋
  ofInt : ∀ n : Int, N.same (N.ofInt n) (N.rnd n)
  /-- R14: the command layer is binary32 whatever `Num` is. -/
  numOfBits : ∀ b : Word, (⟨b⟩ : F32).isFinite = true → N.same (N.numOfBits b) (N.rnd (⟨b⟩ : F32).value)
  bitsOfNum : ∀ x, N.isFinite x = true → N.bitsOfNum x = (F32.ofRat (N.value x)).bits ∨
    (N.value x = 0 ∧ (⟨N.bitsOfNum x⟩ : F32).isZero = true)
  bitsOfNum_nan : ∀ x, N.isNaN x = true → N.bitsOfNum x = 0x7FC00000
  /-- The literals of the rules. -/
  zero : N.hasValue N.zero 0
  half : N.hasValue N.half (1 / 2)
  one : N.hasValue N.one 1
  two : N.hasValue N.two 2

end Numerics

/-- The default instance (R8): IEEE 754 binary32. -/
def binary32 : Numerics F32 where
  rnd := F32.ofRat
  isNaN := F32.isNaN
  isFinite := F32.isFinite
  value := F32.value
  neg := F32.neg
  add := F32.add
  sub := F32.sub
  mul := F32.mul
  div := F32.div
  lt := F32.lt
  le := F32.le
  eq := F32.eq
  floor := F32.floor
  ofInt := F32.ofInt
  numOfBits := numOfBits
  bitsOfNum := bitsOfNum
  zero := F32.zero
  half := F32.half
  one := F32.one
  two := F32.two

/-- What the rational instance reads from a word whose binary32 value is not finite: R14 states no value,
because no rational is one (R8). A constant WITHOUT A BODY (log 13). -/
opaque Config.rationalOfNonFinite : Word → ℚ

/-- The other instance R8 names: the rationals, with the identity as rounding. No value is ever a NaN or
infinite. A quotient by zero is Lean's 0; no rule divides by zero (46_tick.md R142; log 13). -/
def rationals : Numerics ℚ where
  rnd q := q
  isNaN _ := false
  isFinite _ := true
  value q := q
  neg a := -a
  add a b := a + b
  sub a b := a - b
  mul a b := a * b
  div a b := a / b
  lt a b := decide (a < b)
  le a b := decide (a ≤ b)
  eq a b := decide (a = b)
  floor q := q.floor
  ofInt n := n
  numOfBits b := if (numOfBits b).isFinite then (numOfBits b).value else Config.rationalOfNonFinite b
  bitsOfNum q := (F32.ofRat q).bits
  zero := 0
  half := 1 / 2
  one := 1
  two := 2

end Sys2Proof
end

