-- ==== Sys2Proof/Config.lean ====
section
/-! DEFINITION. The configuration record `Cfg` (00_scope.md R5, R6, R7; 10_state.md R38) and the contract
a claim may assume of its fields. The values the model takes are in `Machine/Params.lean`. -/

namespace Sys2Proof

/-- The tuning mode `TUNEMODE` (10_state.md R27): 0 selects row 0 of `TUNING`, "fourths"; 1 selects row 1,
"fifths". -/
inductive TuneMode where
  | fourths
  | fifths
deriving DecidableEq, Repr

/-- An effective density, `DENSITY_SET` (00_scope.md R5): 2, 4 or 8. -/
inductive Density where
  | two
  | four
  | eight
deriving DecidableEq, Repr

/-- `NoiseImpl` (00_scope.md R7): the step of the 32-bit generator state, the noise sample of a state, and
the unit-interval sample that reset uses (70_reset_and_hazards.md R152). -/
structure NoiseImpl (Num : Type) where
  step : Word → Word
  sample : Word → Num
  unit : Word → Num

/-- The configuration record over a number type. The docstrings give the status column of 00_scope.md. -/
structure Cfg (Num : Type) where
  /-- `Numerics` (R7, R8; default binary32). -/
  num : Numerics Num
  /-- `BLEP_LEN`, written `L` (R5; default): length of every ring, in samples. -/
  blepLen : Nat
  /-- `L >= 1` (93_implementation_defined.md I4). -/
  blepLen_pos : 0 < blepLen
  /-- `BLEP_OVS`, written `O` (R5; default): kernel table entries per sample. -/
  blepOvs : Nat
  /-- `DENSITY_FALLBACK` (R5): count used for an unrecognised density. -/
  densityFallback : Density
  /-- `LANE_W` (R5; not semantic, 46_tick.md R141): no definition of the model reads it. -/
  laneW : Nat
  /-- `DP_MIN` (R6; default). -/
  dpMin : Num
  /-- `DP_MAX` (R6; default). -/
  dpMax : Num
  /-- `SAW_STEP` (R6; fixed). -/
  sawStep : Num
  /-- `DC_CUTOFF_HZ` (R6; default). -/
  dcCutoffHz : Num
  /-- `REF_FREQ_HZ` (R6; OPEN). -/
  refFreqHz : Num
  /-- `TWO_PI` (R6; default). -/
  twoPi : Num
  /-- `RESET_SEED` (R6; default). -/
  resetSeed : Word
  /-- `KERNEL`, written `KT` (R7; OPEN): entries 0 to `L * O` are used, no other. -/
  kernel : Nat → Num
  /-- `TUNING` (R7; OPEN): 2 rows of 8, in octaves. -/
  tuning : TuneMode → SubIdx → Num
  /-- `Exp2` (R7; OPEN). -/
  exp2 : Num → Num
  /-- `SinApprox` (R7; default). -/
  sinApprox : Num → Num
  /-- `NoiseImpl` (R7; default). -/
  noise : NoiseImpl Num
  /-- `TICK_CYCLES` (R7; OPEN): no definition of the model reads it (70_reset_and_hazards.md R161). -/
  tickCycles : Nat

/-! ## Contracts -/

/-- `Exp2`'s contract (41_phase_bank.md R84 (a) to (d)). -/
structure Exp2Contract {Num : Type} (N : Numerics Num) (f : Num → Num) : Prop where
  /-- (a) exact at an integer `n` whose power of two is a number of the type. -/
  exact_int : ∀ (x : Num) (n : Int), N.hasValue x n → (∃ y, N.hasValue y (2 ^ n)) → N.hasValue (f x) (2 ^ n)
  /-- (b) the three special arguments, for a type that has them. -/
  nan : ∀ x, N.isNaN x = true → N.isNaN (f x) = true
  posInf : ∀ x, N.isNaN x = false → N.isFinite x = false → N.lt N.zero x = true → f x = x
  negInf : ∀ x, N.isNaN x = false → N.isFinite x = false → N.lt x N.zero = true → N.hasValue (f x) 0
  /-- (c) for a finite argument: non-negative or `+inf`, never NaN. -/
  nonneg : ∀ x, N.isFinite x = true → N.le N.zero (f x) = true
  /-- (d) monotone non-decreasing. -/
  mono : ∀ x y, N.le x y = true → N.le (f x) (f y) = true

/-- The kernel's contract (44_minblep.md R112 (a) to (c)) for a table with last index `last` = `L * O`. It
speaks of values, so it leaves the sign of the zero `KT[0]` open, as R10 does. -/
structure KernelContract {Num : Type} (N : Numerics Num) (kt : Nat → Num) (last : Nat) : Prop where
  at_zero : N.hasValue (kt 0) 0
  at_last : N.hasValue (kt last) 1
  bounded : ∀ n ≤ last, N.isFinite (kt n) = true ∧ |N.value (kt n)| ≤ 2

/-- The OPEN parameters of 00_scope.md R6 and R7. -/
structure OpenParams (Num : Type) where
  refFreqHz : Num
  kernel : Nat → Num
  tuning : TuneMode → SubIdx → Num
  exp2 : Num → Num
  tickCycles : Nat

/-- What a claim may assume of the OPEN parameters, and no more: `REF_FREQ_HZ` finite and positive
(92_eei_decisions.md D14), the kernel's contract, every `TUNING` entry finite (41_phase_bank.md R82),
`Exp2`'s contract, `TICK_CYCLES` positive (00_scope.md R7). -/
structure OpenParams.Contract {Num : Type} (N : Numerics Num) (p : OpenParams Num) (last : Nat) : Prop where
  refFreq_finite : N.isFinite p.refFreqHz = true
  refFreq_pos : N.lt N.zero p.refFreqHz = true
  kernel : KernelContract N p.kernel last
  tuning_finite : ∀ m i, N.isFinite (p.tuning m i) = true
  exp2 : Exp2Contract N p.exp2
  tickCycles_pos : 0 < p.tickCycles

/-- The OPEN parameters together with the proof of their contract. -/
structure LawfulOpenParams {Num : Type} (N : Numerics Num) (last : Nat) where
  params : OpenParams Num
  lawful : params.Contract N last

/-- The model's OPEN parameters: a constant WITHOUT A BODY (log 2). Nothing in Lean evaluates it; a proof
can use its contract and nothing else. The bracketed argument only says that the contract can be met, which
Lean asks of every such constant. -/
opaque Config.openParamsOf {Num : Type} (N : Numerics Num) (last : Nat) [Inhabited (LawfulOpenParams N last)] :
    LawfulOpenParams N last

end Sys2Proof
end

