-- ==== Sys2Proof/Machine/OpenParams.lean ====
section
/-! DEFINITION. The contract of the OPEN parameters can be met: the least example Lean needs before it
admits a bodyless constant of that type. The model never uses the example's values (log 2). -/

namespace Sys2Proof.Machine

/-- The datum 2^(k - 149), `k` at most 276. -/
def pow2Datum (k : Nat) : F32 :=
  F32.ofSignMag false (if k < 23 then 2 ^ k else (k - 22) * 2 ^ 23)

/-- 2 to the floor of `x`, saturating: an example of `Exp2`'s contract. -/
def exp2Floor (x : F32) : F32 :=
  if x.isNaN then F32.nan
  else if x.floor < -149 then F32.zero
  else if 127 < x.floor then F32.inf false
  else pow2Datum (x.floor + 149).toNat

theorem mag_ofSignMag (neg : Bool) {p : Nat} (h : p < 2 ^ 31) : (F32.ofSignMag neg p).mag = p := by
  cases neg <;> simp [F32.ofSignMag, F32.mag] <;> omega

theorem isNeg_ofSignMag (neg : Bool) {p : Nat} (h : p < 2 ^ 31) :
    (F32.ofSignMag neg p).isNeg = neg := by
  cases neg <;> simp [F32.ofSignMag, F32.isNeg, BitVec.msb_eq_decide] <;> omega

theorem magUnits_pow2 {k : Nat} :
    magUnits (if k < 23 then 2 ^ k else (k - 22) * 2 ^ 23) = 2 ^ k := by
  unfold magUnits
  split
  · next h =>
    have : 2 ^ k < 2 ^ 23 := Nat.pow_lt_pow_right (by omega) h
    rw [if_pos (Nat.div_eq_of_lt this)]
  · next h =>
    rw [Nat.mul_div_cancel _ (by positivity), if_neg (by omega), Nat.mul_mod_left, Nat.add_zero,
      ← Nat.pow_add]
    congr 1
    omega

theorem pow2Datum_mag_lt {k : Nat} (h : k ≤ 276) :
    (if k < 23 then 2 ^ k else (k - 22) * 2 ^ 23) < infMag := by
  unfold infMag
  split
  · next h' =>
    have : 2 ^ k < 2 ^ 23 := Nat.pow_lt_pow_right (by omega) h'
    omega
  · omega

theorem pow2Datum_finite {k : Nat} (h : k ≤ 276) : (pow2Datum k).isFinite = true := by
  have hlt := pow2Datum_mag_lt h
  have : infMag < 2 ^ 31 := by decide
  rw [F32.isFinite, pow2Datum, mag_ofSignMag _ (by omega)]
  exact decide_eq_true hlt

theorem pow2Datum_units {k : Nat} (h : k ≤ 276) : (pow2Datum k).units = 2 ^ k := by
  have hlt := pow2Datum_mag_lt h
  have : infMag < 2 ^ 31 := by decide
  rw [F32.units, pow2Datum, isNeg_ofSignMag _ (by omega), mag_ofSignMag _ (by omega), magUnits_pow2]
  simp

theorem not_nan_of_finite {x : F32} (h : x.isFinite = true) : x.isNaN = false := by
  simp only [F32.isFinite, F32.isNaN, decide_eq_true_eq, decide_eq_false_iff_not] at *
  omega

theorem inf_of_not_finite {x : F32} (hn : binary32.isNaN x = false) (hf : binary32.isFinite x = false) :
    x = F32.inf x.isNeg := by
  obtain ⟨b⟩ := x
  have hn' : ¬ infMag < b.toNat % 2 ^ 31 := of_decide_eq_false hn
  have hf' : ¬ b.toNat % 2 ^ 31 < infMag := of_decide_eq_false hf
  have hb := b.isLt
  unfold infMag at *
  simp only [F32.inf, F32.ofSignMag, F32.isNeg, F32.mk.injEq, BitVec.msb_eq_decide, infMag]
  apply BitVec.eq_of_toNat_eq
  simp only [BitVec.toNat_ofNat, decide_eq_true_eq]
  split <;> omega

theorem units_lt_of_lt {x y : F32} (h : x.lt y = true) : x.units < y.units := by
  unfold F32.lt at h
  simp only [Bool.and_eq_true, decide_eq_true_eq] at h
  exact h.2

theorem zero_units : F32.zero.units = 0 := by decide

theorem isNeg_of_zero_lt {x : F32} (h : binary32.lt binary32.zero x = true) : x.isNeg = false := by
  have hu : F32.zero.units < x.units := units_lt_of_lt h
  rw [zero_units, F32.units] at hu
  by_contra hn
  rw [if_pos (by simpa using hn)] at hu
  omega

theorem isNeg_of_lt_zero {x : F32} (h : binary32.lt x binary32.zero = true) : x.isNeg = true := by
  have hu : x.units < F32.zero.units := units_lt_of_lt h
  rw [zero_units, F32.units] at hu
  by_contra hn
  rw [if_neg hn] at hu
  omega

theorem exp2Floor_not_nan {x : F32} (h : x.isNaN = false) : (exp2Floor x).isNaN = false := by
  unfold exp2Floor
  rw [h]
  simp only [Bool.false_eq_true, if_false]
  split
  · decide
  · split
    · decide
    · exact not_nan_of_finite (pow2Datum_finite (by omega))

theorem exp2Floor_mono {x y : F32} (hx : x.isNaN = false) (hy : y.isNaN = false)
    (h : x.units ≤ y.units) : (exp2Floor x).units ≤ (exp2Floor y).units := by
  have hf : x.floor ≤ y.floor := Int.ediv_le_ediv (by norm_num) h
  have hinf : (F32.inf false).units = 2 ^ 23 * 2 ^ 254 := by decide
  have hzero : F32.zero.units = 0 := by decide
  have top : ∀ k : Nat, k ≤ 276 → (2 : Int) ^ k ≤ 2 ^ 23 * 2 ^ 254 := fun k hk => by
    rw [← pow_add]
    exact pow_le_pow_right₀ (by norm_num) (by omega)
  unfold exp2Floor
  simp only [hx, hy, Bool.false_eq_true, if_false]
  split_ifs with h1 h2 h3 h4 h5 h6
  · exact le_refl _
  · rw [hzero, hinf]; positivity
  · rw [hzero, pow2Datum_units (by omega)]; positivity
  · omega
  · exact le_refl _
  · omega
  · omega
  · rw [hinf, pow2Datum_units (by omega)]; exact top _ (by omega)
  · rw [pow2Datum_units (by omega), pow2Datum_units (by omega)]
    exact pow_le_pow_right₀ (by norm_num) (by omega)

theorem value_eq_iff {x : F32} {q : ℚ} : x.value = q ↔ (x.units : ℚ) = q * 2 ^ 149 := by
  unfold F32.value
  exact div_eq_iff (by norm_num)

/-- A power of two is a finite binary32 value only in the exponent range -149 to 127. -/
theorem exponent_range {y : F32} {n : Int} (hfin : y.isFinite = true) (hv : y.value = (2 : ℚ) ^ n) :
    -149 ≤ n ∧ n ≤ 127 := by
  have hu : (y.units : ℚ) = (2 : ℚ) ^ (n + 149) := by
    rw [value_eq_iff.1 hv, zpow_add₀ (by norm_num)]
    norm_cast
  have hpos : 0 < y.units := by
    have : (0 : ℚ) < y.units := by rw [hu]; positivity
    exact_mod_cast this
  have hlt : y.units < 2 ^ 24 * 2 ^ 253 := by
    have hm : y.mag < infMag := of_decide_eq_true hfin
    have hmag : magUnits y.mag < 2 ^ 24 * 2 ^ 253 := by
      unfold magUnits
      split
      · omega
      · have h1 := Nat.mod_lt y.mag (show 0 < 2 ^ 23 by norm_num)
        exact Nat.mul_lt_mul_of_lt_of_le (by omega)
          (Nat.pow_le_pow_right (by norm_num) (by unfold infMag at hm; omega)) (by positivity)
    unfold F32.units
    split <;> omega
  constructor
  · by_contra h
    have h1 : (y.units : ℚ) < 1 := by
      rw [hu]
      exact zpow_lt_one_of_neg₀ (by norm_num) (by omega)
    have : y.units < 1 := by exact_mod_cast h1
    omega
  · by_contra h
    have h1 : (2 : ℚ) ^ (24 : Int) * 2 ^ (253 : Int) ≤ y.units := by
      rw [hu, ← zpow_add₀ (by norm_num)]
      exact zpow_le_zpow_right₀ (by norm_num) (by omega)
    have : (2 : Int) ^ 24 * 2 ^ 253 ≤ y.units := by exact_mod_cast h1
    omega

theorem exp2Floor_contract : Exp2Contract binary32 exp2Floor where
  exact_int x n hx hy := by
    obtain ⟨hfin, hv⟩ : x.isFinite = true ∧ x.value = n := hx
    obtain ⟨y, hyfin, hyv⟩ : ∃ y : F32, y.isFinite = true ∧ y.value = (2 : ℚ) ^ n := hy
    obtain ⟨hlo, hhi⟩ := exponent_range hyfin hyv
    have hu : x.units = n * 2 ^ 149 := by exact_mod_cast value_eq_iff.1 hv
    have hfl : x.floor = n := by
      rw [F32.floor, hu, Int.mul_ediv_cancel _ (by norm_num)]
    have he : exp2Floor x = pow2Datum (n + 149).toNat := by
      unfold exp2Floor
      rw [not_nan_of_finite hfin, hfl]
      simp only [Bool.false_eq_true, if_false]
      rw [if_neg (by omega), if_neg (by omega)]
    rw [he]
    refine ⟨pow2Datum_finite (by omega), value_eq_iff.2 ?_⟩
    rw [pow2Datum_units (by omega)]
    push_cast
    rw [← zpow_natCast, Int.toNat_of_nonneg (by omega), zpow_add₀ (by norm_num)]
    norm_cast
  nan x h := by
    change x.isNaN = true at h
    show (exp2Floor x).isNaN = true
    unfold exp2Floor
    rw [if_pos h]
    decide
  posInf x hn hf hlt := by
    rw [inf_of_not_finite hn hf, isNeg_of_zero_lt hlt]
    decide
  negInf x hn hf hlt := by
    rw [inf_of_not_finite hn hf, isNeg_of_lt_zero hlt]
    refine ⟨by decide, value_eq_iff.2 ?_⟩
    rw [show (exp2Floor (F32.inf true)).units = 0 by decide]
    norm_num
  nonneg x h := by
    have hn := not_nan_of_finite h
    show F32.zero.le (exp2Floor x) = true
    unfold F32.le
    rw [exp2Floor_not_nan hn]
    have hz : F32.zero.isNaN = false := by decide
    rw [hz]
    simp only [Bool.not_false, Bool.true_and, decide_eq_true_eq]
    have hzu : F32.zero.units = 0 := by decide
    rw [hzu]
    unfold exp2Floor
    simp only [hn, Bool.false_eq_true, if_false]
    split
    · decide
    · split
      · decide
      · rw [pow2Datum_units (by omega)]; positivity
  mono x y h := by
    change x.le y = true at h
    show (exp2Floor x).le (exp2Floor y) = true
    unfold F32.le at *
    simp only [Bool.and_eq_true, Bool.not_eq_true', decide_eq_true_eq] at *
    obtain ⟨⟨hx, hy⟩, hle⟩ := h
    exact ⟨⟨exp2Floor_not_nan hx, exp2Floor_not_nan hy⟩, exp2Floor_mono hx hy hle⟩

theorem hasValue_of_units {x : F32} {n : Int} (hf : x.isFinite = true) (h : x.units = n * 2 ^ 149) :
    binary32.hasValue x n :=
  ⟨hf, value_eq_iff.2 (by rw [h]; norm_cast)⟩

theorem zero_hasValue : binary32.hasValue F32.zero 0 := by
  exact_mod_cast hasValue_of_units (x := F32.zero) (n := 0) (by decide) (by decide)

theorem one_hasValue : binary32.hasValue F32.one 1 := by
  exact_mod_cast hasValue_of_units (x := F32.one) (n := 1) (by decide) (by decide)

/-- One choice of OPEN parameters that meets the contract, for any kernel with at least one step. -/
def exampleOpenParams : OpenParams F32 where
  refFreqHz := F32.one
  kernel n := if n = 0 then F32.zero else F32.one
  tuning _ _ := F32.zero
  exp2 := exp2Floor
  tickCycles := 1

theorem exampleOpenParams_contract {last : Nat} (h : 0 < last) :
    exampleOpenParams.Contract binary32 last where
  refFreq_finite := show F32.one.isFinite = true by decide
  refFreq_pos := show F32.zero.lt F32.one = true by decide
  kernel :=
    { at_zero := zero_hasValue
      at_last := by
        show binary32.hasValue (if last = 0 then F32.zero else F32.one) 1
        rw [if_neg (by omega)]
        exact one_hasValue
      bounded := fun n _ => by
        show binary32.isFinite (if n = 0 then F32.zero else F32.one) = true ∧
          |binary32.value (if n = 0 then F32.zero else F32.one)| ≤ 2
        split
        · rw [zero_hasValue.1, zero_hasValue.2]; norm_num
        · rw [one_hasValue.1, one_hasValue.2]; norm_num }
  tuning_finite _ _ := show F32.zero.isFinite = true by decide
  exp2 := exp2Floor_contract
  tickCycles_pos := by decide

/-- The model's OPEN parameters for a kernel of last index `last` (log 2). -/
def openParams (last : Nat) (h : 0 < last) : LawfulOpenParams binary32 last :=
  @Config.openParamsOf F32 binary32 last ⟨⟨exampleOpenParams, exampleOpenParams_contract h⟩⟩

end Sys2Proof.Machine
end

