-- ==== Sys2Proof/Machine/Noise.lean ====
section
/-! DEFINITION. The pseudo-random generator `lfsr_or_chaos_prng` and its samples
(43_chaos_noise_filter.md R98 to R100), and the seeding of a voice's stream
(70_reset_and_hazards.md R152). -/

namespace Sys2Proof.Machine

variable {Num : Type}

/-- One `XORSHIFT32` step (R98): shifts 13, 17, 5 on an unsigned 32-bit word (00_scope.md R13). -/
def xs32 (x : Word) : Word :=
  let x := x ^^^ (x <<< 13)
  let x := x ^^^ (x >>> 17)
  x ^^^ (x <<< 5)

/-- `noise(x)` (R99): the upper 24 bits as a two's-complement integer over 2^23. -/
def noiseSample (N : Numerics Num) (x : Word) : Num :=
  N.div (N.ofInt (x.extractLsb' 8 24).toInt) (N.ofInt (2 ^ 23))

/-- `U01(x)` (R100): the upper 24 bits unsigned, over 2^24. -/
def unitSample (N : Numerics Num) (x : Word) : Num :=
  N.div (N.ofInt (x.extractLsb' 8 24).toNat) (N.ofInt (2 ^ 24))

/-- The default `NoiseImpl` (00_scope.md R7). -/
def xorshift32 (N : Numerics Num) : NoiseImpl Num where
  step := xs32
  sample := noiseSample N
  unit := unitSample N

/-- The per-voice start word of `ResetAll` (R152), never 0. -/
def startWord (seed : Word) (v : VoiceIdx) : Word :=
  let st := seed ^^^ (0x9E3779B9 * BitVec.ofNat 32 (v.val + 1))
  if st = 0 then 0xFFFFFFFF else st

/-- The generator state after `n` steps from `st`. -/
def prngAfter (noise : NoiseImpl Num) : Nat → Word → Word
  | 0, st => st
  | n + 1, st => noise.step (prngAfter noise n st)

end Sys2Proof.Machine
end

