-- ==== Sys2Proof/Machine/Voice.lean ====
section
/-! DEFINITION. The state of one voice as plain data (10_state.md R20 to R33) and its reset value
(R37, 70_reset_and_hazards.md R152). `Num` is the number type, `L` is `BLEP_LEN`. -/

namespace Sys2Proof.Machine

/-- The eight parameter registers `P[v].r` (10_state.md R21), raw bits. -/
structure Params where
  pitch : Word
  spread : Word
  chaos : Word
  chaosBw : Word
  density : Word
  enables : Word
  syncIn : Word
  dt : Word
deriving DecidableEq, Repr

/-- One minBLEP corrector (10_state.md R33, 44_minblep.md R110): the ring and its cursor. -/
structure Corrector (Num : Type) (L : Nat) where
  buf : Vector Num L
  pos : Fin L
deriving DecidableEq, Repr

/-- What a voice holds for one waveform `W`: the output register `WOUT` (10_state.md R24), the DC
blocker's state `dcW` (R31) and the correctors `blepW[i]` (R33). -/
structure WavePath (Num : Type) (L : Nat) where
  out : Num
  dc : Num
  blep : Vector (Corrector Num L) 8
deriving DecidableEq, Repr

/-- One voice `V[v]` (10_state.md R20): parameters, phases (R28), `lastSync` (R29), noise filters (R30),
generator word (R32), and the two waveform paths (`sin` holds SINOUT, dcSin, blepSin; `saw` holds
SAWOUT, dcSaw, blepSaw). -/
structure Voice (Num : Type) (L : Nat) where
  params : Params
  phase : Vector Num 8
  lastSync : Num
  nf : Vector Num 8
  prng : Word
  sin : WavePath Num L
  saw : WavePath Num L
deriving DecidableEq, Repr

/-- Parameter registers after reset: all zero (10_state.md R37). -/
def Params.reset : Params := ⟨0, 0, 0, 0, 0, 0, 0, 0⟩

variable {Num : Type}

/-- A corrector after reset: empty ring, cursor 0 (R37). -/
def Corrector.reset (N : Numerics Num) {L : Nat} (h : 0 < L) : Corrector Num L :=
  ⟨Vector.replicate L N.zero, ⟨0, h⟩⟩

/-- A waveform path after reset (R37). -/
def WavePath.reset (N : Numerics Num) {L : Nat} (h : 0 < L) : WavePath Num L :=
  ⟨N.zero, N.zero, Vector.replicate 8 (Corrector.reset N h)⟩

/-- Voice `v` after `ResetAll(seed)` (70_reset_and_hazards.md R152): phase `i` comes from the generator
word after step `i + 1`, and the word after eight steps stays as `prng`. -/
def resetVoice (cfg : Cfg Num) (seed : Word) (v : VoiceIdx) : Voice Num cfg.blepLen where
  params := Params.reset
  phase := Vector.ofFn fun i => cfg.noise.unit (prngAfter cfg.noise (i.val + 1) (startWord seed v))
  lastSync := cfg.num.zero
  nf := Vector.replicate 8 cfg.num.zero
  prng := prngAfter cfg.noise 8 (startWord seed v)
  sin := WavePath.reset cfg.num cfg.blepLen_pos
  saw := WavePath.reset cfg.num cfg.blepLen_pos

/-- All sixteen voices after `ResetAll(seed)` (R152). -/
def resetVoices (cfg : Cfg Num) (seed : Word) : Vector (Voice Num cfg.blepLen) 16 :=
  Vector.ofFn (resetVoice cfg seed)

end Sys2Proof.Machine
end

