-- ==== Sys2Proof/Machine/Flags.lean ====
section
/-! DEFINITION. The block's only flags: the three enable bits of `P[v].ENABLES` (10_state.md R22). No
operation computes a flag (10_state.md R26). -/

namespace Sys2Proof.Machine

/-- `SIN_EN`, bit 0 of ENABLES. -/
def Params.sinEn (p : Params) : Bool := p.enables.getLsbD 0

/-- `SAW_EN`, bit 1 of ENABLES. -/
def Params.sawEn (p : Params) : Bool := p.enables.getLsbD 1

/-- `SYNC_EN`, bit 2 of ENABLES. -/
def Params.syncEn (p : Params) : Bool := p.enables.getLsbD 2

end Sys2Proof.Machine
end

