-- ==== Sys2Proof/Machine/Operands.lean ====
section
/-! DEFINITION. How commands read their operands: register selection (20_memory.md R47, R52), the effective
density (10_state.md R23), the tuning mode (40_commands.md R73, R78) and the input latch of a tick
(46_tick.md R132). -/

namespace Sys2Proof.Machine

variable {Num : Type}

/-- The bits of the named parameter register. -/
def Params.read (p : Params) : ParamReg → Word
  | .pitch => p.pitch
  | .spread => p.spread
  | .chaos => p.chaos
  | .chaosBw => p.chaosBw
  | .density => p.density
  | .enables => p.enables
  | .syncIn => p.syncIn
  | .dt => p.dt

/-- The registers with the named one replaced, whole and unchecked (10_state.md R21). -/
def Params.write (p : Params) (r : ParamReg) (b : Word) : Params :=
  match r with
  | .pitch => { p with pitch := b }
  | .spread => { p with spread := b }
  | .chaos => { p with chaos := b }
  | .chaosBw => { p with chaosBw := b }
  | .density => { p with density := b }
  | .enables => { p with enables := b }
  | .syncIn => { p with syncIn := b }
  | .dt => { p with dt := b }

/-- The waveform path an output register or a unit works on. -/
def Voice.path {L : Nat} (v : Voice Num L) : Wave → WavePath Num L
  | .sin => v.sin
  | .saw => v.saw

/-- The effective density `d` (10_state.md R23): all 32 bits are compared. -/
def effectiveDensity (cfg : Cfg Num) (b : Word) : Density :=
  if b = 2 then .two else if b = 4 then .four else if b = 8 then .eight else cfg.densityFallback

/-- `d` as a count. -/
def densityCount : Density → Nat
  | .two => 2
  | .four => 4
  | .eight => 8

/-- The active sub-oscillators `0 .. d-1` in ascending order (41_phase_bank.md R81). -/
def activeSubs : Density → List SubIdx
  | .two => [0, 1]
  | .four => [0, 1, 2, 3]
  | .eight => [0, 1, 2, 3, 4, 5, 6, 7]

/-- The mode SETTUNE selects (40_commands.md R73): 1 selects mode 1, every other operand mode 0. -/
def tuneModeOf (data : Word) : TuneMode := if data = 1 then .fifths else .fourths

/-- `zext_32(TUNEMODE)` (40_commands.md R78). -/
def tuneModeBits : TuneMode → Word
  | .fourths => 0
  | .fifths => 1

/-- The local values latched at the start of a tick (46_tick.md R132). -/
structure Latch (Num : Type) where
  pitch : Num
  spread : Num
  chaos : Num
  bw : Num
  cur : Num
  dt : Num
  sinEn : Bool
  sawEn : Bool
  syncEn : Bool
  density : Density
  mode : TuneMode
deriving DecidableEq, Repr

/-- The input latch (46_tick.md R132). -/
def latchInputs (cfg : Cfg Num) (p : Params) (m : TuneMode) : Latch Num where
  pitch := cfg.num.numOfBits p.pitch
  spread := cfg.num.numOfBits p.spread
  chaos := cfg.num.numOfBits p.chaos
  bw := cfg.num.numOfBits p.chaosBw
  cur := cfg.num.numOfBits p.syncIn
  dt := cfg.num.numOfBits p.dt
  sinEn := p.sinEn
  sawEn := p.sawEn
  syncEn := p.syncEn
  density := effectiveDensity cfg p.density
  mode := m

end Sys2Proof.Machine
end

