-- ==== Sys2Proof/Machine/PhaseBank.lean ====
section
/-! DEFINITION. The sub-oscillator bank's arithmetic: pitch, increment, advance, raw waveforms and the
position of a saw wrap (41_phase_bank.md R83 to R90). -/

namespace Sys2Proof.Machine

variable {Num : Type}

/-- Effective pitch `ep` (R83): one multiplication, then two additions, left to right. -/
def effectivePitch (cfg : Cfg Num) (lt : Latch Num) (i : SubIdx) (off : Num) : Num :=
  cfg.num.add (cfg.num.add lt.pitch (cfg.num.mul (cfg.tuning lt.mode i) lt.spread)) off

/-- Phase increment `dp` (R85). -/
def phaseIncrement (cfg : Cfg Num) (lt : Latch Num) (ep : Num) : Num :=
  cfg.num.clamp (cfg.num.mul (cfg.num.mul cfg.refFreqHz (cfg.exp2 ep)) lt.dt) cfg.dpMin cfg.dpMax

/-- The advanced phase `adv` (R86). -/
def advancePhase (N : Numerics Num) (prev dp : Num) : Num := N.frac (N.add prev dp)

/-- Raw saw (R88). -/
def sawRaw (N : Numerics Num) (p : Num) : Num := N.sub (N.mul N.two (N.frac (N.add p N.half))) N.one

/-- The six constants of the default `SinApprox` (R90). -/
structure SinConstants (Num : Type) where
  p1 : Num
  p2 : Num
  p3 : Num
  q1 : Num
  q2 : Num
  q3 : Num

/-- The default `SinApprox` (R90): the [6/6] approximant, by Horner's rule as parenthesised. -/
def sinPade (N : Numerics Num) (k : SinConstants Num) (p : Num) : Num :=
  let x := N.sub p N.half
  let u := N.mul x x
  let num := N.add N.one (N.mul u (N.add k.p1 (N.mul u (N.add k.p2 (N.mul u k.p3)))))
  let den := N.add N.one (N.mul u (N.add k.q1 (N.mul u (N.add k.q2 (N.mul u k.q3)))))
  N.div num den

/-- The raw value of a waveform at a phase: `Sin` (R89) or `Saw` (R88). -/
def rawWave (cfg : Cfg Num) : Wave → Num → Num
  | .sin => cfg.sinApprox
  | .saw => sawRaw cfg.num

/-- The fraction `q` of the sample step at which the phase reaches 1/2 (R87). -/
def wrapFraction (N : Numerics Num) (prev dp : Num) : Num := N.div (N.sub N.half prev) dp

end Sys2Proof.Machine
end

