-- ==== Sys2Proof/Machine/Params.lean ====
section
/-! DEFINITION. The configurations: the fixed values and defaults of 00_scope.md R5, R6 and R7 (log 3) over any
`Numerics`, and the one the model runs with: binary32 (log 1) and the OPEN parameters as constants without a
body (log 2). -/

namespace Sys2Proof.Machine

variable {Num : Type}

/-- `BLEP_LEN` (R5). -/
def blepLenDefault : Nat := 16

/-- `BLEP_OVS` (R5). -/
def blepOvsDefault : Nat := 16

/-- The decimal constants of R6 and 41_phase_bank.md R90. -/
structure Constants (Num : Type) where
  dpMin : Num
  dpMax : Num
  sawStep : Num
  dcCutoffHz : Num
  twoPi : Num
  sine : SinConstants Num

/-- Each decimal literal is the exact value, rounded once when the configuration is built (R6). -/
def Constants.decimal (N : Numerics Num) : Constants Num where
  dpMin := N.rnd (1 / 10 ^ 6)
  dpMax := N.rnd (35 / 10 ^ 2)
  sawStep := N.rnd (-2)
  dcCutoffHz := N.rnd 20
  twoPi := N.rnd (6283185307179586 / 10 ^ 15)
  sine :=
    { p1 := N.rnd (-1857837706 / 10 ^ 8)
      p2 := N.rnd (4268589444 / 10 ^ 8)
      p3 := N.rnd (-2290981333 / 10 ^ 8)
      q1 := N.rnd (1160831745 / 10 ^ 9)
      q2 := N.rnd (6604006172 / 10 ^ 10)
      q3 := N.rnd (1990794590 / 10 ^ 10) }

/-- The words R6 and R90 list for binary32. -/
def constants32 : Constants F32 where
  dpMin := ⟨0x358637BD⟩
  dpMax := ⟨0x3EB33333⟩
  sawStep := ⟨0xC0000000⟩
  dcCutoffHz := ⟨0x41A00000⟩
  twoPi := ⟨0x40C90FDB⟩
  sine :=
    { p1 := ⟨0xC194A084⟩
      p2 := ⟨0x422ABE5B⟩
      p3 := ⟨0xC1B7474C⟩
      q1 := ⟨0x3F949622⟩
      q2 := ⟨0x3F291004⟩
      q3 := ⟨0x3E4BDB7C⟩ }

/-- The default `Cfg` over a `Numerics`, with its constants and OPEN parameters. -/
def cfgOf (N : Numerics Num) (k : Constants Num) (p : OpenParams Num) : Cfg Num where
  num := N
  blepLen := blepLenDefault
  blepLen_pos := by decide
  blepOvs := blepOvsDefault
  densityFallback := .eight
  laneW := 4
  dpMin := k.dpMin
  dpMax := k.dpMax
  sawStep := k.sawStep
  dcCutoffHz := k.dcCutoffHz
  refFreqHz := p.refFreqHz
  twoPi := k.twoPi
  resetSeed := 0
  kernel := p.kernel
  tuning := p.tuning
  exp2 := p.exp2
  sinApprox := sinPade N k.sine
  noise := xorshift32 N
  tickCycles := p.tickCycles

/-- The OPEN parameters of the model, for a kernel of `L * O + 1` entries. -/
def openDefaults : LawfulOpenParams binary32 (blepLenDefault * blepOvsDefault) :=
  openParams (blepLenDefault * blepOvsDefault) (by decide)

/-- The model's `Cfg`. -/
def cfg : Cfg F32 := cfgOf binary32 constants32 openDefaults.params

/-- The default `Cfg` in exact arithmetic (R8), for any choice of the OPEN parameters. -/
def exactCfg (p : OpenParams ℚ) : Cfg ℚ := cfgOf rationals (Constants.decimal rationals) p

end Sys2Proof.Machine
end

