-- ==== Sys2Proof/Machine/State.lean ====
section
/-! DEFINITION. The machine's state, its reset value, and the reasons a step can stop. -/

namespace Sys2Proof.Machine

/-- What the host does at the port (30_encoding.md R62): it presents a command word, or holds `rst` at 1
for a cycle (70_reset_and_hazards.md R153). -/
inductive HostEvent where
  | word (w : CmdWord)
  | rst
deriving DecidableEq, Repr

/-- A response: `rsp_data` and `rsp_err` (40_commands.md R80). -/
structure Response where
  data : Word
  err : Bool
deriving DecidableEq, Repr

/-- The state of the block (10_state.md R20): sixteen voices and TUNEMODE. `inputs` and `rsp` are the model's
own fields for the port: the host's events not yet taken, oldest first (log 4), and the response now
on the port, `none` when `rsp_valid` is 0 (log 8). -/
structure State where
  voices : Vector (Voice F32 cfg.blepLen) 16
  tuneMode : TuneMode
  inputs : List HostEvent
  rsp : Option Response
deriving DecidableEq, Repr

/-- No step faults: "The block raises no synchronous exception" (60_exceptions.md R143), so there is no
constructor, and no claim can be made true by a fault (log 11; safe). -/
inductive Fault where
deriving DecidableEq, Repr

/-- Why a step has no successor. -/
inductive Refusal where
  /-- Raised by a refused arm of `exec` for a command without a meaning; no arm of this model is one.
  Safe: nothing can be proved about the step. -/
  | notModelled (mnemonic : String)
  /-- Raised by `step` for a word that spells no command (30_encoding.md R68, 60_exceptions.md R151);
  `answer` is the response the hardware gives. Safe: the hardware goes on where the model stops. -/
  | reservedWord (w : CmdWord) (answer : Response)
deriving DecidableEq, Repr

/-- The machine right after hardware reset: `ResetAll(RESET_SEED)` (70_reset_and_hazards.md R153 (a),
10_state.md R37), no response on the port, no event waiting (log 5). -/
def State.reset : State where
  voices := resetVoices cfg cfg.resetSeed
  tuneMode := .fourths
  inputs := []
  rsp := none

end Sys2Proof.Machine
end

