-- ==== Sys2Proof/Machine/Filter.lean ====
section
/-! DEFINITION. The one-pole filter, its coefficient, and the chaos path (43_chaos_noise_filter.md R102 to
R107). -/

namespace Sys2Proof.Machine

variable {Num : Type}

/-- `OnePole(y, a, x)` (R102): the new state, which is also the low-pass output (R103). -/
def onePole (N : Numerics Num) (y a x : Num) : Num := N.add y (N.mul a (N.sub x y))

/-- The high-pass output of a step whose new state is `y'` (R103). -/
def highPass (N : Numerics Num) (x y' : Num) : Num := N.sub x y'

/-- `Coef(fc, dt)` (R104). -/
def coef (cfg : Cfg Num) (fc dt : Num) : Num :=
  let N := cfg.num
  let w := N.mul (N.mul cfg.twoPi fc) dt
  if !N.gt w N.zero then N.zero
  else if !N.isFinite w then N.one
  else N.div w (N.add N.one w)

/-- Whether the chaos path is engaged in a tick (R105): false for zeros, negative values and NaN. -/
def Latch.chaosOn (N : Numerics Num) (lt : Latch Num) : Bool := N.gt lt.chaos N.zero

/-- The chaos step of sub-oscillator `i` (R106): the offset `off` (R107) and the voice with `prng` and
`nf[i]` updated. Not engaged: offset exactly 0.0, nothing drawn, nothing written (R105). -/
def chaosStep (cfg : Cfg Num) {L : Nat} (lt : Latch Num) (an : Num) (v : Voice Num L) (i : SubIdx) :
    Num × Voice Num L :=
  if lt.chaosOn cfg.num then
    let w := cfg.noise.step v.prng
    let y := onePole cfg.num (v.nf.get i) an (cfg.noise.sample w)
    (cfg.num.mul y lt.chaos, { v with prng := w, nf := v.nf.set i y })
  else (cfg.num.zero, v)

end Sys2Proof.Machine
end

