-- ==== Sys2Proof/Machine/Blep.lean ====
section
/-! DEFINITION. The minBLEP corrector: kernel lookup, `insertDiscontinuity`, `process`
(44_minblep.md R110 to R118). -/

namespace Sys2Proof.Machine

variable {Num : Type}

/-- `KTx(n)` (R113): the kernel table made total, 0 before it and 1 from its last entry on. -/
def kernelAt (cfg : Cfg Num) (n : Int) : Num :=
  if n < 0 then cfg.num.zero
  else if n < (cfg.blepLen * cfg.blepOvs : Nat) then cfg.kernel n.toNat
  else cfg.num.one

/-- `K(t)` (R113): linear interpolation between table entries, from `KT[0]` too, where 41_phase_bank.md R91 (d)
says otherwise of an instant-step kernel (log 14, DESIGN CHOICE). -/
def kernelInterp (cfg : Cfg Num) (t : Num) : Num :=
  let N := cfg.num
  let idx := N.mul t (N.ofInt cfg.blepOvs)
  let n := N.floor idx
  let f := N.sub idx (N.ofInt n)
  N.add (kernelAt cfg n) (N.mul f (N.sub (kernelAt cfg (n + 1)) (kernelAt cfg n)))

/-- The slot of a correction due `j` samples from now: `(pos + j) mod L` (R115). -/
def ringSlot {L : Nat} (pos : Fin L) (j : Nat) : Fin L := ⟨(pos.val + j) % L, Nat.mod_lt _ pos.pos⟩

/-- The correction of a step of height `a` at offset `p`, for the sample `j` ticks from now: `a * (k - one)`
of R114. -/
def blepTerm (cfg : Cfg Num) (p a : Num) (j : Nat) : Num :=
  cfg.num.mul a (cfg.num.sub (kernelInterp cfg (cfg.num.sub (cfg.num.ofInt j) p)) cfg.num.one)

/-- One pass of R114's loop: slot `(pos + j) mod L` gains the correction for `j`. -/
def insertAt (cfg : Cfg Num) {L : Nat} (p a : Num) (b : Corrector Num L) (j : Nat) : Corrector Num L :=
  let s := ringSlot b.pos j
  { b with buf := b.buf.set s (cfg.num.add (b.buf.get s) (blepTerm cfg p a j)) }

/-- `insertDiscontinuity(b, p, a)` (R114): `j` from 0 to `L-1`, ascending. -/
def insertDiscontinuity (cfg : Cfg Num) {L : Nat} (b : Corrector Num L) (p a : Num) : Corrector Num L :=
  (List.range L).foldl (insertAt cfg p a) b

/-- `process(b)` (R116): the correction due now, and the corrector with that slot cleared and the cursor
advanced. -/
def processBlep (N : Numerics Num) {L : Nat} (b : Corrector Num L) : Num × Corrector Num L :=
  (b.buf.get b.pos, { buf := b.buf.set b.pos N.zero, pos := ringSlot b.pos 1 })

/-- Saw wrap detection and its insertion (41_phase_bank.md R87), for an enabled saw. -/
def insertSawWrap (cfg : Cfg Num) {L : Nat} (prev dp : Num) (b : Corrector Num L) : Corrector Num L :=
  let N := cfg.num
  let q := wrapFraction N prev dp
  if N.gt q N.zero && N.le q N.one then insertDiscontinuity cfg b (N.sub q N.one) cfg.sawStep else b

end Sys2Proof.Machine
end

