-- ==== Sys2Proof/Machine/Sync.lean ====
section
/-! DEFINITION. The hard-sync detector and the phase reset (42_hard_sync.md R92 to R95). -/

namespace Sys2Proof.Machine

variable {Num : Type}

/-- The detector (R92): `some c` when it fires, with `c` the crossing fraction. -/
def detectSync (N : Numerics Num) (prevS cur : Num) : Option Num :=
  let ds := N.sub cur prevS
  if !N.isFinite ds || N.eq ds N.zero then none
  else
    let c := N.div (N.sub N.zero prevS) ds
    if N.gt c N.zero && N.le c N.one && N.ge cur N.zero then some c else none

/-- The detector's verdict in a tick that computes: it is evaluated only when `SYNC_EN` is 1 (R92). -/
def syncFire (N : Numerics Num) {L : Nat} (lt : Latch Num) (v : Voice Num L) : Option Num :=
  if lt.syncEn then detectSync N v.lastSync lt.cur else none

/-- `lastSync` after a tick that computes (R93). -/
def trackSync {L : Nat} (lt : Latch Num) (v : Voice Num L) : Voice Num L :=
  if lt.syncEn then { v with lastSync := lt.cur } else v

/-- The phase `np` of a sub-oscillator reset at crossing `c` (R94). -/
def syncPhase (N : Numerics Num) (c dp : Num) : Num := N.mul (N.sub N.one c) dp

/-- The phase a tick commits: `np` after a sync event, else `adv` (R94). -/
def committedPhase (N : Numerics Num) (fire : Option Num) (dp adv : Num) : Num :=
  match fire with
  | some c => syncPhase N c dp
  | none => adv

/-- The sync correction of one enabled waveform with raw function `raw` (R95): new value minus old. -/
def insertSync (cfg : Cfg Num) {L : Nat} (raw : Num → Num) (fire : Option Num) (dp adv : Num)
    (b : Corrector Num L) : Corrector Num L :=
  match fire with
  | some c => insertDiscontinuity cfg b (cfg.num.sub c cfg.num.one)
      (cfg.num.sub (raw (syncPhase cfg.num c dp)) (raw adv))
  | none => b

end Sys2Proof.Machine
end

