-- ==== Sys2Proof/Machine/Mixer.lean ====
section
/-! DEFINITION. The mixer and the DC blocker (45_mixer_dcblock.md R122 to R126). -/

namespace Sys2Proof.Machine

variable {Num : Type} (N : Numerics Num) {L : Nat}

/-- The corrector work and the accumulation of one sub-oscillator for an enabled waveform: `process`, then
`acc + (raw + correction)` (R122). `b` already holds this tick's insertions. -/
def mixSub (raw : Num) (b : Corrector Num L) (acc : Num) : Num × Corrector Num L :=
  let r := processBlep N b
  (N.add acc (N.add raw r.1), r.2)

/-- Normalisation (R123), the DC blocker (R124) and the output write (R125) of an enabled waveform. -/
def finishPath (d : Density) (adc acc : Num) (p : WavePath Num L) : WavePath Num L :=
  let m := N.div acc (N.ofInt (densityCount d))
  let dc := onePole N p.dc adc m
  { p with dc := dc, out := highPass N m dc }

/-- A disabled waveform's output register is written 0.0 and nothing else changes (R126). -/
def silencePath (p : WavePath Num L) : WavePath Num L := { p with out := N.zero }

end Sys2Proof.Machine
end

