-- ==== Sys2Proof/Machine/Tick.lean ====
section
/-! DEFINITION. The tick of one voice (46_tick.md R131 to R136), composed of the unit definitions in the
order of R134. -/

namespace Sys2Proof.Machine

variable {Num : Type} {L : Nat}

/-- What the loop over the active sub-oscillators carries: the voice and the two accumulators. -/
structure Mix (Num : Type) (L : Nat) where
  voice : Voice Num L
  accSin : Num
  accSaw : Num
deriving DecidableEq, Repr

/-- The path of one waveform for sub-oscillator `i`, when its enable bit is set: the insertions already
made in `b`, `process`, accumulate (R134); a disabled waveform is left alone (R126). -/
def mixPath (N : Numerics Num) (en : Bool) (raw : Num) (b : Corrector Num L → Corrector Num L) (i : SubIdx)
    (p : WavePath Num L) (acc : Num) : Num × WavePath Num L :=
  if en then
    let r := mixSub N raw (b (p.blep.get i)) acc
    (r.1, { p with blep := p.blep.set i r.2 })
  else (acc, p)

/-- One pass of R134's loop: chaos, pitch, increment, advance, saw wrap, sync, commit, raw values,
`process`, accumulate (R135). -/
def tickSub (cfg : Cfg Num) (lt : Latch Num) (fire : Option Num) (an : Num) (x : Mix Num L) (i : SubIdx) :
    Mix Num L :=
  let ch := chaosStep cfg lt an x.voice i
  let v := ch.2
  let dp := phaseIncrement cfg lt (effectivePitch cfg lt i ch.1)
  let prev := v.phase.get i
  let adv := advancePhase cfg.num prev dp
  let new := committedPhase cfg.num fire dp adv
  let sin := mixPath cfg.num lt.sinEn (rawWave cfg .sin new)
    (fun b => insertSync cfg (rawWave cfg .sin) fire dp adv b) i v.sin x.accSin
  let saw := mixPath cfg.num lt.sawEn (rawWave cfg .saw new)
    (fun b => insertSync cfg (rawWave cfg .saw) fire dp adv (insertSawWrap cfg prev dp b)) i v.saw x.accSaw
  { voice := { v with phase := v.phase.set i new, sin := sin.2, saw := saw.2 }
    accSin := sin.1
    accSaw := saw.1 }

/-- The full sequence of R134, for a tick with at least one waveform enabled. -/
def computeTick (cfg : Cfg Num) (lt : Latch Num) (v : Voice Num L) : Voice Num L :=
  let N := cfg.num
  let fire := syncFire N lt v
  let an := coef cfg lt.bw lt.dt
  let x := (activeSubs lt.density).foldl (tickSub cfg lt fire an) ⟨trackSync lt v, N.zero, N.zero⟩
  let adc := coef cfg cfg.dcCutoffHz lt.dt
  { x.voice with
    sin := if lt.sinEn then finishPath N lt.density adc x.accSin x.voice.sin else silencePath N x.voice.sin
    saw := if lt.sawEn then finishPath N lt.density adc x.accSaw x.voice.saw else silencePath N x.voice.saw }

/-- The early exit (R133): both outputs 0.0, nothing else. -/
def silenceVoice (N : Numerics Num) (v : Voice Num L) : Voice Num L :=
  { v with sin := silencePath N v.sin, saw := silencePath N v.saw }

/-- One tick of a voice under tuning mode `m` (R131): latch, then the early exit or the full sequence. -/
def tickVoice (cfg : Cfg Num) (m : TuneMode) (v : Voice Num L) : Voice Num L :=
  let lt := latchInputs cfg v.params m
  if !lt.sinEn && !lt.sawEn then silenceVoice cfg.num v else computeTick cfg lt v

end Sys2Proof.Machine
end

