-- ==== Sys2Proof/Machine/Ops.lean ====
section
/-! DEFINITION. The shared operations on State: register access (20_memory.md R52), voice update, responses
(40_commands.md R80), the reset procedure (70_reset_and_hazards.md R152, R153). There is no exception
entry and no return to define: none exists (60_exceptions.md R143, R147, R148). -/

namespace Sys2Proof.Machine

/-- Voice `V[v]`. -/
def State.voice (s : State) (v : VoiceIdx) : Voice F32 cfg.blepLen := s.voices.get v

/-- The state with voice `v` replaced. -/
def State.setVoice (s : State) (v : VoiceIdx) (x : Voice F32 cfg.blepLen) : State :=
  { s with voices := s.voices.set v x }

/-- The state with a successful response on the port (40_commands.md R80). -/
def State.respond (s : State) (data : Word) : State := { s with rsp := some ⟨data, false⟩ }

/-- `RegRead(v, r)` (20_memory.md R52). -/
def regRead (s : State) (v : VoiceIdx) (r : ParamReg) : Word := (s.voice v).params.read r

/-- `RegWrite(v, r, b)` (20_memory.md R52). -/
def regWrite (s : State) (v : VoiceIdx) (r : ParamReg) (b : Word) : State :=
  s.setVoice v { s.voice v with params := (s.voice v).params.write r b }

/-- The output register of voice `v` for waveform `w` (10_state.md R24). -/
def outRead (s : State) (v : VoiceIdx) (w : Wave) : F32 := ((s.voice v).path w).out

/-- `ResetAll(seed)` (70_reset_and_hazards.md R152): every piece of the spec's state. -/
def resetAll (seed : Word) (s : State) : State :=
  { s with voices := resetVoices cfg seed, tuneMode := .fourths }

/-- One cycle of hardware reset (70_reset_and_hazards.md R153 (a)): `ResetAll(RESET_SEED)`, no response. -/
def hardReset (s : State) : State := { resetAll cfg.resetSeed s with rsp := none }

/-- Between commands the block holds all state (60_exceptions.md R128); a response is on the port for one
cycle only (30_encoding.md R62; log 8). -/
def idle (s : State) : State := { s with rsp := none }

/-- The hardware's answer to a reserved word (30_encoding.md R68): data 0, error 1. -/
def reservedAnswer : Response := ⟨0, true⟩

/-- Where the hardware goes on after a reserved word: no state change, the answer on the port
(30_encoding.md R68, 60_exceptions.md R151). `step` does not go there: it refuses (log 6). -/
def afterReserved (s : State) : State := { s with rsp := some reservedAnswer }

end Sys2Proof.Machine
end

