-- ==== Sys2Proof/Machine/Commands.lean ====
section
/-! DEFINITION. The meanings of the eight commands (40_commands.md R72 to R78; 46_tick.md R131). Each always
has a next state: "A model's step function for a decoded command is total" (60_exceptions.md R143). -/

namespace Sys2Proof.Machine

/-- NOP (R72): nothing but the response (0, 0). -/
def execNop (s : State) : Host.Outcome State Fault Refusal := .next (s.respond 0)

/-- INIT seed32 (R74): `ResetAll(seed)`. -/
def execInit (seed : Word) (s : State) : Host.Outcome State Fault Refusal :=
  .next ((resetAll seed s).respond 0)

/-- SETTUNE mode32 (R73). -/
def execSettune (mode : Word) (s : State) : Host.Outcome State Fault Refusal :=
  .next ({ s with tuneMode := tuneModeOf mode }.respond 0)

/-- WRP v, r, data32 (R75). -/
def execWrp (v : VoiceIdx) (r : ParamReg) (data : Word) (s : State) : Host.Outcome State Fault Refusal :=
  .next ((regWrite s v r data).respond 0)

/-- RDP v, r (R76): the bits last written, no legalisation. -/
def execRdp (v : VoiceIdx) (r : ParamReg) (s : State) : Host.Outcome State Fault Refusal :=
  .next (s.respond (regRead s v r))

/-- RDO v, w (R77). -/
def execRdo (v : VoiceIdx) (w : Wave) (s : State) : Host.Outcome State Fault Refusal :=
  .next (s.respond (cfg.num.bitsOfNum (outRead s v w)))

/-- RDT (R78). -/
def execRdt (s : State) : Host.Outcome State Fault Refusal :=
  .next (s.respond (tuneModeBits s.tuneMode))

/-- TICK v (46_tick.md R131): one sample of voice `v` under the current tuning mode. -/
def execTick (v : VoiceIdx) (s : State) : Host.Outcome State Fault Refusal :=
  .next ((s.setVoice v (tickVoice cfg s.tuneMode (s.voice v))).respond 0)

end Sys2Proof.Machine
end

