-- ==== Sys2Proof/Machine/Dispatch.lean ====
section
/-! DEFINITION. One arm per command. -/

namespace Sys2Proof.Machine

def exec (i : Instr) (s : State) : Host.Outcome State Fault Refusal :=
  match i with
  | .nop => Sys2Proof.Machine.execNop s
  | .init seed => Sys2Proof.Machine.execInit seed s
  | .settune mode => Sys2Proof.Machine.execSettune mode s
  | .wrp v r data => Sys2Proof.Machine.execWrp v r data s
  | .rdp v r => Sys2Proof.Machine.execRdp v r s
  | .rdo v w => Sys2Proof.Machine.execRdo v w s
  | .rdt => Sys2Proof.Machine.execRdt s
  | .tick v => Sys2Proof.Machine.execTick v s

end Sys2Proof.Machine
end

