-- ==== Sys2Proof/Machine/Step.lean ====
section
/-! DEFINITION. One step of the block: it takes the host's oldest event (30_encoding.md R62; log 4). -/

namespace Sys2Proof.Machine

/-- A command word taken from the port: decoded and executed, or refused when it spells no command
(30_encoding.md R67, R68). -/
def runWord (w : CmdWord) (s : State) : Host.Outcome State Fault Refusal :=
  match decode w with
  | some i => exec i s
  | none => .refused (.reservedWord w reservedAnswer)

/-- One step: a cycle of `rst`, one whole command (20_memory.md R56), or idling when nothing waits. -/
def step (s : State) : Host.Outcome State Fault Refusal :=
  match s.inputs with
  | [] => .next (idle s)
  | .rst :: rest => .next (hardReset { s with inputs := rest })
  | .word w :: rest => runWord w { s with inputs := rest }

/-- The state in which the host presents that word next (log 5). -/
def State.withFetchWord (s : State) (nbits w : Nat) : State :=
  { s with inputs := .word (tableWord nbits w) :: s.inputs }

end Sys2Proof.Machine
end

