-- ==== Sys2Proof/Machine/Assembler.lean ====
section
/-! DEFINITION. The written form of commands, both ways (30_encoding.md R70), and the pseudo-commands with
their expansions (R71). They are notation for the host (92_eei_decisions.md D37): no step reads them. -/

namespace Sys2Proof.Machine

/-- A pseudo-command (R71). WRF's real is the fraction `num / den` (log 12). -/
inductive Pseudo where
  | wrf (v : VoiceIdx) (r : ParamReg) (num : Int) (den : Nat)
  | ena (v : VoiceIdx) (sin saw sync : Bool)
  | frame (k : Nat)
deriving DecidableEq, Repr

/-- The six registers read with `numOfBits` (10_state.md R21), the only ones WRF may name (R71). -/
def isRealReg : ParamReg → Bool
  | .pitch => true
  | .spread => true
  | .chaos => true
  | .chaosBw => true
  | .density => false
  | .enables => false
  | .syncIn => true
  | .dt => true

/-- The mask of ENA (R71): 1 for SIN plus 2 for SAW plus 4 for SYNC. -/
def enaMask (sin saw sync : Bool) : Word :=
  (if sin then 1 else 0) + (if saw then 2 else 0) + (if sync then 4 else 0)

/-- When a pseudo-command is legal (R71): a real register and a real for WRF, `k` 1 to 16 for FRAME. -/
def Pseudo.wellFormed : Pseudo → Bool
  | .wrf _ r _ den => isRealReg r && decide (0 < den)
  | .ena _ _ _ _ => true
  | .frame k => decide (1 ≤ k) && decide (k ≤ 16)

/-- The expansion of a legal pseudo-command (R71). -/
def Pseudo.expand : Pseudo → List Instr
  | .wrf v r num den => [.wrp v r (bitsOfNum (F32.ofFraction num den))]
  | .ena v sin saw sync => [.wrp v .enables (enaMask sin saw sync)]
  | .frame k => ((List.finRange 16).take k).map .tick

/-- A register's name (10_state.md R21). -/
def paramRegName : ParamReg → String
  | .pitch => "PITCH"
  | .spread => "SPREAD"
  | .chaos => "CHAOS"
  | .chaosBw => "CHAOSBW"
  | .density => "DENSITY"
  | .enables => "ENABLES"
  | .syncIn => "SYNCIN"
  | .dt => "DT"

/-- An output's name (R70). -/
def waveName : Wave → String
  | .sin => "SIN"
  | .saw => "SAW"

/-- `v<n>` (R70). -/
def voiceName (v : VoiceIdx) : String := "v" ++ toString v.val

/-- A hexadecimal digit, in capitals. -/
def hexDigit (n : Nat) : String :=
  ["0", "1", "2", "3", "4", "5", "6", "7", "8", "9", "A", "B", "C", "D", "E", "F"].getD n ""

/-- The lowest `k` hexadecimal digits of `n`, most significant first. -/
def hexDigits : Nat → Nat → String
  | 0, _ => ""
  | k + 1, n => hexDigits k (n / 16) ++ hexDigit (n % 16)

/-- A 32-bit operand: `0x` and eight hexadecimal digits (R70). -/
def hexWord (w : Word) : String := "0x" ++ hexDigits 8 w.toNat

/-- A command in assembler syntax (R70). -/
def asmText : Instr → String
  | .nop => "NOP"
  | .init seed => "INIT " ++ hexWord seed
  | .settune mode => "SETTUNE " ++ hexWord mode
  | .wrp v r data => "WRP " ++ voiceName v ++ ", " ++ paramRegName r ++ ", " ++ hexWord data
  | .rdp v r => "RDP " ++ voiceName v ++ ", " ++ paramRegName r
  | .rdo v w => "RDO " ++ voiceName v ++ ", " ++ waveName w
  | .rdt => "RDT"
  | .tick v => "TICK " ++ voiceName v

/-! ## Reading a line (R70, R71): on characters, so that Lean's kernel can evaluate it. Spellings the rules
leave open are the model's choice (log 12). -/

/-- The characters before the comment sign. -/
def dropComment : List Char → List Char
  | [] => []
  | c :: cs => if c = ';' then [] else c :: dropComment cs

/-- A separator between words: a space or a tab (log 12). -/
def isBlank (c : Char) : Bool := c == ' ' || c == '\t'

/-- A field without the blanks around it. -/
def trimBlanks (cs : List Char) : List Char :=
  ((cs.dropWhile isBlank).reverse.dropWhile isBlank).reverse

/-- The fields between the occurrences of a separator, at least one. -/
def splitAtChar (sep : Char) : List Char → List (List Char)
  | [] => [[]]
  | c :: cs =>
    let rest := splitAtChar sep cs
    if c = sep then [] :: rest else (c :: rest.headD []) :: rest.tail

/-- The value of a digit in the given base, 10 or 16; both cases of a hexadecimal digit (log 12). -/
def digitValue (base : Nat) (c : Char) : Option Nat :=
  let n := if '0' ≤ c ∧ c ≤ '9' then c.toNat - '0'.toNat
    else if 'A' ≤ c ∧ c ≤ 'F' then c.toNat - 'A'.toNat + 10
    else if 'a' ≤ c ∧ c ≤ 'f' then c.toNat - 'a'.toNat + 10
    else base
  if n < base then some n else none

/-- The number that digits spell after the ones read so far. -/
def digitsFrom (base : Nat) : Nat → List Char → Option Nat
  | acc, [] => some acc
  | acc, c :: cs => (digitValue base c).bind fun d => digitsFrom base (acc * base + d) cs

/-- An unsigned number of at least one digit, leading zeros allowed (log 12). -/
def readDigits (base : Nat) (cs : List Char) : Option Nat :=
  if cs.isEmpty then none else digitsFrom base 0 cs

/-- A 32-bit operand: `0x` and eight hexadecimal digits, or an unsigned decimal integer (R70). -/
def readWord (cs : List Char) : Option Word :=
  match cs with
  | '0' :: 'x' :: hex => if hex.length = 8 then (readDigits 16 hex).map (BitVec.ofNat 32) else none
  | _ => (readDigits 10 cs).bind fun n => if n < 2 ^ 32 then some (BitVec.ofNat 32 n) else none

/-- `v<n>`, `n` 0 to 15 (R70); leading zeros as in `readDigits` (log 12). -/
def readVoice (cs : List Char) : Option VoiceIdx :=
  match cs with
  | 'v' :: n => (readDigits 10 n).bind fun n => if h : n < 16 then some ⟨n, h⟩ else none
  | _ => none

/-- An index, decimal or `0x` and hexadecimal digits as 10_state.md R21 writes it (log 12). -/
def readIndex (cs : List Char) : Option Nat :=
  match cs with
  | '0' :: 'x' :: hex => readDigits 16 hex
  | _ => readDigits 10 cs

/-- The eight parameter registers in index order (10_state.md R21). -/
def allParamRegs : List ParamReg := (List.finRange 8).map paramRegOf

/-- A register by its name or by its index (R70). -/
def readReg (cs : List Char) : Option ParamReg :=
  match allParamRegs.find? fun r => (paramRegName r).toList == cs with
  | some r => some r
  | none => (readIndex cs).bind fun n => if h : n < 8 then some (paramRegOf ⟨n, h⟩) else none

/-- An output by its name (R70). -/
def readWave (cs : List Char) : Option Wave :=
  [Wave.sin, Wave.saw].find? fun w => (waveName w).toList == cs

/-- A real without a sign: a decimal, or a fraction `a/b` (R71), as numerator and denominator. A decimal has
digits and may have a point with digits before it; nothing else is read (log 12). -/
def readUnsignedReal (cs : List Char) : Option (Nat × Nat) :=
  match splitAtChar '/' cs with
  | [a, b] => (readDigits 10 a).bind fun n => (readDigits 10 b).map fun d => (n, d)
  | _ =>
    match splitAtChar '.' cs with
    | [a] => (readDigits 10 a).map fun n => (n, 1)
    | [a, f] => (readDigits 10 a).bind fun _ => (readDigits 10 (a ++ f)).map fun n => (n, 10 ^ f.length)
    | _ => none

/-- A real (R71), with at most a leading `-` (log 12). -/
def readReal (cs : List Char) : Option (Int × Nat) :=
  match cs with
  | '-' :: rest => (readUnsignedReal rest).map fun x => (-(x.1 : Int), x.2)
  | _ => (readUnsignedReal cs).map fun x => ((x.1 : Int), x.2)

/-- ENA's list (R71 (b)): each name at most once, in any order (log 12). -/
def readEnables (fs : List (List Char)) : Option (Bool × Bool × Bool) :=
  let names := ["SIN".toList, "SAW".toList, "SYNC".toList]
  if fs.all (fun f => names.contains f) && decide fs.Nodup then
    some (fs.contains "SIN".toList, fs.contains "SAW".toList, fs.contains "SYNC".toList)
  else none

/-- The commands of a pseudo-command, if it is legal (R71). -/
def expandLegal (p : Pseudo) : Option (List Instr) := if p.wellFormed then some p.expand else none

/-- A command or a pseudo-command from its mnemonic and its fields (R70, R71). -/
def readCommand (mnemonic : List Char) (fs : List (List Char)) : Option (List Instr) :=
  let is (m : String) : Bool := mnemonic == m.toList
  match fs with
  | [] => if is "NOP" then some [.nop] else if is "RDT" then some [.rdt] else none
  | [a] =>
    if is "INIT" then (readWord a).map fun w => [.init w]
    else if is "SETTUNE" then (readWord a).map fun w => [.settune w]
    else if is "TICK" then (readVoice a).map fun v => [.tick v]
    else if is "FRAME" then (readDigits 10 a).bind fun k => expandLegal (.frame k)
    else if is "ENA" then (readVoice a).bind fun v => expandLegal (.ena v false false false)
    else none
  | a :: b :: rest =>
    if is "ENA" then (readVoice a).bind fun v =>
      (readEnables (if rest.isEmpty && b.isEmpty then [] else b :: rest)).bind fun e =>
        expandLegal (.ena v e.1 e.2.1 e.2.2)
    else match rest with
      | [] =>
        if is "RDP" then (readVoice a).bind fun v => (readReg b).map fun r => [.rdp v r]
        else if is "RDO" then (readVoice a).bind fun v => (readWave b).map fun w => [.rdo v w]
        else none
      | [c] => (readVoice a).bind fun v => (readReg b).bind fun r =>
        if is "WRP" then (readWord c).map fun w => [.wrp v r w]
        else if is "WRF" then (readReal c).bind fun x => expandLegal (.wrf v r x.1 x.2)
        else none
      | _ => none

/-- The commands of a line of assembler text: none at all for a blank or a comment line, and `none` for a
line that is not of R70's or R71's form (log 12). -/
def readLine (line : List Char) : Option (List Instr) :=
  let cs := trimBlanks (dropComment line)
  if cs.isEmpty then some []
  else
    let mnemonic := cs.takeWhile fun c => !isBlank c
    let operands := trimBlanks (cs.dropWhile fun c => !isBlank c)
    readCommand mnemonic (if operands.isEmpty then [] else (splitAtChar ',' operands).map trimBlanks)

end Sys2Proof.Machine
end

