-- ==== Sys2Proof/Safety.lean ====
section
/-! DEFINITION. What counts as a good state and a safe run: the invariants of 10_state.md R35 and
46_tick.md R139 in a form every step keeps, and runs that never stop (60_exceptions.md R143). -/

namespace Sys2Proof

/-- Finite and of magnitude at most `b`. -/
def F32.within (b : Nat) (x : F32) : Prop := x.isFinite = true ∧ x.units.natAbs ≤ b * 2 ^ 149

end Sys2Proof

namespace Sys2Proof.Machine

/-- A bound on what a tick adds to one ring slot, generous and a power of two. A sine corrector gets at most
one insertion a tick, a saw corrector at most two (44_minblep.md R117); a saw amplitude is at most 2 in
magnitude, a sine amplitude at most 8, a residual at most 7. -/
def slotGain : Nat := 64

/-- A waveform path's invariant (10_state.md R35 (c)). It is stronger than "finite", because finiteness
alone is not kept by an addition: a slot `j` ticks ahead of the cursor has been open to insertions in
`L - 1 - j` ticks (44_minblep.md R119), and the DC state stays within a power of two that bounds the mixed
signal. -/
structure PathInv {L : Nat} (p : WavePath F32 L) : Prop where
  out_finite : p.out.isFinite = true
  dc_within : p.dc.within 2048
  ring_within : ∀ (i : SubIdx) (j : Nat), j < L →
    ((p.blep.get i).buf.get (ringSlot (p.blep.get i).pos j)).within (slotGain * (L - 1 - j))

/-- A voice's invariant (10_state.md R35 (a), (c), (e); (b) holds by the type of the cursor). -/
structure VoiceInv {L : Nat} (v : Voice F32 L) : Prop where
  phase_unit : ∀ i, binary32.inUnit (v.phase.get i)
  nf_within : ∀ i, (v.nf.get i).within 1
  prng_ne_zero : v.prng ≠ 0
  sin_inv : PathInv v.sin
  saw_inv : PathInv v.saw

/-- The state's invariant: every voice's (R35 (d) holds by the type of TUNEMODE). -/
def State.Inv (s : State) : Prop := ∀ v : VoiceIdx, VoiceInv (s.voice v)

/-- What 10_state.md R35 lists, literally, of one voice. -/
structure VoiceR35 {L : Nat} (v : Voice F32 L) : Prop where
  a_phase : ∀ i, binary32.inUnit (v.phase.get i)
  b_cursor : ∀ i, (v.sin.blep.get i).pos.val < L ∧ (v.saw.blep.get i).pos.val < L
  c_ring : ∀ i k, ((v.sin.blep.get i).buf.get k).isFinite = true ∧ ((v.saw.blep.get i).buf.get k).isFinite = true
  c_nf : ∀ i, (v.nf.get i).isFinite = true
  c_dc : v.sin.dc.isFinite = true ∧ v.saw.dc.isFinite = true
  c_out : v.sin.out.isFinite = true ∧ v.saw.out.isFinite = true
  e_prng : v.prng ≠ 0

/-- Every command word the host will present spells a command (30_encoding.md R68). -/
def State.inputsWellFormed (s : State) : Prop :=
  ∀ w : CmdWord, HostEvent.word w ∈ s.inputs → wordWellFormed w = true

/-- A step that does not stop. -/
def State.goesOn (s : State) : Prop := ∃ t, step s = .next t

end Sys2Proof.Machine
end

