-- ==== Sys2Proof/Certificates/Slice0/Obligations.lean ====
section
/-! DEFINITION. The statements for the provers, and the reference definitions they compare the model with. -/

namespace Sys2Proof.Reference
open Sys2Proof Sys2Proof.Machine

/-! ## Words -/

/-- The fields the word of a command must have (30_encoding.md R63, R64, R67): its opcode, its operands, and
zero in every field its format does not use. -/
def operandFields : Instr → Fields
  | .nop => ⟨0x00, 0, 0, 0, 0, 0⟩
  | .init seed => ⟨0x01, 0, 0, 0, 0, seed⟩
  | .settune mode => ⟨0x02, 0, 0, 0, 0, mode⟩
  | .wrp v r data => ⟨0x03, 0, BitVec.ofFin v, BitVec.ofNat 8 (paramRegIndex r).val, 0, data⟩
  | .rdp v r => ⟨0x04, 0, BitVec.ofFin v, BitVec.ofNat 8 (paramRegIndex r).val, 0, 0⟩
  | .rdo v w => ⟨0x05, 0, BitVec.ofFin v, BitVec.ofNat 8 (waveIndex w).toNat, 0, 0⟩
  | .rdt => ⟨0x06, 0, 0, 0, 0, 0⟩
  | .tick v => ⟨0x07, 0, BitVec.ofFin v, 0, 0, 0⟩

/-- The data of a command's response (40_commands.md R80): the value read, or 0. -/
def responseData (s : State) : Instr → Word
  | .nop => 0
  | .init _ => 0
  | .settune _ => 0
  | .wrp _ _ _ => 0
  | .rdp v r => regRead s v r
  | .rdo v .sin => bitsOfNum (s.voice v).sin.out
  | .rdo v .saw => bitsOfNum (s.voice v).saw.out
  | .rdt => match s.tuneMode with | .fourths => 0 | .fifths => 1
  | .tick _ => 0

/-- The voice a command names (20_memory.md R57). -/
def namedVoice : Instr → Option VoiceIdx
  | .nop => none
  | .init _ => none
  | .settune _ => none
  | .wrp v _ _ => some v
  | .rdp v _ => some v
  | .rdo v _ => some v
  | .rdt => none
  | .tick v => some v

/-! ## Numbers -/

/-- The value of a number that is not a NaN, the infinities included. -/
def extValue (x : F32) : WithBot (WithTop ℚ) :=
  if x.isInf then (if x.isNeg then ⊥ else ((⊤ : WithTop ℚ) : WithBot (WithTop ℚ)))
  else ((x.value : WithTop ℚ) : WithBot (WithTop ℚ))

/-- `x` is the exact result `q` rounded once, to nearest, ties to even (00_scope.md R8, R9): below the
overflow limit `x` is finite, no finite number is nearer, and of two equally near the even field is taken;
from the limit on `x` is the infinity of `q`'s sign. The limit is IEEE 754's (log 9, PRESUMED). The sign of a
zero `x` is left out. -/
def RoundsTo (x : F32) (q : ℚ) : Prop :=
  if |q| < 2 ^ 128 - 2 ^ 103 then
    x.isFinite = true ∧ ∀ y : F32, y.isFinite = true →
      |x.value - q| ≤ |y.value - q| ∧
        (|x.value - q| = |y.value - q| → y.value ≠ x.value → x.mag % 2 = 0)
  else x = F32.inf (decide (q < 0))

/-! ## A tick, sub-oscillator by sub-oscillator -/

/-- The input latch (46_tick.md R132): what each local value is read from. -/
def latch (p : Params) (m : TuneMode) : Latch F32 where
  pitch := ⟨p.read .pitch⟩
  spread := ⟨p.read .spread⟩
  chaos := ⟨p.read .chaos⟩
  bw := ⟨p.read .chaosBw⟩
  cur := ⟨p.read .syncIn⟩
  dt := ⟨p.read .dt⟩
  sinEn := (p.read .enables).getLsbD 0
  sawEn := (p.read .enables).getLsbD 1
  syncEn := (p.read .enables).getLsbD 2
  density := if p.read .density = 2 then .two else if p.read .density = 4 then .four else .eight
  mode := m

section tick
variable {Num : Type} (c : Cfg Num) {L : Nat} (lt : Latch Num) (v : Voice Num L)

/-- Sub-oscillator `i` runs in this tick (41_phase_bank.md R81). -/
def active (i : SubIdx) : Bool := decide (i.val < densityCount lt.density)

/-- The noise filter after the tick: its own draw is word `i + 1` of the tick (43_chaos_noise_filter.md R102,
R106). -/
def subNf (i : SubIdx) : Num :=
  c.num.add (v.nf.get i) (c.num.mul (coef c lt.bw lt.dt)
    (c.num.sub (c.noise.sample (prngAfter c.noise (i.val + 1) v.prng)) (v.nf.get i)))

/-- The chaos offset (R105, R107). -/
def subOff (i : SubIdx) : Num :=
  if c.num.gt lt.chaos c.num.zero then c.num.mul (subNf c lt v i) lt.chaos else c.num.zero

/-- The effective pitch (41_phase_bank.md R83). -/
def subPitch (i : SubIdx) : Num :=
  c.num.add (c.num.add lt.pitch (c.num.mul (c.tuning lt.mode i) lt.spread)) (subOff c lt v i)

/-- The phase increment (41_phase_bank.md R85). -/
def subDp (i : SubIdx) : Num :=
  c.num.clamp (c.num.mul (c.num.mul c.refFreqHz (c.exp2 (subPitch c lt v i))) lt.dt) c.dpMin c.dpMax

/-- The advanced phase (41_phase_bank.md R86). -/
def subAdv (i : SubIdx) : Num := c.num.frac (c.num.add (v.phase.get i) (subDp c lt v i))

/-- The sync event of the tick (42_hard_sync.md R92). -/
def syncEvent : Option Num := if lt.syncEn then detectSync c.num v.lastSync lt.cur else none

/-- The committed phase (42_hard_sync.md R94). -/
def subPhase (i : SubIdx) : Num :=
  match syncEvent c lt v with
  | some cr => c.num.mul (c.num.sub c.num.one cr) (subDp c lt v i)
  | none => subAdv c lt v i

/-- The raw waveforms (41_phase_bank.md R88, R89). -/
def raw (w : Wave) (p : Num) : Num :=
  match w with
  | .sin => c.sinApprox p
  | .saw => c.num.sub (c.num.mul c.num.two (c.num.frac (c.num.add p c.num.half))) c.num.one

/-- The corrector of waveform `w` with this tick's insertions: the saw wrap first (41_phase_bank.md R87), then
the sync correction (42_hard_sync.md R95, R96). -/
def subRing (w : Wave) (i : SubIdx) : Corrector Num L :=
  let N := c.num
  let b := (v.path w).blep.get i
  let q := N.div (N.sub N.half (v.phase.get i)) (subDp c lt v i)
  let b := if w = .saw ∧ N.gt q N.zero = true ∧ N.le q N.one = true then
    insertDiscontinuity c b (N.sub q N.one) c.sawStep else b
  match syncEvent c lt v with
  | some cr => insertDiscontinuity c b (N.sub cr N.one)
      (N.sub (raw c w (N.mul (N.sub N.one cr) (subDp c lt v i))) (raw c w (subAdv c lt v i)))
  | none => b

/-- The corrected sample (45_mixer_dcblock.md R122). -/
def subSample (w : Wave) (i : SubIdx) : Num :=
  let b := subRing c lt v w i
  c.num.add (raw c w (subPhase c lt v i)) (b.buf.get b.pos)

/-- The corrector after `process` (44_minblep.md R116). -/
def subRingAfter (w : Wave) (i : SubIdx) : Corrector Num L :=
  let b := subRing c lt v w i
  { buf := b.buf.set b.pos c.num.zero, pos := ringSlot b.pos 1 }

/-- The mixed sample (45_mixer_dcblock.md R122, R123): a left fold over the active indices, over `d`. -/
def mixed (w : Wave) : Num :=
  c.num.div (((List.finRange 8).filter (active lt)).foldl
    (fun acc i => c.num.add acc (subSample c lt v w i)) c.num.zero) (c.num.ofInt (densityCount lt.density))

/-- One waveform's path after the tick (45_mixer_dcblock.md R124 to R126). -/
def pathAfter (w : Wave) (en : Bool) : WavePath Num L :=
  let N := c.num
  let p := v.path w
  if en then
    let m := mixed c lt v w
    let a := coef c c.dcCutoffHz lt.dt
    let dc := N.add p.dc (N.mul a (N.sub m p.dc))
    { out := N.sub m dc
      dc := dc
      blep := Vector.ofFn fun i => if active lt i then subRingAfter c lt v w i else p.blep.get i }
  else { p with out := N.zero }

/-- The voice after a tick that computes, every active sub-oscillator on its own (46_tick.md R134, R135,
R141). -/
def voiceAfter : Voice Num L where
  params := v.params
  phase := Vector.ofFn fun i => if active lt i then subPhase c lt v i else v.phase.get i
  lastSync := if lt.syncEn then lt.cur else v.lastSync
  nf := Vector.ofFn fun i =>
    if active lt i ∧ c.num.gt lt.chaos c.num.zero = true then subNf c lt v i else v.nf.get i
  prng := if c.num.gt lt.chaos c.num.zero then prngAfter c.noise (densityCount lt.density) v.prng else v.prng
  sin := pathAfter c lt v .sin lt.sinEn
  saw := pathAfter c lt v .saw lt.sawEn

end tick

/-- Two states agree on everything a command can read (10_state.md R39): parameters, outputs, TUNEMODE. -/
def hostVisibleEq (s t : State) : Prop :=
  s.tuneMode = t.tuneMode ∧
    ∀ v, (s.voice v).params = (t.voice v).params ∧ ∀ w, outRead s v w = outRead t v w

end Sys2Proof.Reference

section
open Sys2Proof Sys2Proof.Machine Sys2Proof.Reference

/-! ## Encoding (30_encoding.md) -/

/-- R67: decoding is the row that fits, with the operands of the word, or refusal; the word of a command
has exactly its fields; the two are inverse, for every command and every operand value. -/
def Obligations.DecodeAndEncodeAreInverse : Prop :=
  (∀ w r, r ∈ opRows → r.fits w = true → decode w = some (commandOf r.mnemonic w)) ∧
  (∀ w, (∀ r ∈ opRows, r.fits w = false) → decode w = none) ∧
  (∀ i, Fields.ofWord (encode i) = operandFields i) ∧
  (∀ i, decode (encode i) = some i) ∧
  (∀ w i, decode w = some i → encode i = w)

/-- R66: the rows are pairwise disjoint. -/
def Obligations.OpcodeRowsAreDisjoint : Prop :=
  ∀ (w : CmdWord) (r r' : OpRow), r ∈ opRows → r' ∈ opRows → r.fits w = true → r'.fits w = true → r = r'

/-- R68: the reserved words are exactly those with a reserved opcode, a non-zero `z1` or `z2`, a non-zero
unused field or a register index out of range; taken from the port, such a word is refused, with the
hardware's answer (0, 1), and every other word has a next state; the hardware changes no state. -/
def Obligations.ReservedWordsAreRefused : Prop :=
  (∀ w : CmdWord, decode w = none ↔ wordWellFormed w = false) ∧
  (∀ (s : State) w rest, s.inputs = .word w :: rest → wordWellFormed w = false →
    step s = .refused (.reservedWord w ⟨0, true⟩)) ∧
  (∀ (s : State) w rest, s.inputs = .word w :: rest → wordWellFormed w = true → ∃ t, step s = .next t) ∧
  (∀ s : State, afterReserved s = { s with rsp := some ⟨0, true⟩ })

/-- Words written out in 95_test_vectors.md section 2.9 decode to the commands they stand for, and its
reserved words to none. -/
def Obligations.WrittenOutWordsDecode : Prop :=
  decode 0x0000000000000000 = some .nop ∧
  decode 0x0100000012345678 = some (.init 0x12345678) ∧
  decode 0x0200000000000001 = some (.settune 1) ∧
  decode 0x030F070037BE37C6 = some (.wrp 15 .dt 0x37BE37C6) ∧
  decode 0x0403000000000000 = some (.rdp 3 .pitch) ∧
  decode 0x0509010000000000 = some (.rdo 9 .saw) ∧
  decode 0x0600000000000000 = some .rdt ∧
  decode 0x0701000000000000 = some (.tick 1) ∧
  decode 0x0310000040800000 = none ∧
  decode 0x0500020000000000 = none ∧
  decode 0x0700010000000000 = none

/-- R71: which pseudo-commands are legal (a register read with `numOfBits` and a non-zero denominator for WRF,
1 to 16 for FRAME), what the legal ones expand to, and that the others expand to nothing. The fraction form
of WRF's real and the sign of a pattern of zero are the model's choice (logs 12 and 9). -/
def Obligations.PseudoCommandsExpand : Prop :=
  (∀ v r n d, (Pseudo.wrf v r n d).wellFormed = true ↔
    r ∈ [ParamReg.pitch, .spread, .chaos, .chaosBw, .syncIn, .dt] ∧ 0 < d) ∧
  (∀ v a b e, (Pseudo.ena v a b e).wellFormed = true) ∧
  (∀ k, (Pseudo.frame k).wellFormed = true ↔ 1 ≤ k ∧ k ≤ 16) ∧
  (∀ v r n d, (Pseudo.wrf v r n d).wellFormed = true →
    ∃ x : F32, RoundsTo x ((n : ℚ) / d) ∧ x.isNeg = decide (n < 0) ∧
      expandLegal (.wrf v r n d) = some [.wrp v r x.bits]) ∧
  (∀ v a b e, expandLegal (.ena v a b e) =
    some [.wrp v .enables ((if a then 1 else 0) + (if b then 2 else 0) + (if e then 4 else 0))]) ∧
  (∀ k, (Pseudo.frame k).wellFormed = true →
    expandLegal (.frame k) = some (((List.finRange 16).filter fun v => decide (v.val < k)).map .tick)) ∧
  (∀ p : Pseudo, p.wellFormed = false → expandLegal p = none)

/-! ## Steps and responses (20_memory.md R56, 40_commands.md R80) -/

/-- A step runs the decoded command: with a word of the host's next, `step` is `exec` of what it decodes to,
on the state without that word. -/
def Obligations.StepRunsTheDecodedCommand : Prop :=
  ∀ (s : State) w rest i, s.inputs = .word w :: rest → decode w = some i →
    step s = exec i { s with inputs := rest }

/-- R153 (a): a cycle of `rst` leaves the reset state and no response, whatever the state was; and hardware
reset and `INIT 0` leave the same voices and mode. -/
def Obligations.HardwareResetRestoresResetState : Prop :=
  (∀ (s : State) rest, s.inputs = .rst :: rest →
    step s = .next { State.reset with inputs := rest }) ∧
  (∀ s : State, ∃ t, exec (.init 0) s = .next t ∧
    t = { State.reset with inputs := s.inputs, rsp := some ⟨0, false⟩ })

/-- The model's choice of log 8: with no event waiting a step changes nothing but the port, which is then
empty. -/
def Obligations.IdleStepHoldsTheState : Prop :=
  ∀ s : State, s.inputs = [] → step s = .next { s with rsp := none }

/-- R80 and R143: every command has a next state and gives exactly one response, data and error as the rule
says; the host's later events are untouched; a reserved word gets (0, 1) and the model refuses. -/
def Obligations.EveryCommandRespondsOnce : Prop :=
  (∀ (i : Instr) (s : State), ∃ t, exec i s = .next t ∧
    t.rsp = some ⟨responseData s i, false⟩ ∧ t.inputs = s.inputs) ∧
  (∀ (s : State) w rest, s.inputs = .word w :: rest → decode w = none →
    step s = .refused (.reservedWord w ⟨0, true⟩))

/-- A run on well-formed words never stops: the step goes on, and the words left are still well formed. -/
def Obligations.WellFormedInputNeverStops : Prop :=
  ∀ s : State, s.inputsWellFormed → s.goesOn ∧ ∀ t, step s = .next t → t.inputsWellFormed

/-! ## The commands (40_commands.md) -/

/-- R72: NOP is the all-zero word and no other; it changes nothing and responds (0, 0). -/
def Obligations.NopChangesNothing : Prop :=
  (∀ w : CmdWord, decode w = some .nop ↔ w = 0) ∧
  ∀ s : State, exec .nop s = .next { s with rsp := some ⟨0, false⟩ }

/-- R73: SETTUNE selects mode 1 for the operand 1 and mode 0 for every other; it changes nothing else. -/
def Obligations.SettuneSelectsTheTable : Prop :=
  (∀ mode : Word, decode (assemble 0x02 0 0 mode) = some (.settune mode)) ∧
  ∀ (mode : Word) (s : State), exec (.settune mode) s =
    .next { s with tuneMode := if mode = 1 then .fifths else .fourths, rsp := some ⟨0, false⟩ }

/-- R74 with R152: INIT writes every piece of state, from the seed alone. -/
def Obligations.InitResetsEverything : Prop :=
  ∀ (seed : Word) (s : State), ∃ t, exec (.init seed) s = .next t ∧
    t.tuneMode = .fourths ∧ t.inputs = s.inputs ∧ t.rsp = some ⟨0, false⟩ ∧
    ∀ v : VoiceIdx, ∃ st : Word,
      st = (if seed ^^^ (0x9E3779B9 * BitVec.ofNat 32 (v.val + 1)) = 0 then 0xFFFFFFFF
        else seed ^^^ (0x9E3779B9 * BitVec.ofNat 32 (v.val + 1))) ∧
      (∀ r, regRead t v r = 0) ∧
      (∀ w, outRead t v w = F32.zero) ∧
      (t.voice v).lastSync = F32.zero ∧
      (t.voice v).prng = xs32^[8] st ∧
      (∀ i, (t.voice v).phase.get i = unitSample binary32 (xs32^[i.val + 1] st)) ∧
      (∀ i, (t.voice v).nf.get i = F32.zero) ∧
      ∀ w, ((t.voice v).path w).dc = F32.zero ∧
        ∀ i, ((((t.voice v).path w).blep.get i).pos.val = 0 ∧
          ∀ k, (((t.voice v).path w).blep.get i).buf.get k = F32.zero)

/-- R75: WRP stores the word unchanged in the one register it names and touches nothing else. -/
def Obligations.WrpStoresTheWord : Prop :=
  (∀ v r data, decode (assemble 0x03 v (BitVec.ofNat 8 (paramRegIndex r).val) data) = some (.wrp v r data)) ∧
  ∀ (v : VoiceIdx) (r : ParamReg) (data : Word) (s : State), ∃ t, exec (.wrp v r data) s = .next t ∧
    (∀ v' r', regRead t v' r' = if v' = v ∧ r' = r then data else regRead s v' r') ∧
    (∀ v', { t.voice v' with params := (s.voice v').params } = s.voice v') ∧
    t.tuneMode = s.tuneMode ∧ t.inputs = s.inputs ∧ t.rsp = some ⟨0, false⟩

/-- R76: RDP responds with the bits the register holds, exactly those last written, and changes nothing. -/
def Obligations.RdpReadsBack : Prop :=
  (∀ v r, decode (assemble 0x04 v (BitVec.ofNat 8 (paramRegIndex r).val) 0) = some (.rdp v r)) ∧
  (∀ (v : VoiceIdx) (r : ParamReg) (s : State),
    exec (.rdp v r) s = .next { s with rsp := some ⟨regRead s v r, false⟩ }) ∧
  (∀ (v : VoiceIdx) (r : ParamReg) (data : Word) (s t : State), exec (.wrp v r data) s = .next t →
    exec (.rdp v r) t = .next { t with rsp := some ⟨data, false⟩ }) ∧
  (∀ (v : VoiceIdx) (r : ParamReg) (seed : Word) (s t : State), exec (.init seed) s = .next t →
    exec (.rdp v r) t = .next { t with rsp := some ⟨0, false⟩ })

/-- R77 and R14: RDO responds with the output register's bits, one pattern for a NaN, and changes nothing. -/
def Obligations.RdoReadsTheOutput : Prop :=
  ∀ (v : VoiceIdx) (w : Wave) (s : State), exec (.rdo v w) s =
    .next { s with rsp := some ⟨
      let x := match w with | .sin => (s.voice v).sin.out | .saw => (s.voice v).saw.out
      if x.isNaN then 0x7FC00000 else x.bits, false⟩ }

/-- R78: RDT responds with the legalised mode, 0 or 1, and changes nothing. -/
def Obligations.RdtReadsTheMode : Prop :=
  decode 0x0600000000000000 = some .rdt ∧
  (∀ s : State, exec .rdt s =
    .next { s with rsp := some ⟨match s.tuneMode with | .fourths => 0 | .fifths => 1, false⟩ }) ∧
  (∀ (mode : Word) (s t : State), exec (.settune mode) s = .next t →
    exec .rdt t = .next { t with rsp := some ⟨if mode = 1 then 1 else 0, false⟩ })

/-- R53: reading twice gives the same response and state, and writing a value twice is writing it once. -/
def Obligations.ReadsAndWritesAreIdempotent : Prop :=
  (∀ (i : Instr) (s t : State), ((∃ v r, i = .rdp v r) ∨ (∃ v w, i = .rdo v w) ∨ i = .rdt) →
    exec i s = .next t → t.voices = s.voices ∧ t.tuneMode = s.tuneMode ∧ exec i t = .next t) ∧
  (∀ v r data (s t : State), exec (.wrp v r data) s = .next t → exec (.wrp v r data) t = .next t)

/-! ## Whole-machine rules -/

/-- R57: a command that names a voice leaves every other voice, TUNEMODE and the host's events alone. -/
def Obligations.CommandTouchesOnlyItsVoice : Prop :=
  ∀ (i : Instr) (v : VoiceIdx) (s t : State), namedVoice i = some v → exec i s = .next t →
    (∀ v', v' ≠ v → t.voice v' = s.voice v') ∧ t.tuneMode = s.tuneMode ∧ t.inputs = s.inputs

/-- R57: two commands that name different voices commute: the same final state but for which response came
last, and the same two responses. -/
def Obligations.CommandsOnDifferentVoicesCommute : Prop :=
  ∀ (i j : Instr) (v u : VoiceIdx) (s a ab b ba : State),
    namedVoice i = some v → namedVoice j = some u → v ≠ u →
    exec i s = .next a → exec j a = .next ab → exec j s = .next b → exec i b = .next ba →
    { ab with rsp := none } = { ba with rsp := none } ∧ a.rsp = ba.rsp ∧ ab.rsp = b.rsp

/-- R39: who writes what. Parameters: WRP and INIT only. Outputs and working state: TICK and INIT only.
TUNEMODE: SETTUNE and INIT only. -/
def Obligations.AccessRightsHold : Prop :=
  ∀ (i : Instr) (s t : State), exec i s = .next t →
    ((∀ seed, i ≠ .init seed) → (∀ v r data, i ≠ .wrp v r data) →
      ∀ v, (t.voice v).params = (s.voice v).params) ∧
    ((∀ seed, i ≠ .init seed) → (∀ v, i ≠ .tick v) →
      ∀ v, { t.voice v with params := (s.voice v).params } = s.voice v) ∧
    ((∀ seed, i ≠ .init seed) → (∀ mode, i ≠ .settune mode) → t.tuneMode = s.tuneMode)

/-- R34: working state cannot be read: states that agree on parameters, outputs and TUNEMODE give the same
response to any command. -/
def Obligations.WorkingStateIsInvisible : Prop :=
  ∀ (i : Instr) (s s' t t' : State), hostVisibleEq s s' → exec i s = .next t → exec i s' = .next t' →
    t.rsp = t'.rsp

/-- R22: a tick reads bits 2 to 0 of ENABLES and ignores bits 31 to 3. -/
def Obligations.TickIgnoresUpperEnableBits : Prop :=
  ∀ (Num : Type) (c : Cfg Num) (L : Nat) (m : TuneMode) (v : Voice Num L) (b : Word),
    tickVoice c m { v with params := { v.params with enables := b } } =
      { tickVoice c m { v with params := { v.params with enables := b &&& 7 } } with
        params := { v.params with enables := b } }

/-- R23: the effective density is the stored value if it is 2, 4 or 8 and 8 otherwise, also for the reset
value; the register keeps the raw word; and a tick of voice `v` runs as with that density stored. -/
def Obligations.UnrecognisedDensityIsEight : Prop :=
  (∀ b : Word, densityCount (effectiveDensity cfg b) = if b = 2 then 2 else if b = 4 then 4 else 8) ∧
  densityCount (effectiveDensity cfg 0) = 8 ∧
  (∀ (v : VoiceIdx) (b : Word) (s t : State), exec (.wrp v .density b) s = .next t →
    regRead t v .density = b) ∧
  (∀ (L : Nat) (m : TuneMode) (v : Voice F32 L) (b : Word),
    tickVoice cfg m { v with params := { v.params with density := b } } =
      { tickVoice cfg m { v with params := { v.params with
          density := BitVec.ofNat 32 (densityCount (effectiveDensity cfg b)) } } with
        params := { v.params with density := b } })

/-! ## The tick (46_tick.md) -/

/-- R133: with both waveforms off a tick writes the two outputs 0.0 and nothing else, whatever SYNC_EN is. -/
def Obligations.SilentTickOnlyZeroesOutputs : Prop :=
  ∀ (v : VoiceIdx) (s : State), (regRead s v .enables).getLsbD 0 = false →
    (regRead s v .enables).getLsbD 1 = false →
    exec (.tick v) s = .next { s with
      voices := s.voices.set v { s.voice v with
        sin := { (s.voice v).sin with out := F32.zero }, saw := { (s.voice v).saw with out := F32.zero } }
      rsp := some ⟨0, false⟩ }

/-- R134, R135 and R141: a tick with a waveform enabled is the computation of each active sub-oscillator on
its own from the state before the tick, the `i`-th drawing word `i + 1` of the voice's stream, followed by
the ordered sum, the division, the DC blocker and the output writes; nothing outside the voice changes. The
same holds of the tick in every configuration, over every number type. -/
def Obligations.TickEqualsIndependentSubOscillators : Prop :=
  (∀ (v : VoiceIdx) (s : State),
    ((regRead s v .enables).getLsbD 0 = true ∨ (regRead s v .enables).getLsbD 1 = true) →
    exec (.tick v) s = .next { s with
      voices := s.voices.set v (voiceAfter cfg (latch (s.voice v).params s.tuneMode) (s.voice v))
      rsp := some ⟨0, false⟩ }) ∧
  ∀ (Num : Type) (c : Cfg Num) (L : Nat) (m : TuneMode) (v : Voice Num L),
    v.params.sinEn = true ∨ v.params.sawEn = true →
    tickVoice c m v = voiceAfter c (latchInputs c v.params m) v

/-- R136: what a tick with a waveform enabled leaves unchanged in its voice, for every configuration. -/
def Obligations.ComputingTickFrame : Prop :=
  ∀ (Num : Type) (c : Cfg Num) (L : Nat) (m : TuneMode) (v : Voice Num L),
    v.params.sinEn = true ∨ v.params.sawEn = true →
    let t := tickVoice c m v
    let d := densityCount (effectiveDensity c v.params.density)
    t.params = v.params ∧
    (∀ i : SubIdx, d ≤ i.val → t.phase.get i = v.phase.get i ∧ t.nf.get i = v.nf.get i ∧
      t.sin.blep.get i = v.sin.blep.get i ∧ t.saw.blep.get i = v.saw.blep.get i) ∧
    (v.params.syncEn = false → t.lastSync = v.lastSync) ∧
    (v.params.syncEn = true → t.lastSync = c.num.numOfBits v.params.syncIn) ∧
    (c.num.gt (c.num.numOfBits v.params.chaos) c.num.zero = false → t.prng = v.prng ∧ t.nf = v.nf) ∧
    (c.num.gt (c.num.numOfBits v.params.chaos) c.num.zero = true → t.prng = prngAfter c.noise d v.prng) ∧
    (v.params.sinEn = false → t.sin = { v.sin with out := c.num.zero }) ∧
    (v.params.sawEn = false → t.saw = { v.saw with out := c.num.zero })

/-- R126: switching one waveform on or off changes nothing of the phases, the noise, the sync memory or the
other waveform's path, in a tick in which that other one is enabled. -/
def Obligations.DisabledWaveformDoesNotDisturbTheOther : Prop :=
  ∀ (Num : Type) (c : Cfg Num) (L : Nat) (m : TuneMode) (v : Voice Num L) (b b' : Word),
    b.getLsbD 2 = b'.getLsbD 2 →
    let t := tickVoice c m { v with params := { v.params with enables := b } }
    let t' := tickVoice c m { v with params := { v.params with enables := b' } }
    (b.getLsbD 1 = true → b'.getLsbD 1 = true →
      t.phase = t'.phase ∧ t.nf = t'.nf ∧ t.prng = t'.prng ∧ t.lastSync = t'.lastSync ∧ t.saw = t'.saw) ∧
    (b.getLsbD 0 = true → b'.getLsbD 0 = true →
      t.phase = t'.phase ∧ t.nf = t'.nf ∧ t.prng = t'.prng ∧ t.lastSync = t'.lastSync ∧ t.sin = t'.sin)

/-- R94 and R97 (a): when the detector fires with crossing `cr`, every active phase after the tick is
`(1 - cr) * dp` for its own increment `dp`, in [0, dp], and it does not depend on the phases before. -/
def Obligations.SyncResetsEveryActivePhase : Prop :=
  ∀ (L : Nat) (m : TuneMode) (v : Voice F32 L) (cr : F32),
    v.params.sinEn = true ∨ v.params.sawEn = true → v.params.syncEn = true →
    detectSync binary32 v.lastSync (numOfBits v.params.syncIn) = some cr →
    ∀ i : SubIdx, i.val < densityCount (effectiveDensity cfg v.params.density) →
      let dp := subDp cfg (latch v.params m) v i
      let x := (tickVoice cfg m v).phase.get i
      cfg.dpMin.le dp = true ∧ dp.le cfg.dpMax = true ∧ x = (F32.one.sub cr).mul dp ∧
      F32.zero.le x = true ∧ x.le dp = true ∧
      ∀ ph : Vector F32 8, (tickVoice cfg m { v with phase := ph }).phase.get i = x

/-- R131 and R57: what a tick does to its voice depends on that voice and TUNEMODE alone. -/
def Obligations.TickReadsItsVoiceAndTheMode : Prop :=
  ∀ (v : VoiceIdx) (s s' t t' : State), s.voice v = s'.voice v → s.tuneMode = s'.tuneMode →
    exec (.tick v) s = .next t → exec (.tick v) s' = .next t' → t.voice v = t'.voice v

/-! ## Numbers (00_scope.md) -/

/-- R9: each operator is the exact result rounded once. The overflow limit in `RoundsTo` is IEEE 754's, which
R9 names without listing it (log 9, PRESUMED); the signs of zero results are left out. -/
def Obligations.ArithmeticRoundsOnce : Prop :=
  ∀ a b : F32, a.isFinite = true → b.isFinite = true →
    RoundsTo (a.add b) (a.value + b.value) ∧ RoundsTo (a.sub b) (a.value - b.value) ∧
    RoundsTo (a.mul b) (a.value * b.value) ∧ (b.value ≠ 0 → RoundsTo (a.div b) (a.value / b.value))

/-- R8, R9, R10, R11 and R14: both instances of `Numerics` that R8 names meet what the rules ask of any, and
the rational one rounds nothing and has no non-finite value. -/
def Obligations.BothNumericsAreLawful : Prop :=
  binary32.Lawful ∧ rationals.Lawful ∧
  ∀ q : ℚ, rationals.rnd q = q ∧ rationals.isNaN q = false ∧ rationals.isFinite q = true

/-- R9: the special cases the rule names. -/
def Obligations.SpecialCasesOfArithmetic : Prop :=
  (∀ a z : F32, a.isFinite = true → a.isZero = false → z.isZero = true →
    a.div z = F32.inf (a.isNeg != z.isNeg)) ∧
  (∀ y z : F32, y.isZero = true → z.isZero = true → (y.div z).isNaN = true) ∧
  (∀ s : Bool, ((F32.inf s).sub (F32.inf s)).isNaN = true) ∧
  (∀ (s : Bool) (z : F32), z.isZero = true → (z.mul (F32.inf s)).isNaN = true) ∧
  (∀ a b : F32, a.isNaN = true ∨ b.isNaN = true → (a.add b).isNaN = true ∧ (a.sub b).isNaN = true ∧
    (a.mul b).isNaN = true ∧ (a.div b).isNaN = true) ∧
  (∀ a : F32, a.neg.mag = a.mag ∧ a.neg.isNeg = !a.isNeg)

/-- R10: the comparisons are the real ones, on finite numbers and the infinities; each is false when a side is
a NaN; -0 equals +0. (`a != b` is written `!a.eq b`.) -/
def Obligations.ComparisonsAreRealAndFalseOnNaN : Prop :=
  (∀ a b : F32, a.isNaN = true ∨ b.isNaN = true → a.lt b = false ∧ a.le b = false ∧ binary32.gt a b = false ∧
    binary32.ge a b = false ∧ a.eq b = false) ∧
  (∀ a b : F32, a.isNaN = false → b.isNaN = false →
    (a.lt b = true ↔ extValue a < extValue b) ∧ (a.le b = true ↔ extValue a ≤ extValue b) ∧
    (binary32.gt a b = true ↔ extValue b < extValue a) ∧ (binary32.ge a b = true ↔ extValue b ≤ extValue a) ∧
    (a.eq b = true ↔ extValue a = extValue b)) ∧
  (F32.ofSignMag true 0).eq F32.zero = true

/-- R12: `clamp` by cases, its value on a NaN and on the infinities, and that its result is always finite and
in the band. -/
def Obligations.ClampIsAlwaysInTheBand : Prop :=
  ∀ x lo hi : F32, lo.isFinite = true → hi.isFinite = true → lo.le hi = true →
    let y := binary32.clamp x lo hi
    (lo.le x = true → x.le hi = true → y = x) ∧
    (lo.le x = true → x.le hi = false → y = hi) ∧
    (lo.le x = false → y = lo) ∧
    (x.isNaN = true → y = lo) ∧
    (x = F32.inf true → y = lo) ∧
    (x = F32.inf false → y = hi) ∧
    y.isFinite = true ∧ lo.le y = true ∧ y.le hi = true

/-! ## The phase engine (41_phase_bank.md) -/

/-- R85: whatever the inputs, the phase increment is finite and in [DP_MIN, DP_MAX], inside (0, 1). -/
def Obligations.PhaseIncrementIsInTheBand : Prop :=
  ∀ (lt : Latch F32) (ep : F32), (phaseIncrement cfg lt ep).isFinite = true ∧
    cfg.dpMin.le (phaseIncrement cfg lt ep) = true ∧ (phaseIncrement cfg lt ep).le cfg.dpMax = true ∧
    F32.zero.lt (phaseIncrement cfg lt ep) = true ∧ (phaseIncrement cfg lt ep).lt F32.one = true

/-- R86 with R11: the advanced phase of a phase in [0, 1) by an increment in the band is exactly the
fractional part of the rounded sum, and in [0, 1). -/
def Obligations.AdvancedPhaseStaysInUnit : Prop :=
  ∀ prev dp : F32, binary32.inUnit prev → cfg.dpMin.le dp = true → dp.le cfg.dpMax = true →
    (advancePhase binary32 prev dp).isFinite = true ∧ binary32.inUnit (advancePhase binary32 prev dp) ∧
    (advancePhase binary32 prev dp).value = Int.fract (prev.add dp).value

/-- R88: the raw saw of a phase in [0, 1) is exactly `2 * frac(p + 1/2) - 1` of the rounded sum, is in
[-1, 1), and is exactly -1 at 1/2. -/
def Obligations.RawSawIsInRange : Prop :=
  (∀ p : F32, binary32.inUnit p → F32.one.neg.le (sawRaw binary32 p) = true ∧
    (sawRaw binary32 p).lt F32.one = true ∧
    (sawRaw binary32 p).value = 2 * Int.fract (p.add F32.half).value - 1) ∧
  sawRaw binary32 F32.half = F32.one.neg

/-- R89 and R90: the default sine is the quotient of the two polynomials with the listed constants, meets
its contract (finite on [0, 1), 1 at 1/2), and its denominator is at least 1 there. -/
def Obligations.RawSineMeetsItsContract : Prop :=
  (∀ p : F32,
    let u := (p.sub F32.half).mul (p.sub F32.half)
    let num := F32.one.add (u.mul ((F32.ofRat (-18.57837706)).add
      (u.mul ((F32.ofRat 42.68589444).add (u.mul (F32.ofRat (-22.90981333)))))))
    let den := F32.one.add (u.mul ((F32.ofRat 1.160831745).add
      (u.mul ((F32.ofRat 0.6604006172).add (u.mul (F32.ofRat 0.1990794590))))))
    cfg.sinApprox p = num.div den ∧
    (binary32.inUnit p → F32.one.le den = true ∧ (cfg.sinApprox p).isFinite = true)) ∧
  cfg.sinApprox F32.half = F32.one

/-! ## The sync detector (42_hard_sync.md) -/

/-- R92: the detector fires with crossing `cr` if and only if the difference of the samples is finite and not
zero, `cr` is `(0 - prev) / difference`, `0 < cr <= 1` and the current sample is not negative; so `cr` is
finite, the guard cases do not fire, and a downward crossing (R97 (b)) does not fire. -/
def Obligations.DetectorFiresOnlyInRange : Prop :=
  (∀ prev cur cr : F32, detectSync binary32 prev cur = some cr ↔
    (cur.sub prev).isFinite = true ∧ (cur.sub prev).isZero = false ∧
    cr = (F32.zero.sub prev).div (cur.sub prev) ∧
    F32.zero.lt cr = true ∧ cr.le F32.one = true ∧ F32.zero.le cur = true) ∧
  (∀ prev cur cr : F32, detectSync binary32 prev cur = some cr → cr.isFinite = true) ∧
  (∀ prev cur : F32, (cur.sub prev).isFinite = false ∨ (cur.sub prev).isZero = true →
    detectSync binary32 prev cur = none) ∧
  (∀ prev cur : F32, cur.lt F32.zero = true → detectSync binary32 prev cur = none)

/-- R160 (c): a stored zero never fires, so the first enabled tick after reset cannot. -/
def Obligations.SyncFromZeroCannotFire : Prop :=
  (∀ z cur : F32, z.isZero = true → detectSync binary32 z cur = none) ∧
  ∀ (v : VoiceIdx) (cur : F32), detectSync binary32 (State.reset.voice v).lastSync cur = none

/-! ## Noise, filter, chaos (43_chaos_noise_filter.md) -/

/-- R98: the step is the three shift-and-xors, is a bijection that fixes 0, is linear over GF(2), and keeps a
non-zero state non-zero; no reset leaves 0. -/
def Obligations.XorshiftIsABijectionFixingZero : Prop :=
  (∀ x : Word, xs32 x =
    (let a := x ^^^ (x <<< 13); let b := a ^^^ (a >>> 17); b ^^^ (b <<< 5))) ∧
  Function.Bijective xs32 ∧ xs32 0 = 0 ∧ (∀ x y : Word, xs32 (x ^^^ y) = xs32 x ^^^ xs32 y) ∧
  (∀ x : Word, x ≠ 0 → xs32 x ≠ 0) ∧
  (∀ (seed : Word) (v : VoiceIdx), (resetVoice cfg seed v).prng ≠ 0)

/-- R99: a noise sample is exactly the upper 24 bits as a signed integer over 2^23, in [-1, 1 - 2^-23]. -/
def Obligations.NoiseSampleIsExact : Prop :=
  ∀ x : Word, (noiseSample binary32 x).isFinite = true ∧
    (noiseSample binary32 x).value = ((x.extractLsb' 8 24).toInt : ℚ) / 2 ^ 23 ∧
    -1 ≤ (noiseSample binary32 x).value ∧ (noiseSample binary32 x).value ≤ 1 - 1 / 2 ^ 23

/-- R100: a unit sample is exactly the upper 24 bits over 2^24, in [0, 1 - 2^-24]. -/
def Obligations.UnitSampleIsExact : Prop :=
  ∀ x : Word, (unitSample binary32 x).isFinite = true ∧
    (unitSample binary32 x).value = ((x.extractLsb' 8 24).toNat : ℚ) / 2 ^ 24 ∧
    0 ≤ (unitSample binary32 x).value ∧ (unitSample binary32 x).value ≤ 1 - 1 / 2 ^ 24

/-- R102: the new state is `y + a * (x - y)`, one rounding per operator; with state and input in [-1, 1] and
coefficient in [0, 1] it is in [-1, 1]; a zero coefficient holds the state. -/
def Obligations.OnePoleStaysInRange : Prop :=
  (∀ y a x : F32, onePole binary32 y a x = y.add (a.mul (x.sub y))) ∧
  (∀ y a x : F32, y.within 1 → x.within 1 → F32.zero.le a = true → a.le F32.one = true →
    (onePole binary32 y a x).within 1) ∧
  (∀ y a x : F32, y.within 1 → x.within 1 → a.isZero = true → (onePole binary32 y a x).eq y = true)

/-- R104: with `w = (TWO_PI * fc) * dt`, the coefficient is 0 unless `w` is above zero, 1 for an infinite `w`,
and `w / (1 + w)` otherwise; it is finite and in [0, 1] whatever the arguments. -/
def Obligations.CoefficientIsInUnit : Prop :=
  ∀ fc dt : F32,
    let w := (cfg.twoPi.mul fc).mul dt
    (F32.zero.lt w = false → coef cfg fc dt = F32.zero) ∧
    (F32.zero.lt w = true → w.isFinite = false → coef cfg fc dt = F32.one) ∧
    (F32.zero.lt w = true → w.isFinite = true → coef cfg fc dt = w.div (F32.one.add w)) ∧
    (coef cfg fc dt).isFinite = true ∧ F32.zero.le (coef cfg fc dt) = true ∧
    (coef cfg fc dt).le F32.one = true

/-- R105: the chaos path is engaged exactly when the depth is above zero; not engaged, the step draws nothing,
writes nothing and its offset is exactly 0.0. Engaged, one word is drawn and only `nf[i]` is written
(R106). -/
def Obligations.ChaosStepOnlyWhenEngaged : Prop :=
  ∀ (Num : Type) (c : Cfg Num) (L : Nat) (lt : Latch Num) (an : Num) (v : Voice Num L) (i : SubIdx),
    (c.num.gt lt.chaos c.num.zero = false → chaosStep c lt an v i = (c.num.zero, v)) ∧
    (c.num.gt lt.chaos c.num.zero = true →
      let r := chaosStep c lt an v i
      r.2.prng = c.noise.step v.prng ∧
      r.2.nf.get i = c.num.add (v.nf.get i)
        (c.num.mul an (c.num.sub (c.noise.sample (c.noise.step v.prng)) (v.nf.get i))) ∧
      (∀ k, k ≠ i → r.2.nf.get k = v.nf.get k) ∧
      r.1 = c.num.mul (r.2.nf.get i) lt.chaos ∧
      { r.2 with prng := v.prng, nf := v.nf } = v)

/-! ## The corrector (44_minblep.md) -/

/-- R113: the kernel lookup is 0 before the table, the table inside it, 1 from its last entry on, which equals
that entry; it is 0 at 0. The interpolated kernel is R113's formula in every configuration; and in the
model's, for a time from 0 to `L`, its index is the exact floor of `t * O` and its fraction the exact rest. -/
def Obligations.KernelLookupIsTotal : Prop :=
  (∀ n : Int, n < 0 → kernelAt cfg n = F32.zero) ∧
  (∀ n : Nat, n < cfg.blepLen * cfg.blepOvs → kernelAt cfg n = cfg.kernel n) ∧
  (∀ n : Nat, cfg.blepLen * cfg.blepOvs ≤ n → kernelAt cfg n = F32.one) ∧
  kernelAt cfg (cfg.blepLen * cfg.blepOvs : Nat) = cfg.kernel (cfg.blepLen * cfg.blepOvs) ∧
  (kernelAt cfg 0).eq F32.zero = true ∧
  (∀ (Num : Type) (c : Cfg Num) (t : Num),
    let idx := c.num.mul t (c.num.ofInt c.blepOvs)
    let n := c.num.floor idx
    kernelInterp c t = c.num.add (kernelAt c n)
      (c.num.mul (c.num.sub idx (c.num.ofInt n)) (c.num.sub (kernelAt c (n + 1)) (kernelAt c n)))) ∧
  ∀ t : F32, t.isFinite = true → 0 ≤ t.value → t.value ≤ cfg.blepLen →
    let n := ⌊t.value * cfg.blepOvs⌋
    ∃ f : F32, f.isFinite = true ∧ f.value = t.value * cfg.blepOvs - n ∧
      kernelInterp cfg t =
        (kernelAt cfg n).add (f.mul ((kernelAt cfg (n + 1)).sub (kernelAt cfg n)))

/-- R115: the slots of the delays 0 to L-1 are all the slots, each once. -/
def Obligations.RingSlotsAreAddressedOnce : Prop :=
  ∀ (L : Nat) (pos s : Fin L), ∃! j : Nat, j < L ∧ ringSlot pos j = s

/-- R114: an insertion adds to the slot of each delay `j` the term `a * (K(j - p) - 1)`, once, and leaves the
cursor. -/
def Obligations.InsertionAddsOneTermPerSlot : Prop :=
  ∀ (Num : Type) (c : Cfg Num) (L : Nat) (b : Corrector Num L) (p a : Num),
    (insertDiscontinuity c b p a).pos = b.pos ∧
    ∀ j : Nat, j < L → (insertDiscontinuity c b p a).buf.get ⟨(b.pos.val + j) % L, Nat.mod_lt _ b.pos.pos⟩ =
      c.num.add (b.buf.get ⟨(b.pos.val + j) % L, Nat.mod_lt _ b.pos.pos⟩)
        (c.num.mul a (c.num.sub (kernelInterp c (c.num.sub (c.num.ofInt j) p)) c.num.one))

/-- R116: `process` returns the current slot, clears it, leaves the others and advances the cursor by one. -/
def Obligations.ProcessDeliversAndClears : Prop :=
  ∀ (Num : Type) (N : Numerics Num) (L : Nat) (b : Corrector Num L), (processBlep N b).1 = b.buf.get b.pos ∧
    (processBlep N b).2.pos.val = (b.pos.val + 1) % L ∧
    (processBlep N b).2.buf.get b.pos = N.zero ∧
    ∀ s, s ≠ b.pos → (processBlep N b).2.buf.get s = b.buf.get s

/-- R119: after L calls of `process` with no insertion the ring is all zeros and the cursor is back, and the
`k`-th call returned what was due `k` samples ahead. -/
def Obligations.DrainedRingIsAllZero : Prop :=
  ∀ (Num : Type) (N : Numerics Num) (L : Nat) (b : Corrector Num L),
    (∀ s, (((fun x => (processBlep N x).2)^[L] b).buf.get s) = N.zero) ∧
    ((fun x => (processBlep N x).2)^[L] b).pos = b.pos ∧
    ∀ k, k < L → (processBlep N ((fun x => (processBlep N x).2)^[k] b)).1 = b.buf.get (ringSlot b.pos k)

/-! ## Invariants (10_state.md R35, 46_tick.md R139) -/

/-- The reset state, by hardware or by INIT with any seed, meets the invariant. -/
def Obligations.ResetMeetsTheInvariant : Prop :=
  State.reset.Inv ∧ ∀ (seed : Word) (s t : State), exec (.init seed) s = .next t → t.Inv

/-- R139 (a), the source's phase wrap invariant: from any state whose phases are all in [0, 1), every step
leaves them all in [0, 1). -/
def Obligations.EveryStepKeepsPhasesInUnit : Prop :=
  ∀ s t : State, (∀ v i, binary32.inUnit ((s.voice v).phase.get i)) → step s = .next t →
    ∀ v i, binary32.inUnit ((t.voice v).phase.get i)

/-- R139 (c): every step keeps the noise filters finite and in [-1, 1]. -/
def Obligations.EveryStepKeepsNoiseFiltersInRange : Prop :=
  ∀ s t : State, (∀ v i, ((s.voice v).nf.get i).within 1) → step s = .next t →
    ∀ v i, ((t.voice v).nf.get i).within 1

/-- R35 (e): every step keeps the generator words non-zero. -/
def Obligations.EveryStepKeepsGeneratorsNonZero : Prop :=
  ∀ s t : State, (∀ v, (s.voice v).prng ≠ 0) → step s = .next t → ∀ v, (t.voice v).prng ≠ 0

/-- R35 with R139: every step keeps the whole invariant: phases in [0, 1), noise filters in [-1, 1], rings, DC
states and outputs finite and bounded, generators non-zero, whatever the host writes. -/
def Obligations.EveryStepKeepsTheInvariant : Prop :=
  ∀ s t : State, s.Inv → step s = .next t → t.Inv

/-- The invariant gives what 10_state.md R35 lists, of every voice. -/
def Obligations.InvariantGivesFiniteState : Prop :=
  ∀ s : State, s.Inv → ∀ v, VoiceR35 (s.voice v)

/-! ## Reset and configuration -/

/-- R154: after reset a tick of any voice leaves every voice as it was; DENSITY is read as 8. -/
def Obligations.TickAfterResetIsSilent : Prop :=
  (∀ v : VoiceIdx, exec (.tick v) State.reset = .next { State.reset with rsp := some ⟨0, false⟩ }) ∧
  ∀ v : VoiceIdx, effectiveDensity cfg (regRead State.reset v .density) = .eight

/-- The configuration the model runs with meets the contracts a claim may assume (00_scope.md R6, R7). -/
def Obligations.ConfigurationMeetsItsContracts : Prop :=
  F32.zero.lt cfg.dpMin = true ∧ cfg.dpMin.le cfg.dpMax = true ∧ cfg.dpMax.lt F32.one = true ∧
  cfg.refFreqHz.isFinite = true ∧ F32.zero.lt cfg.refFreqHz = true ∧
  KernelContract binary32 cfg.kernel (cfg.blepLen * cfg.blepOvs) ∧
  (∀ m i, (cfg.tuning m i).isFinite = true) ∧
  Exp2Contract binary32 cfg.exp2 ∧
  Constants.decimal binary32 = constants32

end
end

