-- ==== Sys2Proof/Laws/Binary32.lean ====
section
/-! SUPPORT. The rounding facts of binary32: the magnitude scale is strictly increasing, `roundMag` is
squeezed by representable bounds, is exact on them and is monotone; the same said of each operator in
units of 2^-149. -/

namespace Sys2Proof
open Machine

/-! ## The magnitude scale -/

theorem magUnits_of_lt {p : Nat} (h : p < 2 ^ 23) : magUnits p = p := by
  unfold magUnits
  rw [if_pos (Nat.div_eq_of_lt h)]

theorem magUnits_scaled {e m : Nat} (hlo : 2 ^ 23 ≤ m) (hhi : m < 2 ^ 24) :
    magUnits (e * 2 ^ 23 + m) = m * 2 ^ e := by
  have hdiv : (e * 2 ^ 23 + m) / 2 ^ 23 = e + 1 := by omega
  have hmod : (e * 2 ^ 23 + m) % 2 ^ 23 = m - 2 ^ 23 := by omega
  unfold magUnits
  rw [hdiv, hmod, if_neg (by omega), Nat.add_sub_cancel, show 2 ^ 23 + (m - 2 ^ 23) = m by omega]

/-- The gap above a magnitude field. -/
theorem magUnits_succ (p : Nat) : magUnits (p + 1) = magUnits p + 2 ^ (p / 2 ^ 23 - 1) := by
  by_cases h : p < 2 ^ 23
  · rw [magUnits_of_lt h, Nat.div_eq_of_lt h]
    by_cases h' : p + 1 < 2 ^ 23
    · rw [magUnits_of_lt h']; rfl
    · have : p + 1 = 0 * 2 ^ 23 + 2 ^ 23 := by omega
      rw [this, magUnits_scaled (le_refl _) (by norm_num)]
      simp
      omega
  · obtain ⟨e, he⟩ : ∃ e, p / 2 ^ 23 = e + 1 := ⟨p / 2 ^ 23 - 1, by omega⟩
    obtain ⟨m, hm⟩ : ∃ m, p = e * 2 ^ 23 + m := ⟨p - e * 2 ^ 23, by omega⟩
    have hlo : 2 ^ 23 ≤ m := by omega
    have hhi : m < 2 ^ 24 := by omega
    rw [he, Nat.add_sub_cancel, hm, magUnits_scaled hlo hhi]
    by_cases h' : m + 1 < 2 ^ 24
    · rw [Nat.add_assoc, magUnits_scaled (by omega) h', Nat.add_mul, Nat.one_mul]
    · have hm' : m + 1 = 2 ^ 24 := by omega
      have : e * 2 ^ 23 + m + 1 = (e + 1) * 2 ^ 23 + 2 ^ 23 := by omega
      have hs : m * 2 ^ e + 2 ^ e = (m + 1) * 2 ^ e := by rw [Nat.add_mul, Nat.one_mul]
      rw [this, magUnits_scaled (le_refl _) (by norm_num), hs, hm', Nat.pow_succ 2 e]
      omega

theorem magUnits_strictMono : StrictMono magUnits :=
  strictMono_nat_of_lt_succ fun p => by rw [magUnits_succ]; have := Nat.two_pow_pos (p / 2 ^ 23 - 1); omega

theorem magUnits_le_iff {p q : Nat} : magUnits p ≤ magUnits q ↔ p ≤ q := magUnits_strictMono.le_iff_le

theorem magUnits_lt_iff {p q : Nat} : magUnits p < magUnits q ↔ p < q := magUnits_strictMono.lt_iff_lt

@[simp] theorem magUnits_zero : magUnits 0 = 0 := by decide

/-! ## Rounding of magnitudes -/

/-- The number of significand bits dropped, the significand kept, and the field they make, before the
decision to round up. -/
def roundExp (n d : Nat) : Nat := Nat.log2 (n / d) - 23
def roundSig (n d : Nat) : Nat := n / (d * 2 ^ roundExp n d)
def roundDown (n d : Nat) : Nat := roundExp n d * 2 ^ 23 + roundSig n d

/-- Whether `roundMag` rounds up: beyond the midpoint, or at it with an odd significand. -/
def roundsUp (n d : Nat) : Prop :=
  d * 2 ^ roundExp n d < 2 * (n % (d * 2 ^ roundExp n d)) ∨
    (2 * (n % (d * 2 ^ roundExp n d)) = d * 2 ^ roundExp n d ∧ roundSig n d % 2 = 1)

open Classical in
theorem roundMag_eq (n d : Nat) :
    roundMag n d = min (if roundsUp n d then roundDown n d + 1 else roundDown n d) infMag := by
  unfold roundMag roundDown roundsUp roundSig roundExp
  simp only
  split
  · rw [Nat.add_assoc]
  · rfl

theorem roundMag_le_infMag (n d : Nat) : roundMag n d ≤ infMag := Nat.min_le_right _ _

theorem roundSig_bounds (n : Nat) {d : Nat} :
    roundSig n d < 2 ^ 24 ∧ (roundExp n d = 0 ∨ 2 ^ 23 ≤ roundSig n d) := by
  have hs : roundSig n d = n / d / 2 ^ roundExp n d := by
    rw [roundSig, Nat.div_div_eq_div_mul]
  by_cases hk : n / d = 0
  · rw [hs, hk]; simp [roundExp, hk]
  · have hlt : n / d < 2 ^ (Nat.log2 (n / d) + 1) := Nat.lt_log2_self
    have hle : 2 ^ Nat.log2 (n / d) ≤ n / d := Nat.log2_self_le hk
    rw [hs]
    by_cases he : roundExp n d = 0
    · have hl : Nat.log2 (n / d) ≤ 23 := by unfold roundExp at he; omega
      have := Nat.pow_le_pow_right (n := 2) (by omega) (show Nat.log2 (n / d) + 1 ≤ 24 by omega)
      rw [he]
      exact ⟨by simpa using lt_of_lt_of_le hlt this, .inl rfl⟩
    · have hl : Nat.log2 (n / d) = roundExp n d + 23 := by unfold roundExp at he ⊢; omega
      refine ⟨?_, .inr ?_⟩
      · rw [Nat.div_lt_iff_lt_mul (Nat.two_pow_pos _), ← Nat.pow_add]
        rw [hl] at hlt
        exact lt_of_lt_of_le hlt (Nat.pow_le_pow_right (by omega) (by omega))
      · rw [Nat.le_div_iff_mul_le (Nat.two_pow_pos _), ← Nat.pow_add]
        rw [hl] at hle
        exact le_trans (Nat.pow_le_pow_right (by omega) (by omega)) hle

theorem magUnits_roundDown (n d : Nat) :
    magUnits (roundDown n d) = roundSig n d * 2 ^ roundExp n d := by
  obtain ⟨hlt, hor⟩ := roundSig_bounds n (d := d)
  unfold roundDown
  by_cases hlo : 2 ^ 23 ≤ roundSig n d
  · exact magUnits_scaled hlo hlt
  · have he : roundExp n d = 0 := hor.resolve_right hlo
    rw [he, Nat.zero_mul, Nat.zero_add, Nat.pow_zero, Nat.mul_one, magUnits_of_lt (by omega)]

theorem roundDown_gap (n d : Nat) : roundDown n d / 2 ^ 23 - 1 = roundExp n d := by
  obtain ⟨hlt, hor⟩ := roundSig_bounds n (d := d)
  unfold roundDown
  rcases hor with he | hlo
  · rw [he]; omega
  · omega

theorem magUnits_roundDown_succ (n d : Nat) :
    magUnits (roundDown n d + 1) = (roundSig n d + 1) * 2 ^ roundExp n d := by
  rw [magUnits_succ, roundDown_gap, magUnits_roundDown, Nat.add_mul, Nat.one_mul]

/-- `roundDown` is the largest field not above `n / d`: the lower half. -/
theorem roundDown_le_exact (n d : Nat) : magUnits (roundDown n d) * d ≤ n := by
  rw [magUnits_roundDown, Nat.mul_assoc, Nat.mul_comm (2 ^ _) d]
  exact Nat.div_mul_le_self _ _

/-- `roundDown` is the largest field not above `n / d`: the upper half. -/
theorem exact_lt_roundDown_succ (n : Nat) {d : Nat} (hd : 0 < d) :
    n < magUnits (roundDown n d + 1) * d := by
  rw [magUnits_roundDown_succ, Nat.mul_assoc, Nat.mul_comm (2 ^ _) d]
  have := Nat.lt_div_mul_add (a := n) (b := d * 2 ^ roundExp n d) (by positivity)
  rw [Nat.add_mul, Nat.one_mul]
  exact this

theorem le_roundDown_iff {n d p : Nat} (hd : 0 < d) : p ≤ roundDown n d ↔ magUnits p * d ≤ n := by
  constructor
  · intro h
    exact le_trans (Nat.mul_le_mul_right d (magUnits_le_iff.2 h)) (roundDown_le_exact n d)
  · intro h
    have := lt_of_le_of_lt h (exact_lt_roundDown_succ n hd)
    have := magUnits_lt_iff.1 (Nat.lt_of_mul_lt_mul_right this)
    omega

/-- A representable lower bound of the exact value bounds the rounded one. -/
theorem le_roundMag {n d p : Nat} (hd : 0 < d) (hp : p ≤ infMag) (h : magUnits p * d ≤ n) :
    p ≤ roundMag n d := by
  have := (le_roundDown_iff hd).2 h
  rw [roundMag_eq, Nat.le_min]
  refine ⟨?_, hp⟩
  split <;> omega

/-- A representable upper bound of the exact value bounds the rounded one. -/
theorem roundMag_le {n d p : Nat} (hd : 0 < d) (h : n ≤ magUnits p * d) : roundMag n d ≤ p := by
  rw [roundMag_eq]
  refine le_trans (Nat.min_le_left _ _) ?_
  by_cases hlt : roundDown n d < p
  · split <;> omega
  · have h1 : magUnits p * d ≤ magUnits (roundDown n d) * d :=
      Nat.mul_le_mul_right d (magUnits_le_iff.2 (by omega))
    have h2 := roundDown_le_exact n d
    have hn : n = magUnits (roundDown n d) * d := le_antisymm (le_trans h h1) h2
    have hp : roundDown n d = p := by
      have : magUnits (roundDown n d) ≤ magUnits p := Nat.le_of_mul_le_mul_right (hn ▸ h) hd
      have := magUnits_le_iff.1 this
      omega
    have hmod : n % (d * 2 ^ roundExp n d) = 0 := by
      rw [magUnits_roundDown, Nat.mul_assoc, Nat.mul_comm (2 ^ _) d] at hn
      exact Nat.mod_eq_zero_of_dvd ⟨_, by rw [Nat.mul_comm]; exact hn⟩
    have hpos : 0 < d * 2 ^ roundExp n d := by positivity
    rw [if_neg]
    · omega
    · rintro (h | ⟨h, -⟩) <;> omega

/-- Rounding is exact on representable values. -/
theorem roundMag_exact {d p : Nat} (hd : 0 < d) (hp : p ≤ infMag) : roundMag (magUnits p * d) d = p :=
  le_antisymm (roundMag_le hd (le_refl _)) (le_roundMag hd hp (le_refl _))

/-- The midpoint test in terms of the exact value. -/
theorem roundsUp_iff {n d : Nat} :
    roundsUp n d ↔
      (2 * roundSig n d + 1) * 2 ^ roundExp n d * d < 2 * n ∨
        ((2 * roundSig n d + 1) * 2 ^ roundExp n d * d = 2 * n ∧ roundSig n d % 2 = 1) := by
  have hdm := Nat.div_add_mod n (d * 2 ^ roundExp n d)
  have hD : (2 * roundSig n d + 1) * 2 ^ roundExp n d * d =
      2 * (d * 2 ^ roundExp n d * roundSig n d) + d * 2 ^ roundExp n d := by ring
  have hn : n = d * 2 ^ roundExp n d * roundSig n d + n % (d * 2 ^ roundExp n d) := hdm.symm
  unfold roundsUp
  rw [hD]
  generalize n % (d * 2 ^ roundExp n d) = r at hn ⊢
  generalize d * 2 ^ roundExp n d * roundSig n d = a at hn ⊢
  generalize d * 2 ^ roundExp n d = b at hn ⊢
  constructor
  · rintro (h | ⟨h, ho⟩)
    · exact .inl (by omega)
    · exact .inr ⟨by omega, ho⟩
  · rintro (h | ⟨h, ho⟩)
    · exact .inl (by omega)
    · exact .inr ⟨by omega, ho⟩

/-- Rounding is monotone. -/
theorem roundMag_mono {n d n' d' : Nat} (hd : 0 < d) (hd' : 0 < d') (h : n * d' ≤ n' * d) :
    roundMag n d ≤ roundMag n' d' := by
  have hdown : roundDown n d ≤ roundDown n' d' := by
    rw [le_roundDown_iff hd']
    have h1 := roundDown_le_exact n d
    refine Nat.le_of_mul_le_mul_right (c := d) ?_ hd
    calc magUnits (roundDown n d) * d' * d = magUnits (roundDown n d) * d * d' := by ring
      _ ≤ n * d' := Nat.mul_le_mul_right _ h1
      _ ≤ n' * d := h
  rw [roundMag_eq, roundMag_eq]
  refine min_le_min_right _ ?_
  by_cases hlt : roundDown n d < roundDown n' d'
  · split <;> split <;> omega
  · have heq : roundDown n d = roundDown n' d' := by omega
    have he : roundExp n d = roundExp n' d' := by rw [← roundDown_gap, ← roundDown_gap, heq]
    have hm : roundSig n d = roundSig n' d' := by
      have := heq
      unfold roundDown at this
      rw [he] at this
      omega
    by_cases hup : roundsUp n d
    · have hup' : roundsUp n' d' := by
        rw [roundsUp_iff, he, hm] at hup
        rw [roundsUp_iff]
        generalize (2 * roundSig n' d' + 1) * 2 ^ roundExp n' d' = c at hup ⊢
        have key : ∀ b : Nat, c * d + b ≤ 2 * n → c * d' * d + b * d' ≤ 2 * n' * d := fun b hb => by
          calc c * d' * d + b * d' = (c * d + b) * d' := by ring
            _ ≤ 2 * n * d' := Nat.mul_le_mul_right _ hb
            _ = 2 * (n * d') := by ring
            _ ≤ 2 * (n' * d) := by omega
            _ = 2 * n' * d := by ring
        rcases hup with hlt' | ⟨hEq, ho⟩
        · refine .inl (Nat.lt_of_mul_lt_mul_right (a := d) ?_)
          have := key 1 hlt'
          omega
        · have := Nat.le_of_mul_le_mul_right (by simpa using key 0 (by omega)) hd
          rcases Nat.lt_or_ge (c * d') (2 * n') with h' | h'
          · exact .inl h'
          · exact .inr ⟨by omega, ho⟩
      rw [if_pos hup, if_pos hup']
      omega
    · rw [if_neg hup]
      split <;> omega

/-- Below overflow the rounding error is at most half the gap `2^(roundExp n d)`. -/
theorem roundMag_error {n d : Nat} (hd : 0 < d) (hfin : roundMag n d < infMag) :
    2 * n ≤ (2 * magUnits (roundMag n d) + 2 ^ roundExp n d) * d ∧
      2 * magUnits (roundMag n d) * d ≤ 2 * n + 2 ^ roundExp n d * d := by
  have h1 := roundDown_le_exact n d
  have h2 := exact_lt_roundDown_succ n hd
  have hup := roundsUp_iff (n := n) (d := d)
  rw [roundMag_eq] at hfin ⊢
  have hmin : ∀ x : Nat, min x infMag < infMag → min x infMag = x := fun x hx => by omega
  rw [hmin _ hfin]
  rw [magUnits_roundDown] at h1
  rw [magUnits_roundDown_succ] at h2
  have e1 : (2 * roundSig n d + 1) * 2 ^ roundExp n d * d =
      2 * (roundSig n d * 2 ^ roundExp n d * d) + 2 ^ roundExp n d * d := by ring
  have e2 : (roundSig n d + 1) * 2 ^ roundExp n d * d =
      roundSig n d * 2 ^ roundExp n d * d + 2 ^ roundExp n d * d := by ring
  rw [e1] at hup
  rw [e2] at h2
  split
  · next h =>
    rw [magUnits_roundDown_succ]
    have e3 : (2 * ((roundSig n d + 1) * 2 ^ roundExp n d) + 2 ^ roundExp n d) * d =
        2 * (roundSig n d * 2 ^ roundExp n d * d) + 3 * (2 ^ roundExp n d * d) := by ring
    have e4 : 2 * ((roundSig n d + 1) * 2 ^ roundExp n d) * d =
        2 * (roundSig n d * 2 ^ roundExp n d * d) + 2 * (2 ^ roundExp n d * d) := by ring
    rw [e3, e4]
    rcases hup.1 h with h' | ⟨h', -⟩ <;> constructor <;> omega
  · next h =>
    rw [magUnits_roundDown]
    have e3 : (2 * (roundSig n d * 2 ^ roundExp n d) + 2 ^ roundExp n d) * d =
        2 * (roundSig n d * 2 ^ roundExp n d * d) + 2 ^ roundExp n d * d := by ring
    have e4 : 2 * (roundSig n d * 2 ^ roundExp n d) * d = 2 * (roundSig n d * 2 ^ roundExp n d * d) := by ring
    rw [e3, e4]
    have := not_or.1 (fun hh => h (hup.2 hh))
    constructor <;> omega

/-! ## Classification -/

theorem infMag_lt : infMag < 2 ^ 31 := by decide

@[simp] theorem F32.isNeg_ofSignMag {neg : Bool} {p : Nat} (h : p < 2 ^ 31) :
    (F32.ofSignMag neg p).isNeg = neg := Machine.isNeg_ofSignMag neg h

@[simp] theorem F32.mag_ofSignMag {neg : Bool} {p : Nat} (h : p < 2 ^ 31) :
    (F32.ofSignMag neg p).mag = p := Machine.mag_ofSignMag neg h

theorem F32.mag_lt (x : F32) : x.mag < 2 ^ 31 := Nat.mod_lt _ (by norm_num)

/-- A datum is its sign and its magnitude field. -/
theorem F32.ext_sign_mag {x y : F32} (hs : x.isNeg = y.isNeg) (hm : x.mag = y.mag) : x = y := by
  cases x with | mk a => cases y with | mk b =>
    simp only [F32.isNeg, F32.mag, BitVec.msb_eq_decide] at hs hm
    have ha := a.isLt
    have hb := b.isLt
    have : a.toNat = b.toNat := by
      simp only [decide_eq_decide] at hs
      omega
    rw [BitVec.eq_of_toNat_eq this]

theorem F32.ofSignMag_self (x : F32) : F32.ofSignMag x.isNeg x.mag = x :=
  F32.ext_sign_mag (F32.isNeg_ofSignMag x.mag_lt) (F32.mag_ofSignMag x.mag_lt)

theorem F32.isFinite_iff {x : F32} : x.isFinite = true ↔ x.mag < infMag := by simp [F32.isFinite]

theorem F32.isNaN_iff {x : F32} : x.isNaN = true ↔ infMag < x.mag := by simp [F32.isNaN]

theorem F32.isInf_iff {x : F32} : x.isInf = true ↔ x.mag = infMag := by simp [F32.isInf]

theorem F32.isNaN_eq_false_iff {x : F32} : x.isNaN = false ↔ x.mag ≤ infMag := by simp [F32.isNaN]

theorem F32.isNaN_of_finite {x : F32} (h : x.isFinite = true) : x.isNaN = false := not_nan_of_finite h

theorem F32.isInf_of_finite {x : F32} (h : x.isFinite = true) : x.isInf = false := by
  simp only [F32.isFinite, F32.isInf, decide_eq_true_eq, decide_eq_false_iff_not] at *
  omega

theorem F32.natAbs_units (x : F32) : x.units.natAbs = magUnits x.mag := by
  unfold F32.units
  split <;> simp

/-- Finiteness by value: for a datum that is no NaN. -/
theorem F32.isFinite_iff_units {x : F32} :
    x.isFinite = true ↔ x.isNaN = false ∧ x.units.natAbs < magUnits infMag := by
  rw [F32.natAbs_units, magUnits_lt_iff, F32.isFinite_iff, F32.isNaN_eq_false_iff]
  omega

@[simp] theorem F32.isNeg_neg (x : F32) : x.neg.isNeg = !x.isNeg := by
  simp only [F32.neg, F32.isNeg, BitVec.msb_xor]
  rw [show (0x80000000 : Word).msb = true by decide, Bool.xor_true]

@[simp] theorem F32.mag_neg (x : F32) : x.neg.mag = x.mag := by
  have h : (x.neg.bits.extractLsb' 0 31).toNat = (x.bits.extractLsb' 0 31).toNat := by
    congr 1
    ext i hi
    have h0 : ∀ j : Fin 31, (0x80000000 : Word).getLsbD j.val = false := by decide
    simp [F32.neg, BitVec.getLsbD_xor, show (2147483648#32).getLsbD i = false from h0 ⟨i, hi⟩]
  simpa [F32.mag, BitVec.extractLsb'_toNat] using h

@[simp] theorem F32.units_neg (x : F32) : x.neg.units = -x.units := by
  unfold F32.units
  rw [F32.isNeg_neg, F32.mag_neg]
  cases x.isNeg <;> simp

@[simp] theorem F32.isNaN_neg (x : F32) : x.neg.isNaN = x.isNaN := by simp [F32.isNaN]

@[simp] theorem F32.isFinite_neg (x : F32) : x.neg.isFinite = x.isFinite := by simp [F32.isFinite]

/-! ## Signed rounding -/

theorem F32.mag_rnd (neg : Bool) (n d : Nat) : (F32.rnd neg n d).mag = roundMag n d :=
  F32.mag_ofSignMag (lt_of_le_of_lt (roundMag_le_infMag n d) infMag_lt)

theorem F32.isNeg_rnd (neg : Bool) (n d : Nat) : (F32.rnd neg n d).isNeg = neg :=
  F32.isNeg_ofSignMag (lt_of_le_of_lt (roundMag_le_infMag n d) infMag_lt)

theorem F32.isNaN_rnd (neg : Bool) (n d : Nat) : (F32.rnd neg n d).isNaN = false := by
  rw [F32.isNaN_eq_false_iff, F32.mag_rnd]
  exact roundMag_le_infMag n d

theorem F32.units_rnd (neg : Bool) (n d : Nat) :
    (F32.rnd neg n d).units = if neg then -(magUnits (roundMag n d) : Int) else magUnits (roundMag n d) := by
  rw [F32.units, F32.mag_rnd, F32.isNeg_rnd]

/-- The integers that are values of a datum that is no NaN, infinities included. -/
def Representable (z : Int) : Prop := ∃ p ≤ infMag, z.natAbs = magUnits p

theorem representable_units {x : F32} (h : x.isNaN = false) : Representable x.units :=
  ⟨x.mag, F32.isNaN_eq_false_iff.1 h, x.natAbs_units⟩

theorem representable_neg {z : Int} (h : Representable z) : Representable (-z) := by
  obtain ⟨p, hp, he⟩ := h
  exact ⟨p, hp, by rw [Int.natAbs_neg, he]⟩

/-- Whole numbers up to 2^24 are representable. -/
theorem representable_nat {b : Nat} (h : b ≤ 2 ^ 24) : Representable (b * 2 ^ 149) := by
  have key : ∀ k : Nat, ∀ b : Nat, 0 < b → 2 ^ k ≤ b → b < 2 ^ (k + 1) → k ≤ 24 → (k = 24 → b = 2 ^ 24) →
      ∃ p ≤ infMag, b * 2 ^ 149 = magUnits p := by
    intro k b hb hlo hhi hk h24
    by_cases hk' : k = 24
    · refine ⟨150 * 2 ^ 23 + 2 ^ 23, by decide, ?_⟩
      rw [magUnits_scaled (le_refl _) (by norm_num), h24 hk', ← Nat.pow_add, ← Nat.pow_add]
    · have hs : 2 ^ 23 ≤ b * 2 ^ (23 - k) := by
        calc 2 ^ 23 = 2 ^ k * 2 ^ (23 - k) := by rw [← Nat.pow_add]; congr 1; omega
          _ ≤ _ := Nat.mul_le_mul_right _ hlo
      have hs' : b * 2 ^ (23 - k) < 2 ^ 24 := by
        calc b * 2 ^ (23 - k) < 2 ^ (k + 1) * 2 ^ (23 - k) :=
              Nat.mul_lt_mul_of_pos_right hhi (Nat.two_pow_pos _)
          _ = 2 ^ 24 := by rw [← Nat.pow_add]; congr 1; omega
      refine ⟨(126 + k) * 2 ^ 23 + b * 2 ^ (23 - k), ?_, ?_⟩
      · have : infMag = 255 * 2 ^ 23 := by decide
        omega
      · rw [magUnits_scaled hs hs', Nat.mul_assoc, ← Nat.pow_add]
        congr 2
        omega
  by_cases h0 : b = 0
  · exact ⟨0, by decide, by simp [h0]⟩
  · obtain ⟨p, hp, he⟩ := key (Nat.log2 b) b (by omega) (Nat.log2_self_le h0) Nat.lt_log2_self
      (by
        by_contra hc
        have := Nat.pow_le_pow_right (n := 2) (by omega) (show 25 ≤ Nat.log2 b by omega)
        have := Nat.log2_self_le h0
        omega)
      (fun hk => by
        have := Nat.log2_self_le h0
        rw [hk] at this
        omega)
    exact ⟨p, hp, by rw [← he, Int.natAbs_mul]; rfl⟩

/-- A representable upper bound of the exact value `±n/d` bounds the rounded value. -/
theorem F32.units_rnd_le {neg : Bool} {n d : Nat} {z : Int} (hd : 0 < d) (hz : Representable z)
    (h : (if neg then -(n : Int) else n) ≤ z * d) : (F32.rnd neg n d).units ≤ z := by
  obtain ⟨p, hp, he⟩ := hz
  rw [F32.units_rnd]
  cases neg
  · simp only [Bool.false_eq_true, if_false] at h ⊢
    have hz0 : 0 ≤ z := by
      by_contra hc
      have : z * d < 0 := Int.mul_neg_of_neg_of_pos (by omega) (by exact_mod_cast hd)
      omega
    have hzp : z = magUnits p := by omega
    rw [hzp] at h ⊢
    have : roundMag n d ≤ p := roundMag_le hd (by exact_mod_cast h)
    exact_mod_cast magUnits_le_iff.2 this
  · simp only [if_true] at h ⊢
    rcases Int.le_total 0 z with hz0 | hz0
    · omega
    · have hzp : z = -(magUnits p : Int) := by omega
      rw [hzp] at h ⊢
      have : p ≤ roundMag n d := le_roundMag hd hp (by
        have : ((magUnits p * d : Nat) : Int) ≤ n := by push_cast; linarith
        exact_mod_cast this)
      have := magUnits_le_iff.2 this
      omega

theorem F32.rnd_not (neg : Bool) (n d : Nat) : (F32.rnd (!neg) n d).units = -(F32.rnd neg n d).units := by
  rw [F32.units_rnd, F32.units_rnd]
  cases neg <;> simp

/-- A representable lower bound of the exact value `±n/d` bounds the rounded value. -/
theorem F32.le_units_rnd {neg : Bool} {n d : Nat} {z : Int} (hd : 0 < d) (hz : Representable z)
    (h : z * d ≤ (if neg then -(n : Int) else n)) : z ≤ (F32.rnd neg n d).units := by
  have := F32.units_rnd_le (neg := !neg) (n := n) hd (representable_neg hz)
    (by cases neg <;> simp at h ⊢ <;> linarith)
  rw [F32.rnd_not] at this
  omega

/-! ## The operators on finite operands, in units -/

theorem F32.isNaN_add {a b : F32} (ha : a.isFinite = true) (hb : b.isFinite = true) :
    (a.add b).isNaN = false := by
  unfold F32.add
  rw [F32.isNaN_of_finite ha, F32.isNaN_of_finite hb, F32.isInf_of_finite ha, F32.isInf_of_finite hb]
  simp only [Bool.or_self, Bool.false_eq_true, if_false]
  split
  · rw [F32.isNaN_eq_false_iff, F32.mag_ofSignMag (by norm_num)]; decide
  · exact F32.isNaN_rnd _ _ _

/-- The sum lies between any representable bounds of the exact sum. -/
theorem F32.units_add_le {a b : F32} {z : Int} (ha : a.isFinite = true) (hb : b.isFinite = true)
    (hz : Representable z) (h : a.units + b.units ≤ z) : (a.add b).units ≤ z := by
  unfold F32.add
  rw [F32.isNaN_of_finite ha, F32.isNaN_of_finite hb, F32.isInf_of_finite ha, F32.isInf_of_finite hb]
  simp only [Bool.or_self, Bool.false_eq_true, if_false]
  split
  · next h0 =>
    have hm : (F32.ofSignMag (a.isNeg && b.isNeg) 0).units = 0 := by
      rw [F32.units, F32.mag_ofSignMag (by norm_num)]; simp
    omega
  · next h0 =>
    refine F32.units_rnd_le (by norm_num) hz ?_
    simp only [decide_eq_true_eq]
    split <;> omega

theorem F32.le_units_add {a b : F32} {z : Int} (ha : a.isFinite = true) (hb : b.isFinite = true)
    (hz : Representable z) (h : z ≤ a.units + b.units) : z ≤ (a.add b).units := by
  unfold F32.add
  rw [F32.isNaN_of_finite ha, F32.isNaN_of_finite hb, F32.isInf_of_finite ha, F32.isInf_of_finite hb]
  simp only [Bool.or_self, Bool.false_eq_true, if_false]
  split
  · next h0 =>
    have hm : (F32.ofSignMag (a.isNeg && b.isNeg) 0).units = 0 := by
      rw [F32.units, F32.mag_ofSignMag (by norm_num)]; simp
    omega
  · next h0 =>
    refine F32.le_units_rnd (by norm_num) hz ?_
    simp only [decide_eq_true_eq]
    split <;> omega

theorem F32.isNaN_sub {a b : F32} (ha : a.isFinite = true) (hb : b.isFinite = true) :
    (a.sub b).isNaN = false := F32.isNaN_add ha (by simpa using hb)

theorem F32.units_sub_le {a b : F32} {z : Int} (ha : a.isFinite = true) (hb : b.isFinite = true)
    (hz : Representable z) (h : a.units - b.units ≤ z) : (a.sub b).units ≤ z :=
  F32.units_add_le ha (by simpa using hb) hz (by rw [F32.units_neg]; omega)

theorem F32.le_units_sub {a b : F32} {z : Int} (ha : a.isFinite = true) (hb : b.isFinite = true)
    (hz : Representable z) (h : z ≤ a.units - b.units) : z ≤ (a.sub b).units :=
  F32.le_units_add ha (by simpa using hb) hz (by rw [F32.units_neg]; omega)

theorem F32.mul_of_finite {a b : F32} (ha : a.isFinite = true) (hb : b.isFinite = true) :
    a.mul b = F32.rnd (a.isNeg != b.isNeg) (magUnits a.mag * magUnits b.mag) (2 ^ 149) := by
  unfold F32.mul
  rw [F32.isNaN_of_finite ha, F32.isNaN_of_finite hb, F32.isInf_of_finite ha, F32.isInf_of_finite hb]
  rfl

theorem F32.isNaN_mul {a b : F32} (ha : a.isFinite = true) (hb : b.isFinite = true) :
    (a.mul b).isNaN = false := by rw [F32.mul_of_finite ha hb]; exact F32.isNaN_rnd _ _ _

/-- The exact product as the signed numerator of `rnd`. -/
theorem F32.units_mul_units (a b : F32) :
    a.units * b.units = if (a.isNeg != b.isNeg) then -((magUnits a.mag * magUnits b.mag : Nat) : Int)
      else ((magUnits a.mag * magUnits b.mag : Nat) : Int) := by
  unfold F32.units
  cases a.isNeg <;> cases b.isNeg <;> simp

theorem F32.units_mul_le {a b : F32} {z : Int} (ha : a.isFinite = true) (hb : b.isFinite = true)
    (hz : Representable z) (h : a.units * b.units ≤ z * 2 ^ 149) : (a.mul b).units ≤ z := by
  rw [F32.mul_of_finite ha hb]
  refine F32.units_rnd_le (by positivity) hz ?_
  rw [← F32.units_mul_units]
  exact_mod_cast h

theorem F32.le_units_mul {a b : F32} {z : Int} (ha : a.isFinite = true) (hb : b.isFinite = true)
    (hz : Representable z) (h : z * 2 ^ 149 ≤ a.units * b.units) : z ≤ (a.mul b).units := by
  rw [F32.mul_of_finite ha hb]
  refine F32.le_units_rnd (by positivity) hz ?_
  rw [← F32.units_mul_units]
  exact_mod_cast h

theorem F32.div_of_finite {a b : F32} (ha : a.isFinite = true) (hb : b.isFinite = true) (h0 : b.isZero = false) :
    a.div b = F32.rnd (a.isNeg != b.isNeg) (magUnits a.mag * 2 ^ 149) (magUnits b.mag) := by
  unfold F32.div
  rw [F32.isNaN_of_finite ha, F32.isNaN_of_finite hb, F32.isInf_of_finite ha, F32.isInf_of_finite hb, h0]
  rfl

theorem F32.isZero_iff_units {x : F32} : x.isZero = true ↔ x.units = 0 := by
  have h := x.natAbs_units
  have h0 : magUnits x.mag = 0 ↔ x.mag = 0 := by
    constructor
    · intro h'
      by_contra hc
      have := magUnits_strictMono (Nat.pos_of_ne_zero hc)
      rw [magUnits_zero] at this
      omega
    · intro h'; rw [h', magUnits_zero]
  simp only [F32.isZero, decide_eq_true_eq]
  omega

theorem F32.units_pos_iff {x : F32} : 0 < x.units ↔ x.isNeg = false ∧ 0 < magUnits x.mag := by
  unfold F32.units
  cases x.isNeg <;> simp

/-- The quotient by a positive divisor lies between any representable bounds of the exact quotient. -/
theorem F32.units_div_le {a b : F32} {z : Int} (ha : a.isFinite = true) (hb : b.isFinite = true)
    (hpos : 0 < b.units) (hz : Representable z) (h : a.units * 2 ^ 149 ≤ z * b.units) :
    (a.div b).units ≤ z := by
  obtain ⟨hn, hm⟩ := F32.units_pos_iff.1 hpos
  have h0 : b.isZero = false := by
    rw [Bool.eq_false_iff]; intro hc; have := F32.isZero_iff_units.1 hc; omega
  rw [F32.div_of_finite ha hb h0]
  refine F32.units_rnd_le hm hz ?_
  have hbu : b.units = magUnits b.mag := by rw [F32.units, hn]; rfl
  rw [hbu] at h
  rw [hn]
  unfold F32.units at h
  cases hna : a.isNeg <;> simp [hna] at h ⊢ <;> linarith

theorem F32.le_units_div {a b : F32} {z : Int} (ha : a.isFinite = true) (hb : b.isFinite = true)
    (hpos : 0 < b.units) (hz : Representable z) (h : z * b.units ≤ a.units * 2 ^ 149) :
    z ≤ (a.div b).units := by
  obtain ⟨hn, hm⟩ := F32.units_pos_iff.1 hpos
  have h0 : b.isZero = false := by
    rw [Bool.eq_false_iff]; intro hc; have := F32.isZero_iff_units.1 hc; omega
  rw [F32.div_of_finite ha hb h0]
  refine F32.le_units_rnd hm hz ?_
  have hbu : b.units = magUnits b.mag := by rw [F32.units, hn]; rfl
  rw [hbu] at h
  rw [hn]
  unfold F32.units at h
  cases hna : a.isNeg <;> simp [hna] at h ⊢ <;> linarith

theorem F32.isNaN_div {a b : F32} (ha : a.isFinite = true) (hb : b.isFinite = true) (hpos : 0 < b.units) :
    (a.div b).isNaN = false := by
  have h0 : b.isZero = false := by
    rw [Bool.eq_false_iff]; intro hc; have := F32.isZero_iff_units.1 hc; omega
  rw [F32.div_of_finite ha hb h0]
  exact F32.isNaN_rnd _ _ _

/-! ## Comparisons and conversions -/

theorem F32.lt_iff {a b : F32} : a.lt b = true ↔ a.isNaN = false ∧ b.isNaN = false ∧ a.units < b.units := by
  simp [F32.lt, and_assoc]

theorem F32.le_iff {a b : F32} : a.le b = true ↔ a.isNaN = false ∧ b.isNaN = false ∧ a.units ≤ b.units := by
  simp [F32.le, and_assoc]

theorem F32.eq_iff {a b : F32} : a.eq b = true ↔ a.isNaN = false ∧ b.isNaN = false ∧ a.units = b.units := by
  simp [F32.eq, and_assoc]

/-- `ofInt` is exact up to 2^24. -/
theorem F32.units_ofInt {n : Int} (h : n.natAbs ≤ 2 ^ 24) : (F32.ofInt n).units = n * 2 ^ 149 := by
  obtain ⟨p, hp, he⟩ := representable_nat h
  have he' : n.natAbs * 2 ^ 149 = magUnits p := by rw [← he, Int.natAbs_mul]; rfl
  have hr : roundMag (n.natAbs * 2 ^ 149) 1 = p := by
    rw [he']; simpa using roundMag_exact (d := 1) (by norm_num) hp
  rw [F32.ofInt, F32.units_rnd, hr, ← he']
  simp only [decide_eq_true_eq]
  split
  · have : (n.natAbs : Int) = -n := by omega
    rw [Nat.cast_mul, this]; push_cast; ring
  · have : (n.natAbs : Int) = n := by omega
    rw [Nat.cast_mul, this]; push_cast; ring

theorem F32.isFinite_ofInt {n : Int} (h : n.natAbs ≤ 2 ^ 24) : (F32.ofInt n).isFinite = true := by
  rw [F32.isFinite_iff_units]
  refine ⟨F32.isNaN_rnd _ _ _, ?_⟩
  rw [F32.units_ofInt h, Int.natAbs_mul]
  have : magUnits infMag = 2 ^ 23 * 2 ^ 254 := by decide
  have h2 : ((2 : Int) ^ 149).natAbs = 2 ^ 149 := rfl
  rw [this, h2]
  calc n.natAbs * 2 ^ 149 ≤ 2 ^ 24 * 2 ^ 149 := Nat.mul_le_mul_right _ h
    _ < 2 ^ 23 * 2 ^ 254 := by norm_num

end Sys2Proof
end

