-- ==== Sys2Proof/Laws/Blep.lean ====
section
/-! SUPPORT. What one pass of an insertion and one `process` do to a corrector. -/

namespace Sys2Proof.Machine

variable {Num : Type} {L : Nat}

@[simp] theorem ringSlot_zero (pos : Fin L) : ringSlot pos 0 = pos := by
  apply Fin.ext
  simp [ringSlot, Nat.mod_eq_of_lt pos.isLt]

/-- Distinct delays below `L` use distinct slots. -/
theorem ringSlot_inj (pos : Fin L) {j k : Nat} (hj : j < L) (hk : k < L)
    (h : ringSlot pos j = ringSlot pos k) : j = k := by
  have h' : (pos.val + j) % L = (pos.val + k) % L := congrArg Fin.val h
  have hm : j ≡ k [MOD L] := Nat.ModEq.add_left_cancel' pos.val h'
  have := Nat.ModEq.eq_of_lt_of_lt hm hj hk
  exact this

/-- Every slot has a delay below `L`. -/
theorem ringSlot_surj (pos s : Fin L) : ∃ j < L, ringSlot pos j = s := by
  refine ⟨(s.val + (L - pos.val)) % L, Nat.mod_lt _ pos.pos, Fin.ext ?_⟩
  show (pos.val + (s.val + (L - pos.val)) % L) % L = s.val
  rw [Nat.add_mod, Nat.mod_mod, ← Nat.add_mod]
  have : pos.val + (s.val + (L - pos.val)) = s.val + L := by have := pos.isLt; omega
  rw [this, Nat.add_mod_right, Nat.mod_eq_of_lt s.isLt]

/-- After the cursor advances, delay `j` is what delay `j + 1` was. -/
theorem ringSlot_succ (pos : Fin L) (j : Nat) : ringSlot (ringSlot pos 1) j = ringSlot pos (j + 1) := by
  apply Fin.ext
  show ((pos.val + 1) % L + j) % L = (pos.val + (j + 1)) % L
  rw [Nat.add_mod, Nat.mod_mod, ← Nat.add_mod]
  congr 1
  omega

/-- The slot `L` ticks ahead is the current one. -/
theorem ringSlot_length (pos : Fin L) : ringSlot pos L = pos := by
  apply Fin.ext
  simp [ringSlot, Nat.mod_eq_of_lt pos.isLt]

@[simp] theorem insertAt_pos (c : Cfg Num) (p a : Num) (b : Corrector Num L) (j : Nat) :
    (insertAt c p a b j).pos = b.pos := rfl

/-- One pass changes its own slot only. -/
theorem insertAt_get (c : Cfg Num) (p a : Num) (b : Corrector Num L) (j : Nat) (s : Fin L) :
    (insertAt c p a b j).buf.get s =
      if ringSlot b.pos j = s then c.num.add (b.buf.get s) (blepTerm c p a j) else b.buf.get s := by
  simp only [insertAt, Vector.get_eq_getElem, Vector.getElem_set, Fin.ext_iff]
  split
  · next h => simp [h]
  · rfl

@[simp] theorem processBlep_pos (N : Numerics Num) (b : Corrector Num L) : (processBlep N b).2.pos = ringSlot b.pos 1 := rfl

@[simp] theorem processBlep_value (N : Numerics Num) (b : Corrector Num L) : (processBlep N b).1 = b.buf.get b.pos := rfl

/-- `process` clears the current slot and no other. -/
theorem processBlep_get (N : Numerics Num) (b : Corrector Num L) (s : Fin L) :
    (processBlep N b).2.buf.get s = if b.pos = s then N.zero else b.buf.get s := by
  simp only [processBlep, Vector.get_eq_getElem, Vector.getElem_set, Fin.ext_iff]

end Sys2Proof.Machine
end

