-- ==== Sys2Proof/Laws/Decode.lean ====
section
/-! SUPPORT. The fields of an assembled word (30_encoding.md R63), and the register and output indices are
inverse to their readings. -/

namespace Sys2Proof

section fields
variable (op : BitVec 8) (v : VoiceIdx) (r : BitVec 8) (data : Word)

theorem assemble_data : (assemble op v r data).extractLsb' 0 32 = data := by
  unfold assemble
  rw [BitVec.extractLsb'_append_eq_of_add_le (by omega)]
  simp

theorem assemble_z2 : (assemble op v r data).extractLsb' 32 8 = 0 := by
  unfold assemble
  rw [BitVec.extractLsb'_append_eq_of_le (by omega), BitVec.extractLsb'_append_eq_of_add_le (by omega)]
  simp

theorem assemble_reg : (assemble op v r data).extractLsb' 40 8 = r := by
  unfold assemble
  rw [BitVec.extractLsb'_append_eq_of_le (by omega), BitVec.extractLsb'_append_eq_of_le (by omega),
    BitVec.extractLsb'_append_eq_of_add_le (by omega)]
  simp

theorem assemble_voice : (assemble op v r data).extractLsb' 48 4 = BitVec.ofFin v := by
  unfold assemble
  rw [BitVec.extractLsb'_append_eq_of_le (by omega), BitVec.extractLsb'_append_eq_of_le (by omega),
    BitVec.extractLsb'_append_eq_of_le (by omega), BitVec.extractLsb'_append_eq_of_add_le (by omega)]
  simp

theorem assemble_z1 : (assemble op v r data).extractLsb' 52 4 = 0 := by
  unfold assemble
  rw [BitVec.extractLsb'_append_eq_of_le (by omega), BitVec.extractLsb'_append_eq_of_le (by omega),
    BitVec.extractLsb'_append_eq_of_le (by omega), BitVec.extractLsb'_append_eq_of_le (by omega),
    BitVec.extractLsb'_append_eq_of_add_le (by omega)]
  simp

theorem assemble_op : (assemble op v r data).extractLsb' 56 8 = op := by
  unfold assemble
  rw [BitVec.extractLsb'_append_eq_of_le (by omega), BitVec.extractLsb'_append_eq_of_le (by omega),
    BitVec.extractLsb'_append_eq_of_le (by omega), BitVec.extractLsb'_append_eq_of_le (by omega),
    BitVec.extractLsb'_append_eq_of_le (by omega)]
  simp

/-- The six fields of an assembled word. -/
theorem fields_assemble : Fields.ofWord (assemble op v r data) = ⟨op, 0, BitVec.ofFin v, r, 0, data⟩ := by
  unfold Fields.ofWord
  rw [assemble_op, assemble_z1, assemble_voice, assemble_reg, assemble_z2, assemble_data]

end fields

@[simp] theorem paramRegOf_index (r : ParamReg) : paramRegOf (paramRegIndex r) = r := by cases r <;> rfl

@[simp] theorem paramRegIndex_of (i : Fin 8) : paramRegIndex (paramRegOf i) = i := by
  fin_cases i <;> rfl

@[simp] theorem waveOf_index (w : Wave) : waveOf (waveIndex w) = w := by cases w <;> rfl

@[simp] theorem waveIndex_of (b : Bool) : waveIndex (waveOf b) = b := by cases b <;> rfl

end Sys2Proof
end

