-- ==== Sys2Proof/Laws/PerInstr.lean ====
section
/-! SUPPORT. The family `EncodedWord`: the word a command encodes to is well formed field by field
(30_encoding.md R64) and carries the command's opcode in bits 63:56 (R63). -/

namespace Sys2Proof.Laws.EncodedWord

/-- What the family says of a command. -/
def Statement (i : Instr) : Prop :=
  wordWellFormed (encode i) = true ∧ (Fields.ofWord (encode i)).op = opcode i

theorem nop : Statement .nop := by simp [Statement, wordWellFormed, encode, fields_assemble]; decide

theorem init (seed : Word) : Statement (.init seed) := by
  simp [Statement, wordWellFormed, encode, fields_assemble, Fields.wellFormed, opFormat, opcode, Format.usesVoice,
    Format.usesReg, Format.usesData]

theorem settune (mode : Word) : Statement (.settune mode) := by
  simp [Statement, wordWellFormed, encode, fields_assemble, Fields.wellFormed, opFormat, opcode, Format.usesVoice,
    Format.usesReg, Format.usesData]

theorem wrp (v : VoiceIdx) (r : ParamReg) (data : Word) : Statement (.wrp v r data) := by
  cases r <;> simp [Statement, wordWellFormed, encode, fields_assemble, Fields.wellFormed, opFormat, opcode,
    Format.usesVoice, Format.usesReg, Format.usesData, paramRegIndex]

theorem rdp (v : VoiceIdx) (r : ParamReg) : Statement (.rdp v r) := by
  cases r <;> simp [Statement, wordWellFormed, encode, fields_assemble, Fields.wellFormed, opFormat, opcode,
    Format.usesVoice, Format.usesReg, Format.usesData, paramRegIndex]

theorem rdo (v : VoiceIdx) (w : Wave) : Statement (.rdo v w) := by
  cases w <;> simp [Statement, wordWellFormed, encode, fields_assemble, Fields.wellFormed, opFormat, opcode,
    Format.usesVoice, Format.usesReg, Format.usesData, waveIndex]

theorem rdt : Statement .rdt := by simp [Statement, wordWellFormed, encode, fields_assemble]; decide

theorem tick (v : VoiceIdx) : Statement (.tick v) := by
  simp [Statement, wordWellFormed, encode, fields_assemble, Fields.wellFormed, opFormat, opcode, Format.usesVoice,
    Format.usesReg, Format.usesData]

end Sys2Proof.Laws.EncodedWord
end

