-- ==== Sys2Proof/Laws/State.lean ====
section
/-! SUPPORT. One lemma per field per update of State, Voice and Params, true by definition; and reading a
voice or a register back after an update. -/

namespace Sys2Proof.Machine

/-! ## The default `Numerics` and the model's configuration, field by field -/

section numerics
variable (a b : F32) (n : Int) (q : ℚ) (w : Word)

@[simp] theorem binary32_rnd : binary32.rnd q = F32.ofRat q := rfl
@[simp] theorem binary32_isNaN : binary32.isNaN a = a.isNaN := rfl
@[simp] theorem binary32_isFinite : binary32.isFinite a = a.isFinite := rfl
@[simp] theorem binary32_value : binary32.value a = a.value := rfl
@[simp] theorem binary32_neg : binary32.neg a = a.neg := rfl
@[simp] theorem binary32_add : binary32.add a b = a.add b := rfl
@[simp] theorem binary32_sub : binary32.sub a b = a.sub b := rfl
@[simp] theorem binary32_mul : binary32.mul a b = a.mul b := rfl
@[simp] theorem binary32_div : binary32.div a b = a.div b := rfl
@[simp] theorem binary32_lt : binary32.lt a b = a.lt b := rfl
@[simp] theorem binary32_le : binary32.le a b = a.le b := rfl
@[simp] theorem binary32_eq : binary32.eq a b = a.eq b := rfl
@[simp] theorem binary32_gt : binary32.gt a b = b.lt a := rfl
@[simp] theorem binary32_ge : binary32.ge a b = b.le a := rfl
@[simp] theorem binary32_floor : binary32.floor a = a.floor := rfl
@[simp] theorem binary32_ofInt : binary32.ofInt n = F32.ofInt n := rfl
@[simp] theorem binary32_numOfBits : binary32.numOfBits w = numOfBits w := rfl
@[simp] theorem binary32_bitsOfNum : binary32.bitsOfNum a = bitsOfNum a := rfl
@[simp] theorem binary32_zero : binary32.zero = F32.zero := rfl
@[simp] theorem binary32_half : binary32.half = F32.half := rfl
@[simp] theorem binary32_one : binary32.one = F32.one := rfl
@[simp] theorem binary32_two : binary32.two = F32.two := rfl

theorem binary32_frac : binary32.frac a = a.sub (F32.ofInt a.floor) := rfl

/-- `clamp` (00_scope.md R12) gives its argument or one of its bounds. -/
theorem binary32_clamp (lo hi : F32) :
    binary32.clamp a lo hi = if lo.le a then (if a.le hi then a else hi) else lo := rfl

@[simp] theorem cfg_num : cfg.num = binary32 := rfl
@[simp] theorem cfg_noise : cfg.noise = xorshift32 binary32 := rfl
theorem cfg_sinApprox : cfg.sinApprox = sinPade binary32 constants32.sine := by rw [cfg, cfgOf]
theorem cfg_blepLen : cfg.blepLen = 16 := rfl
theorem cfg_blepOvs : cfg.blepOvs = 16 := rfl
end numerics

/-- The OPEN parameters of the model meet their contract (00_scope.md R6, R7). -/
theorem cfg_open_contract :
    openDefaults.params.Contract binary32 (blepLenDefault * blepOvsDefault) := openDefaults.lawful

section fields
variable (s : State) (v : VoiceIdx) (x : Voice F32 cfg.blepLen) (d seed : Word) (r : ParamReg)

@[simp] theorem setVoice_voices : (s.setVoice v x).voices = s.voices.set v x := rfl
@[simp] theorem setVoice_tuneMode : (s.setVoice v x).tuneMode = s.tuneMode := rfl
@[simp] theorem setVoice_inputs : (s.setVoice v x).inputs = s.inputs := rfl
@[simp] theorem setVoice_rsp : (s.setVoice v x).rsp = s.rsp := rfl

@[simp] theorem respond_voices : (s.respond d).voices = s.voices := rfl
@[simp] theorem respond_voice : (s.respond d).voice v = s.voice v := rfl
@[simp] theorem respond_tuneMode : (s.respond d).tuneMode = s.tuneMode := rfl
@[simp] theorem respond_inputs : (s.respond d).inputs = s.inputs := rfl
@[simp] theorem respond_rsp : (s.respond d).rsp = some ⟨d, false⟩ := rfl

@[simp] theorem regWrite_tuneMode : (regWrite s v r d).tuneMode = s.tuneMode := rfl
@[simp] theorem regWrite_inputs : (regWrite s v r d).inputs = s.inputs := rfl
@[simp] theorem regWrite_rsp : (regWrite s v r d).rsp = s.rsp := rfl

@[simp] theorem resetAll_voices : (resetAll seed s).voices = resetVoices cfg seed := rfl
@[simp] theorem resetAll_tuneMode : (resetAll seed s).tuneMode = .fourths := rfl
@[simp] theorem resetAll_inputs : (resetAll seed s).inputs = s.inputs := rfl
@[simp] theorem resetAll_rsp : (resetAll seed s).rsp = s.rsp := rfl

@[simp] theorem hardReset_voices : (hardReset s).voices = resetVoices cfg cfg.resetSeed := rfl
@[simp] theorem hardReset_tuneMode : (hardReset s).tuneMode = .fourths := rfl
@[simp] theorem hardReset_inputs : (hardReset s).inputs = s.inputs := rfl
@[simp] theorem hardReset_rsp : (hardReset s).rsp = none := rfl

@[simp] theorem idle_voices : (idle s).voices = s.voices := rfl
@[simp] theorem idle_voice : (idle s).voice v = s.voice v := rfl
@[simp] theorem idle_tuneMode : (idle s).tuneMode = s.tuneMode := rfl
@[simp] theorem idle_inputs : (idle s).inputs = s.inputs := rfl
@[simp] theorem idle_rsp : (idle s).rsp = none := rfl

@[simp] theorem afterReserved_voices : (afterReserved s).voices = s.voices := rfl
@[simp] theorem afterReserved_tuneMode : (afterReserved s).tuneMode = s.tuneMode := rfl
@[simp] theorem afterReserved_inputs : (afterReserved s).inputs = s.inputs := rfl
@[simp] theorem afterReserved_rsp : (afterReserved s).rsp = some ⟨0, true⟩ := rfl

@[simp] theorem withFetchWord_voices (n w : Nat) : (s.withFetchWord n w).voices = s.voices := rfl
@[simp] theorem withFetchWord_tuneMode (n w : Nat) : (s.withFetchWord n w).tuneMode = s.tuneMode := rfl
@[simp] theorem withFetchWord_rsp (n w : Nat) : (s.withFetchWord n w).rsp = s.rsp := rfl
@[simp] theorem withFetchWord_inputs (n w : Nat) :
    (s.withFetchWord n w).inputs = .word (tableWord n w) :: s.inputs := rfl

end fields

/-! ## Reading back -/

theorem setVoice_voice (s : State) (v v' : VoiceIdx) (x : Voice F32 cfg.blepLen) :
    (s.setVoice v x).voice v' = if v = v' then x else s.voice v' := by
  simp only [State.voice, State.setVoice, Vector.get_eq_getElem, Vector.getElem_set, Fin.ext_iff]

@[simp] theorem setVoice_voice_same (s : State) (v : VoiceIdx) (x : Voice F32 cfg.blepLen) :
    (s.setVoice v x).voice v = x := by simp [setVoice_voice]

theorem setVoice_voice_other {v v' : VoiceIdx} (h : v ≠ v') (s : State) (x : Voice F32 cfg.blepLen) :
    (s.setVoice v x).voice v' = s.voice v' := by simp [setVoice_voice, h]

/-- Two states with the same voices, mode, inputs and response are equal. -/
theorem State.ext_voice {s t : State} (hv : ∀ v, s.voice v = t.voice v) (hm : s.tuneMode = t.tuneMode)
    (hi : s.inputs = t.inputs) (hr : s.rsp = t.rsp) : s = t := by
  have : s.voices = t.voices := by
    ext1 i hi'
    exact hv ⟨i, hi'⟩
  cases s; cases t; simp_all

@[simp] theorem Params.read_write_same (p : Params) (r : ParamReg) (d : Word) : (p.write r d).read r = d := by
  cases r <;> rfl

theorem Params.read_write_other (p : Params) {r r' : ParamReg} (h : r ≠ r') (d : Word) :
    (p.write r d).read r' = p.read r' := by
  cases r <;> cases r' <;> first | rfl | exact absurd rfl h

@[simp] theorem Params.write_write (p : Params) (r : ParamReg) (d d' : Word) :
    (p.write r d).write r d' = p.write r d' := by cases r <;> rfl

@[simp] theorem Params.write_read (p : Params) (r : ParamReg) : p.write r (p.read r) = p := by
  cases r <;> rfl

/-- Registers determine the parameter block. -/
theorem Params.ext_read {p q : Params} (h : ∀ r, p.read r = q.read r) : p = q := by
  cases p; cases q
  have h0 := h .pitch; have h1 := h .spread; have h2 := h .chaos; have h3 := h .chaosBw
  have h4 := h .density; have h5 := h .enables; have h6 := h .syncIn; have h7 := h .dt
  simp_all [Params.read]

theorem regWrite_voice (s : State) (v v' : VoiceIdx) (r : ParamReg) (d : Word) :
    (regWrite s v r d).voice v' =
      if v = v' then { s.voice v with params := (s.voice v).params.write r d } else s.voice v' := by
  rw [regWrite, setVoice_voice]

/-! ## A voice after reset, and the tick's outer layers, field by field -/

@[simp] theorem resetAll_voice (seed : Word) (s : State) (v : VoiceIdx) :
    (resetAll seed s).voice v = resetVoice cfg seed v := by
  simp [State.voice, resetVoices, Vector.get_eq_getElem]

@[simp] theorem hardReset_voice (s : State) (v : VoiceIdx) :
    (hardReset s).voice v = resetVoice cfg cfg.resetSeed v := resetAll_voice _ s v

@[simp] theorem reset_voice (v : VoiceIdx) : State.reset.voice v = resetVoice cfg cfg.resetSeed v := by
  simp [State.voice, State.reset, resetVoices, Vector.get_eq_getElem]

section voice
variable {Num : Type} (N : Numerics Num) {L : Nat} (p : WavePath Num L) (v : Voice Num L) (lt : Latch Num)
  (d : Density) (adc acc : Num)

@[simp] theorem silencePath_out : (silencePath N p).out = N.zero := rfl
@[simp] theorem silencePath_dc : (silencePath N p).dc = p.dc := rfl
@[simp] theorem silencePath_blep : (silencePath N p).blep = p.blep := rfl
@[simp] theorem silenceVoice_params : (silenceVoice N v).params = v.params := rfl
@[simp] theorem silenceVoice_phase : (silenceVoice N v).phase = v.phase := rfl
@[simp] theorem silenceVoice_lastSync : (silenceVoice N v).lastSync = v.lastSync := rfl
@[simp] theorem silenceVoice_nf : (silenceVoice N v).nf = v.nf := rfl
@[simp] theorem silenceVoice_prng : (silenceVoice N v).prng = v.prng := rfl
@[simp] theorem silenceVoice_sin : (silenceVoice N v).sin = silencePath N v.sin := rfl
@[simp] theorem silenceVoice_saw : (silenceVoice N v).saw = silencePath N v.saw := rfl

@[simp] theorem finishPath_blep : (finishPath N d adc acc p).blep = p.blep := rfl

@[simp] theorem trackSync_params : (trackSync lt v).params = v.params := by unfold trackSync; split <;> rfl
@[simp] theorem trackSync_phase : (trackSync lt v).phase = v.phase := by unfold trackSync; split <;> rfl
@[simp] theorem trackSync_nf : (trackSync lt v).nf = v.nf := by unfold trackSync; split <;> rfl
@[simp] theorem trackSync_prng : (trackSync lt v).prng = v.prng := by unfold trackSync; split <;> rfl
@[simp] theorem trackSync_sin : (trackSync lt v).sin = v.sin := by unfold trackSync; split <;> rfl
@[simp] theorem trackSync_saw : (trackSync lt v).saw = v.saw := by unfold trackSync; split <;> rfl
theorem trackSync_lastSync :
    (trackSync lt v).lastSync = if lt.syncEn then lt.cur else v.lastSync := by unfold trackSync; split <;> rfl

end voice

end Sys2Proof.Machine
end

