-- ==== Sys2Proof/Laws/Tick.lean ====
section
/-! SUPPORT. What the chaos step and one pass of the tick's loop do, field by field, and an induction
principle for the loop. -/

namespace Sys2Proof.Machine

variable {Num : Type} {L : Nat}

/-- The chaos step, both cases (43_chaos_noise_filter.md R105, R106). -/
theorem chaosStep_cases (c : Cfg Num) (lt : Latch Num) (an : Num) (v : Voice Num L) (i : SubIdx) :
    (lt.chaosOn c.num = false ∧ chaosStep c lt an v i = (c.num.zero, v)) ∨
    (lt.chaosOn c.num = true ∧ ∃ w y, w = c.noise.step v.prng ∧ y = onePole c.num (v.nf.get i) an (c.noise.sample w) ∧
      chaosStep c lt an v i = (c.num.mul y lt.chaos, { v with prng := w, nf := v.nf.set i y })) := by
  unfold chaosStep
  cases lt.chaosOn c.num
  · exact .inl ⟨rfl, rfl⟩
  · exact .inr ⟨rfl, _, _, rfl, rfl, rfl⟩

section chaos
variable (c : Cfg Num) (lt : Latch Num) (an : Num) (v : Voice Num L) (i : SubIdx)

@[simp] theorem chaosStep_params : (chaosStep c lt an v i).2.params = v.params := by
  unfold chaosStep; split <;> rfl
@[simp] theorem chaosStep_phase : (chaosStep c lt an v i).2.phase = v.phase := by
  unfold chaosStep; split <;> rfl
@[simp] theorem chaosStep_lastSync : (chaosStep c lt an v i).2.lastSync = v.lastSync := by
  unfold chaosStep; split <;> rfl
@[simp] theorem chaosStep_sin : (chaosStep c lt an v i).2.sin = v.sin := by
  unfold chaosStep; split <;> rfl
@[simp] theorem chaosStep_saw : (chaosStep c lt an v i).2.saw = v.saw := by
  unfold chaosStep; split <;> rfl
end chaos

/-- The path step: nothing for a disabled waveform (45_mixer_dcblock.md R126), one corrector otherwise. -/
theorem mixPath_cases (N : Numerics Num) (en : Bool) (raw : Num) (b : Corrector Num L → Corrector Num L) (i : SubIdx) (p : WavePath Num L)
    (acc : Num) :
    (en = false ∧ mixPath N en raw b i p acc = (acc, p)) ∨
    (en = true ∧ mixPath N en raw b i p acc =
      (N.add acc (N.add raw (processBlep N (b (p.blep.get i))).1),
        { p with blep := p.blep.set i (processBlep N (b (p.blep.get i))).2 })) := by
  unfold mixPath
  cases en
  · exact .inl ⟨rfl, rfl⟩
  · exact .inr ⟨rfl, rfl⟩

@[simp] theorem mixPath_out (N : Numerics Num) (en : Bool) (raw : Num) (b : Corrector Num L → Corrector Num L) (i : SubIdx) (p : WavePath Num L)
    (acc : Num) : (mixPath N en raw b i p acc).2.out = p.out := by unfold mixPath; split <;> rfl

@[simp] theorem mixPath_dc (N : Numerics Num) (en : Bool) (raw : Num) (b : Corrector Num L → Corrector Num L) (i : SubIdx) (p : WavePath Num L)
    (acc : Num) : (mixPath N en raw b i p acc).2.dc = p.dc := by unfold mixPath; split <;> rfl

section sub
variable (c : Cfg Num) (lt : Latch Num) (fire : Option Num) (an : Num) (x : Mix Num L) (i : SubIdx)

@[simp] theorem tickSub_params : (tickSub c lt fire an x i).voice.params = x.voice.params := by
  simp [tickSub]
@[simp] theorem tickSub_lastSync : (tickSub c lt fire an x i).voice.lastSync = x.voice.lastSync := by
  simp [tickSub]
@[simp] theorem tickSub_nf : (tickSub c lt fire an x i).voice.nf = (chaosStep c lt an x.voice i).2.nf := rfl
@[simp] theorem tickSub_prng : (tickSub c lt fire an x i).voice.prng = (chaosStep c lt an x.voice i).2.prng := rfl
@[simp] theorem tickSub_sin_out : (tickSub c lt fire an x i).voice.sin.out = x.voice.sin.out := by
  simp [tickSub]
@[simp] theorem tickSub_sin_dc : (tickSub c lt fire an x i).voice.sin.dc = x.voice.sin.dc := by
  simp [tickSub]
@[simp] theorem tickSub_saw_out : (tickSub c lt fire an x i).voice.saw.out = x.voice.saw.out := by
  simp [tickSub]
@[simp] theorem tickSub_saw_dc : (tickSub c lt fire an x i).voice.saw.dc = x.voice.saw.dc := by
  simp [tickSub]

/-- The phase write of one pass (46_tick.md R134): the committed phase of `i`, and no other. -/
theorem tickSub_phase :
    (tickSub c lt fire an x i).voice.phase =
      x.voice.phase.set i (committedPhase c.num fire
        (phaseIncrement c lt (effectivePitch c lt i (chaosStep c lt an x.voice i).1))
        (advancePhase c.num (x.voice.phase.get i)
          (phaseIncrement c lt (effectivePitch c lt i (chaosStep c lt an x.voice i).1)))) := by
  simp [tickSub]

end sub

/-- A property that every pass keeps holds after the loop. -/
theorem foldl_tickSub_induct {P : Mix Num L → Prop} (c : Cfg Num) (lt : Latch Num) (fire : Option Num) (an : Num)
    (hstep : ∀ x i, P x → P (tickSub c lt fire an x i)) :
    ∀ (l : List SubIdx) (x : Mix Num L), P x → P (l.foldl (tickSub c lt fire an) x)
  | [], _, h => h
  | i :: l, x, h => foldl_tickSub_induct c lt fire an hstep l _ (hstep x i h)

/-- The two kinds of tick (46_tick.md R133, R134). -/
theorem tickVoice_cases (c : Cfg Num) (m : TuneMode) (v : Voice Num L) :
    (v.params.sinEn = false ∧ v.params.sawEn = false ∧ tickVoice c m v = silenceVoice c.num v) ∨
    ((v.params.sinEn = true ∨ v.params.sawEn = true) ∧
      tickVoice c m v = computeTick c (latchInputs c v.params m) v) := by
  unfold tickVoice latchInputs
  cases v.params.sinEn <;> cases v.params.sawEn <;> simp

/-- A tick never writes the parameter registers (46_tick.md R131). -/
@[simp] theorem tickVoice_params (c : Cfg Num) (m : TuneMode) (v : Voice Num L) :
    (tickVoice c m v).params = v.params := by
  rcases tickVoice_cases c m v with ⟨-, -, h⟩ | ⟨-, h⟩
  · rw [h]; rfl
  · rw [h]
    exact foldl_tickSub_induct (P := fun x => x.voice.params = v.params) c _ _ _
      (fun x i hx => by simpa using hx) _ _ (by simp)

end Sys2Proof.Machine
end

