-- ==== Sys2Proof/Laws/Step.lean ====
section
/-! SUPPORT. Everything an `exec` and a `step` can do, said once. -/

namespace Sys2Proof.Machine

/-- The next state of a command, one clause per command. -/
def afterExec (i : Instr) (s : State) : State :=
  match i with
  | .nop => s.respond 0
  | .init seed => (resetAll seed s).respond 0
  | .settune mode => { s with tuneMode := tuneModeOf mode }.respond 0
  | .wrp v r data => (regWrite s v r data).respond 0
  | .rdp v r => s.respond (regRead s v r)
  | .rdo v w => s.respond (cfg.num.bitsOfNum (outRead s v w))
  | .rdt => s.respond (tuneModeBits s.tuneMode)
  | .tick v => (s.setVoice v (tickVoice cfg s.tuneMode (s.voice v))).respond 0

/-- Every command has a next state (60_exceptions.md R143). -/
theorem exec_eq_next (i : Instr) (s : State) : exec i s = .next (afterExec i s) := by
  cases i <;> rfl

theorem exec_next_iff {i : Instr} {s t : State} : exec i s = .next t ↔ t = afterExec i s := by
  rw [exec_eq_next]
  constructor
  · intro h; injection h with h; exact h.symm
  · intro h; rw [h]

/-- The three ways a step has a successor: idling, a reset cycle, a command. -/
theorem step_next_cases {s t : State} (h : step s = .next t) :
    (s.inputs = [] ∧ t = idle s) ∨
    (∃ rest, s.inputs = .rst :: rest ∧ t = hardReset { s with inputs := rest }) ∨
    (∃ w rest i, s.inputs = .word w :: rest ∧ decode w = some i ∧
      t = afterExec i { s with inputs := rest }) := by
  unfold step at h
  split at h
  · next hi => exact .inl ⟨hi, by injection h with h; exact h.symm⟩
  · next rest hi => exact .inr (.inl ⟨rest, hi, by injection h with h; exact h.symm⟩)
  · next w rest hi =>
    unfold runWord at h
    split at h
    · next i hd => exact .inr (.inr ⟨w, rest, i, hi, hd, exec_next_iff.1 h⟩)
    · cases h

/-- A property of the voices that reset establishes and every command keeps is kept by every step. -/
theorem step_keeps_voices {P : Voice F32 cfg.blepLen → Prop} {s t : State} (h : step s = .next t)
    (hs : ∀ v, P (s.voice v))
    (hreset : ∀ seed v, P (resetVoice cfg seed v))
    (hwrite : ∀ (x : Voice F32 cfg.blepLen) p, P x → P { x with params := p })
    (htick : ∀ (x : Voice F32 cfg.blepLen) m, P x → P (tickVoice cfg m x)) :
    ∀ v, P (t.voice v) := by
  rcases step_next_cases h with ⟨-, rfl⟩ | ⟨rest, -, rfl⟩ | ⟨w, rest, i, -, -, rfl⟩
  · exact hs
  · intro v; rw [hardReset_voice]; exact hreset _ v
  · intro v
    cases i with
    | nop => exact hs v
    | init seed => simpa [afterExec] using hreset seed v
    | settune mode => exact hs v
    | wrp u r data =>
      simp only [afterExec, respond_voice, regWrite_voice]
      split
      · exact hwrite _ _ (hs u)
      · exact hs v
    | rdp u r => exact hs v
    | rdo u w => exact hs v
    | rdt => exact hs v
    | tick u =>
      simp only [afterExec, respond_voice, setVoice_voice]
      split
      · exact htick _ _ (hs u)
      · exact hs v

end Sys2Proof.Machine
end

