-- ==== Sys2Proof/Tests/Slice0.lean ====
section
/-! SUPPORT. The model's own tests: expected values are those of spec/95_test_vectors.md (cited by section)
or of the rule named; then one witness for every statement that has hypotheses. -/

namespace Sys2Proof.Tests
open Sys2Proof Sys2Proof.Machine Sys2Proof.Reference

-- One theorem at a time: each of Lean's threads reserves a large stack, and a check runs under a memory limit.
set_option Elab.async false

/-! ## Helpers -/

/-- The state after a command, or the same state if it stops. -/
def after (i : Instr) (s : State) : State :=
  match exec i s with
  | .next t => t
  | _ => s

/-- A small number `n / d`. -/
def q (n : Int) (d : Nat) : F32 := F32.ofFraction n d

/-- The reset state with events waiting. -/
def waiting (es : List HostEvent) : State := { State.reset with inputs := es }

/-- The kernel of configuration `T` (95_test_vectors.md section 1.2). -/
def kernelT (n : Nat) : ℚ :=
  match n with
  | 0 => 0
  | 1 => 1 / 8
  | 2 => 1 / 2
  | 3 => 1
  | 4 => 5 / 4
  | 5 => 9 / 8
  | _ => 1

/-- Its tuning table. -/
def tuningT : TuneMode → SubIdx → ℚ
  | .fourths, i => [-1, 1, -2, 2, -3, 3, -4, 4].getD i.val 0
  | .fifths, i => [-2, 2, -4, 4, -1, 1, -3, 3].getD i.val 0

/-- Configuration `T` (section 1.2) over a `Numerics`. -/
def cfgT {Num : Type} (N : Numerics Num) (k : Constants Num) (exp2 : Num → Num) : Cfg Num :=
  { cfgOf N k
      { refFreqHz := N.rnd 256
        kernel := fun n => N.rnd (kernelT n)
        tuning := fun m i => N.rnd (tuningT m i)
        exp2 := exp2
        tickCycles := 1 } with
    blepLen := 4
    blepLen_pos := by decide
    blepOvs := 2
    dcCutoffHz := N.rnd 0 }

/-- `T` in binary32. Its vectors use `Exp2` at integers only, where every lawful `Exp2` has one value. -/
def T : Cfg F32 := cfgT binary32 constants32 exp2Floor

/-- `T` in exact arithmetic, `Exp2` at the integers its vectors use. -/
def exactT : Cfg ℚ := cfgT rationals (Constants.decimal rationals) fun x => (2 : ℚ) ^ x.floor

/-- Voice 0 of program 1 (section 3) before its first tick. -/
def voiceP1 {Num : Type} (c : Cfg Num) : Voice Num c.blepLen :=
  let v := resetVoice c 0 0
  { v with
    params := { Params.reset with pitch := 0x40800000, density := 2, enables := 2, dt := 0x37800000 }
    phase := (v.phase.set 0 (c.num.rnd (29 / 64))).set 1 (c.num.rnd (1 / 4)) }

/-- Voice 1 of program 2 (section 3) before its second tick, the corrector cursors at 0 in place of 1. -/
def voiceP2 {Num : Type} (c : Cfg Num) : Voice Num c.blepLen :=
  let v := resetVoice c 0 1
  { v with
    params := { Params.reset with
      pitch := 0x40A00000, density := 2, enables := 7, dt := 0x37800000, syncIn := 0x3F800000 }
    phase := (v.phase.set 0 (c.num.rnd (1 / 4))).set 1 (c.num.rnd (3 / 4))
    lastSync := c.num.rnd (-1) }

/-- The latch of section 2.5's chaos rows. -/
def latchChaos : Latch F32 :=
  { latchInputs T Params.reset .fourths with chaos := F32.half }

/-- A voice whose generator holds 1, for those rows. -/
def voiceChaos : Voice F32 4 := { (resetVoice T 0 0 : Voice F32 4) with prng := 1 }

/-! ## Well-formedness: one ill-formed word per check of 30_encoding.md R68 (section 2.9) -/

theorem test_wf_reserved_op : wordWellFormed 0x0800000000000000 = false := by decide
theorem test_wf_reserved_op_top : wordWellFormed 0xFF00000000000000 = false := by decide
theorem test_wf_z1 : wordWellFormed 0x0310000040800000 = false := by decide
theorem test_wf_z2 : wordWellFormed 0x0300000140800000 = false := by decide
theorem test_wf_unused_voice : wordWellFormed 0x0101000000000000 = false := by decide
theorem test_wf_unused_reg : wordWellFormed 0x0700010000000000 = false := by decide
theorem test_wf_unused_data_n : wordWellFormed 0x0600000000000001 = false := by decide
theorem test_wf_unused_data_v : wordWellFormed 0x0700000000000001 = false := by decide
theorem test_wf_unused_data_vr : wordWellFormed 0x0400000000000001 = false := by decide
theorem test_wf_reg_range_wrp : wordWellFormed 0x0300080000000000 = false := by decide
theorem test_wf_reg_range_rdo : wordWellFormed 0x0500020000000000 = false := by decide
theorem test_wf_accepts : wordWellFormed 0x030F070037BE37C6 = true := by decide
theorem test_wf_pseudo_wrf_register : (Pseudo.wrf 0 .density 1 2).wellFormed = false := by decide
theorem test_wf_pseudo_wrf_real : (Pseudo.wrf 0 .spread 1 0).wellFormed = false := by decide
theorem test_wf_pseudo_frame_zero : (Pseudo.frame 0).wellFormed = false := by decide
theorem test_wf_pseudo_frame_many : (Pseudo.frame 17).wellFormed = false := by decide

/-! ## Decoding: words written out in section 2.9 -/

theorem test_decode_nop : decode 0x0000000000000000 = some .nop := by decide
theorem test_decode_init : decode 0x0100000012345678 = some (.init 0x12345678) := by decide
theorem test_decode_settune : decode 0x0200000000000001 = some (.settune 1) := by decide
theorem test_decode_wrp : decode 0x030F070037BE37C6 = some (.wrp 15 .dt 0x37BE37C6) := by decide
theorem test_decode_rdp : decode 0x0403000000000000 = some (.rdp 3 .pitch) := by decide
theorem test_decode_rdo : decode 0x0509010000000000 = some (.rdo 9 .saw) := by decide
theorem test_decode_rdt : decode 0x0600000000000000 = some .rdt := by decide
theorem test_decode_tick : decode 0x0701000000000000 = some (.tick 1) := by decide
theorem test_decode_refuses : ([0x0800000000000000, 0xFF00000000000000, 0x0000000000000001,
    0x0101000000000000, 0x0310000040800000, 0x0300000140800000, 0x0300080000000000, 0x0400000000000001,
    0x0500020000000000, 0x0600000000000001, 0x0700010000000000, 0x0700000000000001] : List CmdWord).all
      (fun w => (decode w).isNone) = true := by decide
theorem test_encode_wrp : encode (.wrp 3 .pitch 0x40800000) = 0x0303000040800000 := by decide
theorem test_decodeTableWord : decodeTableWord 64 0x0509010000000000 = some (.rdo 9 .saw) := by decide

/-! ## Notation: 30_encoding.md R70, R71, section 2.9 -/

theorem test_pseudo_wrf : Pseudo.expand (.wrf 0 .spread 1 2) = [.wrp 0 .spread 0x3F000000] := by
  decide +kernel
theorem test_pseudo_ena : Pseudo.expand (.ena 2 false true true) = [.wrp 2 .enables 6] := by decide
theorem test_pseudo_frame : (Pseudo.expand (.frame 2)).map encode =
    [0x0700000000000000, 0x0701000000000000] := by decide
theorem test_asm_wrp : asmText (.wrp 3 .pitch 0x40800000) = "WRP v3, PITCH, 0x40800000" := by decide +kernel

theorem test_read_wrp : readLine "WRP v0, DENSITY, 2   ; 0x0300040000000002".toList =
    some [.wrp 0 .density 2] := by decide +kernel
theorem test_read_ena : readLine "ENA v2, SAW, SYNC".toList = some [.wrp 2 .enables 6] := by decide +kernel
theorem test_read_refuses : ["WRF v0, DENSITY, 2", "FRAME 17", "RDP v16, PITCH", "RDO v0, PITCH"].all
    (fun l => (readLine l.toList).isNone) = true := by decide +kernel

/-! ## Commands (section 2.10 and 40_commands.md) -/

theorem test_nop_response : (after .nop State.reset).rsp = some ⟨0, false⟩ := by decide
theorem test_init_phase : ((after (.init 0x12345678) State.reset).voice 0).phase.get 7 = ⟨0x3E678E0C⟩ := by
  decide +kernel
theorem test_init_replaced_start : (resetVoice cfg 0x9E3779B9 0).prng = 0x10AD81FB := by decide +kernel
theorem test_settune_one : (after (.settune 1) State.reset).tuneMode = .fifths := by decide
theorem test_settune_seven : (after .rdt (after (.settune 7) State.reset)).rsp = some ⟨0, false⟩ := by decide
theorem test_wrp_density : (after (.rdp 3 .density) (after (.wrp 3 .density 3) State.reset)).rsp =
    some ⟨3, false⟩ := by decide +kernel
theorem test_wrp_other_voice : (after (.rdp 4 .syncIn) (after (.wrp 3 .syncIn 0x7FC00001) State.reset)).rsp =
    some ⟨0, false⟩ := by decide +kernel
theorem test_rdp_nan_pattern : (after (.rdp 3 .syncIn) (after (.wrp 3 .syncIn 0x7FC00001) State.reset)).rsp =
    some ⟨0x7FC00001, false⟩ := by decide +kernel
theorem test_rdo_reset : (after (.rdo 5 .saw) State.reset).rsp = some ⟨0, false⟩ := by decide +kernel
theorem test_rdo_nan_canonical : bitsOfNum ⟨0xFFC12345⟩ = 0x7FC00000 := by decide
theorem test_rdt_reads_mode : (after .rdt (after (.settune 1) State.reset)).rsp = some ⟨1, false⟩ := by decide
theorem test_tick_both_off : ((after (.tick 3) (after (.wrp 3 .enables 0xFFFFFFF8) State.reset)).voice 3).phase =
    (State.reset.voice 3).phase := by decide +kernel

/-- Program 1, first tick: SAWOUT is 49/64, in exact arithmetic and in binary32. -/
theorem test_tick_program1_exact : (tickVoice exactT .fourths (voiceP1 exactT)).saw.out = 49 / 64 := by
  decide +kernel
theorem test_tick_program1 : (tickVoice T .fourths (voiceP1 T)).saw.out = ⟨0x3F440000⟩ := by decide +kernel

/-! ## Steps -/

theorem test_step_word : step (waiting [.word 0x0200000000000001]) =
    .next { waiting [] with tuneMode := .fifths, rsp := some ⟨0, false⟩ } := rfl
theorem test_step_reserved : step (waiting [.word 0x0800000000000000]) =
    .refused (.reservedWord 0x0800000000000000 ⟨0, true⟩) := rfl
theorem test_step_rst : step (waiting [.rst, .word 0]) = .next (waiting [.word 0]) := rfl
theorem test_withFetchWord : step (State.reset.withFetchWord 64 0x0600000000000000) =
    .next { State.reset with rsp := some ⟨0, false⟩ } := rfl
theorem test_afterReserved_keeps_state : (afterReserved State.reset).voices = State.reset.voices := rfl

/-! ## Units -/

theorem test_saw_wraps : sawRaw binary32 (q 33 64) = ⟨0xBF780000⟩ := by decide +kernel
theorem test_sine_zero : sinPade binary32 constants32.sine F32.zero = ⟨0xBF800268⟩ := by decide +kernel
/-- Section 2.2, exact column. -/
theorem test_sine_zero_exact :
    sinPade rationals (Constants.decimal rationals).sine 0 = -427101342650 / 427069949239 := by decide +kernel
theorem test_constant_rounded : (Constants.decimal binary32).dpMax = constants32.dpMax ∧
    (Constants.decimal binary32).sine.q3 = constants32.sine.q3 := by decide +kernel
theorem test_rational_bits : rationals.numOfBits 0x3F440000 = 49 / 64 ∧
    rationals.bitsOfNum (1 / 3) = 0x3EAAAAAB := by decide +kernel
theorem test_sine_three_sixteenths : sinPade binary32 constants32.sine (q 3 16) = ⟨0xBEC3EF16⟩ := by decide +kernel
theorem test_sync_falls_on_zero : detectSync binary32 F32.one F32.zero = some F32.one := by decide +kernel
theorem test_sync_downward : detectSync binary32 F32.one F32.one.neg = none := by decide +kernel
theorem test_increment_nan : phaseIncrement T latchChaos F32.nan = T.dpMin := by decide +kernel
theorem test_advance_wraps : advancePhase binary32 ⟨0x3F7FFFFF⟩ ⟨0x358637BD⟩ = ⟨0x35800000⟩ := by decide +kernel
theorem test_wrap_fraction : wrapFraction binary32 ⟨0x3EB33333⟩ ⟨0x3EB33333⟩ = ⟨0x3EDB6DB8⟩ := by decide +kernel
theorem test_xs32 : xs32 0x9DCCA8C5 = 0x1255994F := by decide
theorem test_noise_negative : noiseSample binary32 0x9DCCA8C5 = q (-804459) 1048576 := by decide +kernel
theorem test_coef_600 : coef T (q 600 1) ⟨0x37BE37C6⟩ = ⟨0x3DA14964⟩ := by decide +kernel
theorem test_onepole_highpass : highPass binary32 F32.one (onePole binary32 F32.zero (q 1 4) F32.one) = q 3 4 := by
  decide +kernel
theorem test_chaos_step : (chaosStep T latchChaos ⟨0x3DA14964⟩ voiceChaos 0).1 = ⟨0x36A653AF⟩ := by
  decide +kernel
theorem test_insert : (insertDiscontinuity T (⟨Vector.replicate 4 F32.zero, 3⟩ : Corrector F32 4) F32.zero
    (q (-2) 1)).buf.toList = [q 1 1, q (-1) 2, q 0 1, q 2 1] := by decide +kernel
theorem test_insert_saw_event : insertSawWrap T (q 1 2) (q 1 16)
    (⟨Vector.replicate 4 F32.zero, 0⟩ : Corrector F32 4) = ⟨Vector.replicate 4 F32.zero, 0⟩ := by decide +kernel
theorem test_sync_tick_phase : (tickVoice T .fourths (voiceP2 T)).phase.get 1 = q 1 16 := by decide +kernel
/-- Program 2, second tick: SAWOUT is 15/64, SINOUT is 0xBDEC848C. -/
theorem test_sync_tick_saw : (tickVoice T .fourths (voiceP2 T)).saw.out = ⟨0x3E700000⟩ := by decide +kernel
theorem test_sync_tick_sin : (tickVoice T .fourths (voiceP2 T)).sin.out = ⟨0xBDEC848C⟩ := by decide +kernel

/-! ## Numbers (00_scope.md R9) -/

theorem test_add_tie_to_even : (⟨0x4B800000⟩ : F32).add F32.one = ⟨0x4B800000⟩ := by decide +kernel
theorem test_mul_subnormal : (⟨0x00800000⟩ : F32).mul F32.half = ⟨0x00400000⟩ := by decide +kernel
theorem test_div_overflow : (⟨0x7F7FFFFF⟩ : F32).div F32.half = F32.inf false := by decide +kernel

/-! ## Witnesses: values that meet the hypotheses of the statements, clause by clause -/

/-- A voice with everything zero but the generator. -/
def plainVoice : Voice F32 cfg.blepLen where
  params := Params.reset
  phase := Vector.replicate 8 F32.zero
  lastSync := F32.zero
  nf := Vector.replicate 8 F32.zero
  prng := 1
  sin := WavePath.reset binary32 cfg.blepLen_pos
  saw := WavePath.reset binary32 cfg.blepLen_pos

/-- Sixteen such voices, one word waiting. -/
def plainState (w : CmdWord) : State where
  voices := Vector.replicate 16 plainVoice
  tuneMode := .fourths
  inputs := [.word w]
  rsp := none

theorem plainState_voice (w : CmdWord) (v : VoiceIdx) : (plainState w).voice v = plainVoice := by
  simp [State.voice, plainState, Vector.get_eq_getElem]

/-- The reset state with both waveforms and sync of voice 2 on. -/
def enabledState : State := after (.wrp 2 .enables 7) State.reset

theorem witness_DecodeAndEncode_row : ∃ r ∈ opRows, r.fits 0x0509010000000000 = true :=
  ⟨⟨.rdo, 0x0500000000000000, 0xFFF0FEFFFFFFFFFF⟩, by decide, by decide⟩
theorem witness_DecodeAndEncode_reserved : ∀ r ∈ opRows, r.fits 0x0700000000000001 = false := by decide
theorem witness_OpcodeRows : ∃ r ∈ opRows, ∃ r' ∈ opRows, r.fits 0x070F000000000000 = true ∧
    r'.fits 0x070F000000000000 = true :=
  ⟨⟨.tick, 0x0700000000000000, 0xFFF0FFFFFFFFFFFF⟩, by decide,
    ⟨.tick, 0x0700000000000000, 0xFFF0FFFFFFFFFFFF⟩, by decide, by decide, by decide⟩
theorem witness_ReservedWords : (waiting [.word 0x0300080000000000]).inputs =
    .word 0x0300080000000000 :: [] ∧ wordWellFormed 0x0300080000000000 = false ∧
    decode 0x0300080000000000 = none := by decide
theorem witness_ReservedWords_accepted : (waiting [.word 0x0300070000000000]).inputs =
    .word 0x0300070000000000 :: [] ∧ wordWellFormed 0x0300070000000000 = true := by decide
theorem witness_PseudoCommands_wrf : (Pseudo.wrf 15 .dt (-1) 44100).wellFormed = true ∧
    (Pseudo.wrf 0 .enables 1 2).wellFormed = false := by decide
theorem witness_PseudoCommands_frame :
    (Pseudo.frame 1).wellFormed = true ∧ (Pseudo.frame 16).wellFormed = true := by decide
theorem witness_StepRuns : (waiting [.word 0x0701000000000000, .rst]).inputs =
    .word 0x0701000000000000 :: [.rst] ∧ decode 0x0701000000000000 = some (.tick 1) := by decide
theorem witness_HardwareReset : (waiting [.rst]).inputs = .rst :: [] := rfl
theorem witness_IdleStep : State.reset.inputs = [] := rfl
theorem witness_WellFormedInput : (waiting [.word 0x0600000000000000, .rst]).inputsWellFormed ∧
    ∃ t, step (waiting [.word 0x0600000000000000, .rst]) = .next t := by
  refine ⟨fun w hw => ?_, _, rfl⟩
  simp only [waiting, List.mem_cons, HostEvent.word.injEq, reduceCtorEq, List.not_mem_nil, or_false] at hw
  subst hw
  decide
theorem witness_RdpReadsBack : (∃ t, exec (.wrp 15 .dt 0xFFFFFFFF) State.reset = .next t) ∧
    ∃ t, exec (.init 0xFFFFFFFF) State.reset = .next t := ⟨⟨_, rfl⟩, _, rfl⟩
theorem witness_RdtReadsTheMode : (∃ t, exec (.settune 1) State.reset = .next t) ∧
    ∃ t, exec (.settune 2) State.reset = .next t := ⟨⟨_, rfl⟩, _, rfl⟩
theorem witness_ReadsAndWrites : (∃ t, exec (.rdp 15 .dt) State.reset = .next t) ∧
    (∃ t, exec (.rdo 0 .sin) State.reset = .next t) ∧ (∃ t, exec .rdt State.reset = .next t) ∧
    ∃ t, exec (.wrp 0 .pitch 1) State.reset = .next t := ⟨⟨_, rfl⟩, ⟨_, rfl⟩, ⟨_, rfl⟩, _, rfl⟩
theorem witness_CommandTouches : namedVoice (.tick 15) = some 15 ∧ (0 : VoiceIdx) ≠ 15 ∧
    ∃ t, exec (.tick 15) enabledState = .next t := ⟨rfl, by decide, _, rfl⟩
theorem witness_Commands_commute : ∃ a ab b ba : State, namedVoice (.tick 2) = some 2 ∧
    namedVoice (.wrp 3 .dt 7) = some 3 ∧ (2 : VoiceIdx) ≠ 3 ∧
    exec (.tick 2) enabledState = .next a ∧ exec (.wrp 3 .dt 7) a = .next ab ∧
    exec (.wrp 3 .dt 7) enabledState = .next b ∧ exec (.tick 2) b = .next ba :=
  ⟨_, _, _, _, rfl, rfl, by decide, rfl, rfl, rfl, rfl⟩
theorem witness_AccessRights_tick : (∃ t, exec (.tick 0) State.reset = .next t) ∧
    (∀ seed, Instr.tick 0 ≠ .init seed) ∧ (∀ v r data, Instr.tick 0 ≠ .wrp v r data) ∧
    (∀ mode, Instr.tick 0 ≠ .settune mode) := ⟨⟨_, rfl⟩, nofun, nofun, nofun⟩
theorem witness_AccessRights_wrp : (∃ t, exec (.wrp 0 .dt 1) State.reset = .next t) ∧
    (∀ seed, Instr.wrp 0 .dt 1 ≠ .init seed) ∧ (∀ v, Instr.wrp 0 .dt 1 ≠ .tick v) ∧
    (∀ mode, Instr.wrp 0 .dt 1 ≠ .settune mode) := ⟨⟨_, rfl⟩, nofun, nofun, nofun⟩
theorem witness_WorkingState : ∃ s s' : State, s ≠ s' ∧ hostVisibleEq s s' ∧
    (∃ t, exec (.rdo 4 .sin) s = .next t) ∧ ∃ t, exec (.rdo 4 .sin) s' = .next t := by
  refine ⟨plainState 0, { plainState 0 with
    voices := Vector.replicate 16 { plainVoice with prng := 2 } }, ?_, ⟨rfl, fun v => ?_⟩, ⟨_, rfl⟩, _, rfl⟩
  · intro h
    have h' := congrArg (fun s : State => (s.voice 0).prng) h
    exact absurd h' (by decide +kernel)
  · constructor
    · simp [State.voice, plainState, Vector.get_eq_getElem]
    · intro w
      cases w <;> simp [outRead, Voice.path, State.voice, plainState, Vector.get_eq_getElem]
theorem witness_UnrecognisedDensity : ∃ t, exec (.wrp 3 .density 3) State.reset = .next t := ⟨_, rfl⟩
theorem witness_SilentTick : (regRead State.reset 15 .enables).getLsbD 0 = false ∧
    (regRead State.reset 15 .enables).getLsbD 1 = false := by decide +kernel
theorem witness_TickEquals_sin : (regRead (after (.wrp 2 .enables 1) State.reset) 2 .enables).getLsbD 0 =
    true := by decide +kernel
theorem witness_TickEquals_saw : (regRead (after (.wrp 2 .enables 2) State.reset) 2 .enables).getLsbD 1 =
    true := by decide +kernel
theorem witness_ComputingTick_saw_only : (voiceP1 T).params.sawEn = true ∧ (voiceP1 T).params.sinEn = false ∧
    (voiceP1 T).params.syncEn = false ∧ F32.zero.lt (numOfBits (voiceP1 T).params.chaos) = false ∧
    densityCount (effectiveDensity T (voiceP1 T).params.density) ≤ (2 : SubIdx).val := by decide +kernel
theorem witness_ComputingTick_sin_only : ∃ p : Params, p.sinEn = true ∧ p.sawEn = false ∧
    p.syncEn = true ∧ F32.zero.lt (numOfBits p.chaos) = true :=
  ⟨{ Params.reset with enables := 5, chaos := 1 }, by decide +kernel⟩
theorem witness_DisabledWaveform_sin : (5 : Word).getLsbD 0 = true ∧ (7 : Word).getLsbD 0 = true ∧
    (5 : Word).getLsbD 2 = (7 : Word).getLsbD 2 := by decide
theorem witness_DisabledWaveform_saw : (6 : Word).getLsbD 1 = true ∧ (7 : Word).getLsbD 1 = true ∧
    (6 : Word).getLsbD 2 = (7 : Word).getLsbD 2 := by decide
theorem witness_SyncResets : ((voiceP2 T).params.sinEn = true ∨ (voiceP2 T).params.sawEn = true) ∧
    (voiceP2 T).params.syncEn = true ∧
    detectSync binary32 (voiceP2 T).lastSync (numOfBits (voiceP2 T).params.syncIn) = some F32.half ∧
    (1 : SubIdx).val < densityCount (effectiveDensity cfg (voiceP2 T).params.density) := by decide +kernel
theorem witness_SyncResets_boundary : detectSync binary32 F32.one.neg (F32.ofSignMag true 0) = some F32.one := by
  decide +kernel
theorem witness_TickReads : ∃ s s' : State, s ≠ s' ∧ s.voice 0 = s'.voice 0 ∧ s.tuneMode = s'.tuneMode ∧
    (∃ t, exec (.tick 0) s = .next t) ∧ ∃ t, exec (.tick 0) s' = .next t :=
  ⟨waiting [], waiting [.rst], fun h => by simpa [waiting] using congrArg State.inputs h, rfl, rfl,
    ⟨_, rfl⟩, _, rfl⟩
theorem witness_Arithmetic : F32.half.isFinite = true ∧ F32.one.isFinite = true := by decide
theorem witness_Arithmetic_divisor : F32.one.value ≠ 0 := by
  rw [show F32.one.value = 1 from one_hasValue.2]; norm_num
theorem witness_Arithmetic_overflow : (⟨0x7F7FFFFF⟩ : F32).isFinite = true ∧
    ¬ |F32.value ⟨0x7F7FFFFF⟩ + F32.value ⟨0x7F7FFFFF⟩| < 2 ^ 128 - 2 ^ 103 := by
  refine ⟨by decide, ?_⟩
  rw [show F32.value ⟨0x7F7FFFFF⟩ = (2 ^ 24 - 1) * 2 ^ 104 by
    rw [F32.value, show F32.units ⟨0x7F7FFFFF⟩ = (2 ^ 24 - 1) * 2 ^ 253 by decide +kernel]
    norm_num]
  norm_num
theorem witness_SpecialCases : F32.one.isFinite = true ∧ F32.one.isZero = false ∧
    (F32.ofSignMag true 0).isZero = true ∧ F32.nan.isNaN = true := by decide
theorem witness_Comparisons : F32.nan.isNaN = true ∧ (F32.inf true).isNaN = false ∧
    (F32.inf false).isNaN = false := by decide
theorem witness_Clamp_bounds : F32.zero.isFinite = true ∧ F32.one.isFinite = true ∧
    F32.zero.le F32.one = true := by decide +kernel
theorem witness_Clamp_inside : F32.zero.le F32.one = true ∧ F32.one.le F32.one = true := by decide +kernel
theorem witness_Clamp_above : F32.zero.le F32.two = true ∧ F32.two.le F32.one = false := by decide +kernel
theorem witness_Clamp_below : F32.zero.le F32.one.neg = false := by decide +kernel
theorem witness_AdvancedPhase : binary32.inUnit ⟨0x3F7FFFFF⟩ ∧ cfg.dpMin.le cfg.dpMax = true ∧
    cfg.dpMax.le cfg.dpMax = true := by
  refine ⟨⟨?_, ?_⟩, ?_, ?_⟩ <;> decide +kernel
theorem witness_RawSaw : binary32.inUnit F32.zero ∧ binary32.inUnit ⟨0x3F7FFFFF⟩ := by
  refine ⟨⟨?_, ?_⟩, ?_, ?_⟩ <;> decide +kernel
theorem witness_Detector_fires : detectSync binary32 F32.one.neg F32.zero = some F32.one := by decide +kernel
theorem witness_Detector_overflow : ((⟨0x7F61B1E6⟩ : F32).sub ⟨0xFF61B1E6⟩).isFinite = false := by
  decide +kernel
theorem witness_Detector_equal : (F32.one.sub F32.one).isZero = true := by decide +kernel
theorem witness_Detector_downward : F32.one.neg.lt F32.zero = true := by decide +kernel
theorem witness_SyncFromZero : (F32.ofSignMag true 0).isZero = true := by decide
theorem witness_Xorshift : (0x80000000 : Word) ≠ 0 := by decide
theorem witness_OnePole : F32.within 1 F32.one ∧ F32.within 1 F32.one.neg ∧ F32.zero.le F32.one = true ∧
    F32.one.le F32.one = true ∧ F32.zero.isZero = true := by
  refine ⟨⟨?_, ?_⟩, ⟨?_, ?_⟩, ?_, ?_, ?_⟩ <;> decide +kernel
theorem witness_Coefficient_zero : F32.zero.lt ((cfg.twoPi.mul F32.zero).mul F32.one) = false := by
  decide +kernel
theorem witness_Coefficient_infinite : F32.zero.lt ((cfg.twoPi.mul ⟨0x7F61B1E6⟩).mul F32.one) = true ∧
    ((cfg.twoPi.mul ⟨0x7F61B1E6⟩).mul F32.one).isFinite = false := by decide +kernel
theorem witness_Coefficient_finite : F32.zero.lt ((cfg.twoPi.mul F32.one).mul F32.one) = true ∧
    ((cfg.twoPi.mul F32.one).mul F32.one).isFinite = true := by decide +kernel
theorem witness_Chaos_off : F32.zero.lt ({ latchChaos with chaos := F32.nan } : Latch F32).chaos = false := by
  decide +kernel
theorem witness_Chaos_on : F32.zero.lt latchChaos.chaos = true ∧ (1 : SubIdx) ≠ 0 := by decide +kernel
theorem witness_Kernel : (-1 : Int) < 0 ∧ 255 < cfg.blepLen * cfg.blepOvs ∧
    cfg.blepLen * cfg.blepOvs ≤ 256 := by decide
theorem witness_Kernel_time : F32.isFinite ⟨0x41800000⟩ = true ∧ 0 ≤ F32.value ⟨0x41800000⟩ ∧
    F32.value ⟨0x41800000⟩ ≤ cfg.blepLen := by
  rw [show F32.value ⟨0x41800000⟩ = 16 by
    rw [F32.value, show F32.units ⟨0x41800000⟩ = 16 * 2 ^ 149 by decide +kernel]
    norm_num]
  exact ⟨by decide, by norm_num, by rw [cfg_blepLen]; norm_num⟩
theorem witness_Insertion : 3 < 4 ∧ (⟨Vector.replicate 4 F32.zero, 3⟩ : Corrector F32 4).pos = 3 := by decide
theorem witness_Process : (0 : Fin 4) ≠ (⟨Vector.replicate 4 F32.zero, 3⟩ : Corrector F32 4).pos := by decide
theorem witness_ResetMeets : ∃ t, exec (.init 0x9E3779B9) State.reset = .next t := ⟨_, rfl⟩

theorem inUnit_zero : binary32.inUnit F32.zero := by constructor <;> decide +kernel

theorem within_zero (b : Nat) : F32.within b F32.zero :=
  ⟨by decide, by rw [show F32.zero.units = 0 by decide]; simp⟩

theorem pathInv_reset : PathInv (WavePath.reset binary32 cfg.blepLen_pos) where
  out_finite := by decide
  dc_within := within_zero _
  ring_within i j _ := by
    simpa [WavePath.reset, Corrector.reset, Vector.get_eq_getElem] using within_zero _

/-- A state that meets the invariant and steps: the premises of the invariant statements. -/
theorem witness_EveryStep : (plainState 0x0703000000000000).Inv ∧
    ∃ t, step (plainState 0x0703000000000000) = .next t := by
  refine ⟨fun v => ?_, _, rfl⟩
  rw [plainState_voice]
  exact
    { phase_unit := fun i => by simpa [plainVoice, Vector.get_eq_getElem] using inUnit_zero
      nf_within := fun i => by simpa [plainVoice, Vector.get_eq_getElem] using within_zero 1
      prng_ne_zero := by decide
      sin_inv := pathInv_reset
      saw_inv := pathInv_reset }

end Sys2Proof.Tests
end

/-! Comparisons (00_scope.md R10) and `clamp` (R12). A comparison of the model is one of integers, the units
of 2^-149; `extOfUnits` carries that order over to the extended reals the rules speak of. -/

namespace Sys2Proof
open Machine Reference

/-! ## The extended real a unit count stands for -/

/-- The extended real of a unit count: an infinity at the two ends of the scale, where the model's unit count
of an infinity lies, and the exact value between them. -/
def extOfUnits (z : Int) : WithBot (WithTop ℚ) :=
  if z = -(magUnits infMag : Int) then ⊥
  else if z = magUnits infMag then ((⊤ : WithTop ℚ) : WithBot (WithTop ℚ))
  else (((z : ℚ) / 2 ^ 149 : ℚ) : WithTop ℚ)

theorem magUnits_infMag_pos : 0 < magUnits infMag := magUnits_strictMono (show 0 < infMag by decide)

theorem F32.units_mem_Icc {x : F32} (h : x.isNaN = false) :
    x.units ∈ Set.Icc (-(magUnits infMag : Int)) (magUnits infMag) := by
  have hle : x.units.natAbs ≤ magUnits infMag := by
    rw [F32.natAbs_units, magUnits_le_iff]
    exact F32.isNaN_eq_false_iff.1 h
  rw [Set.mem_Icc]
  omega

theorem extOfUnits_strictMonoOn :
    StrictMonoOn extOfUnits (Set.Icc (-(magUnits infMag : Int)) (magUnits infMag)) := by
  intro y hy z hz hlt
  have hyTop : y ≠ magUnits infMag := (hlt.trans_le hz.2).ne
  have hzBot : z ≠ -(magUnits infMag : Int) := (hy.1.trans_lt hlt).ne'
  have hval : (y : ℚ) / 2 ^ 149 < (z : ℚ) / 2 ^ 149 := by gcongr
  unfold extOfUnits
  rw [if_neg hyTop, if_neg hzBot]
  split
  · split
    · exact WithBot.bot_lt_coe _
    · exact WithBot.bot_lt_coe _
  · split
    · exact WithBot.coe_lt_coe.2 (WithTop.coe_lt_top _)
    · exact WithBot.coe_lt_coe.2 (WithTop.coe_lt_coe.2 hval)

theorem F32.units_of_isInf {x : F32} (h : x.isInf = true) :
    x.units = if x.isNeg then -(magUnits infMag : Int) else magUnits infMag := by
  rw [F32.units, F32.isInf_iff.1 h]

theorem extValue_eq_extOfUnits {x : F32} (h : x.isNaN = false) : extValue x = extOfUnits x.units := by
  have hpos := magUnits_infMag_pos
  unfold extValue extOfUnits
  cases hinf : x.isInf with
  | true =>
    rw [F32.units_of_isInf hinf]
    have htop : (magUnits infMag : Int) ≠ -(magUnits infMag : Int) := by omega
    cases x.isNeg with
    | true => simp
    | false => simp [htop]
  | false =>
    have hmag : x.mag ≠ infMag := of_decide_eq_false hinf
    have hfin : x.isFinite = true :=
      F32.isFinite_iff.2 (lt_of_le_of_ne (F32.isNaN_eq_false_iff.1 h) hmag)
    have hlt := (F32.isFinite_iff_units.1 hfin).2
    rw [if_neg (by simp), if_neg (by omega), if_neg (by omega), F32.value]

/-! ## Comparisons -/

section
variable {a b : F32} (ha : a.isNaN = false) (hb : b.isNaN = false)
include ha hb

theorem F32.lt_iff_extValue : a.lt b = true ↔ extValue a < extValue b := by
  rw [extValue_eq_extOfUnits ha, extValue_eq_extOfUnits hb,
    extOfUnits_strictMonoOn.lt_iff_lt (F32.units_mem_Icc ha) (F32.units_mem_Icc hb), F32.lt_iff]
  simp [ha, hb]

theorem F32.le_iff_extValue : a.le b = true ↔ extValue a ≤ extValue b := by
  rw [extValue_eq_extOfUnits ha, extValue_eq_extOfUnits hb,
    extOfUnits_strictMonoOn.le_iff_le (F32.units_mem_Icc ha) (F32.units_mem_Icc hb), F32.le_iff]
  simp [ha, hb]

theorem F32.eq_iff_extValue : a.eq b = true ↔ extValue a = extValue b := by
  rw [extValue_eq_extOfUnits ha, extValue_eq_extOfUnits hb,
    extOfUnits_strictMonoOn.injOn.eq_iff (F32.units_mem_Icc ha) (F32.units_mem_Icc hb), F32.eq_iff]
  simp [ha, hb]

end

section
variable {a b : F32} (h : a.isNaN = true ∨ b.isNaN = true)
include h

theorem F32.not_lt_of_isNaN : a.lt b = false := by
  rcases h with h | h <;> simp [F32.lt, h]

theorem F32.not_le_of_isNaN : a.le b = false := by
  rcases h with h | h <;> simp [F32.le, h]

theorem F32.not_eq_of_isNaN : a.eq b = false := by
  rcases h with h | h <;> simp [F32.eq, h]

end

/-- Settles O33: on data that are no NaN the unit count and the extended real have the same order, and each
comparison of the model tests for a NaN first. -/
theorem comparisonsAreRealAndFalseOnNaN : Obligations.ComparisonsAreRealAndFalseOnNaN := by
  refine ⟨fun a b h => ?_, fun a b ha hb => ?_, by decide⟩
  · exact ⟨F32.not_lt_of_isNaN h, F32.not_le_of_isNaN h, F32.not_lt_of_isNaN h.symm, F32.not_le_of_isNaN h.symm,
      F32.not_eq_of_isNaN h⟩
  · exact ⟨F32.lt_iff_extValue ha hb, F32.le_iff_extValue ha hb, F32.lt_iff_extValue hb ha,
      F32.le_iff_extValue hb ha, F32.eq_iff_extValue ha hb⟩

/-! ## `clamp` -/

section
variable {x lo hi : F32}

theorem clamp_of_le_of_le (hlo : lo.le x = true) (hhi : x.le hi = true) : binary32.clamp x lo hi = x := by
  rw [binary32_clamp, if_pos hlo, if_pos hhi]

theorem clamp_of_not_le_hi (hlo : lo.le x = true) (hhi : x.le hi = false) :
    binary32.clamp x lo hi = hi := by
  simp [binary32_clamp, hlo, hhi]

theorem clamp_of_not_lo_le (hlo : lo.le x = false) : binary32.clamp x lo hi = lo := by
  simp [binary32_clamp, hlo]

theorem F32.units_inf (neg : Bool) :
    (F32.inf neg).units = if neg then -(magUnits infMag : Int) else magUnits infMag := by
  rw [F32.inf, F32.units, F32.isNeg_ofSignMag infMag_lt, F32.mag_ofSignMag infMag_lt]

theorem F32.isNaN_inf (neg : Bool) : (F32.inf neg).isNaN = false := by cases neg <;> decide

theorem F32.le_refl (h : x.isNaN = false) : x.le x = true := F32.le_iff.2 ⟨h, h, Int.le_refl _⟩

theorem F32.not_le_of_units_lt (h : hi.units < x.units) : x.le hi = false := by
  rw [Bool.eq_false_iff]
  intro hle
  obtain ⟨-, -, hu⟩ := F32.le_iff.1 hle
  exact absurd hu (not_le.2 h)

theorem F32.not_le_negInf (h : x.isFinite = true) : x.le (F32.inf true) = false := by
  have hx := (F32.isFinite_iff_units.1 h).2
  refine F32.not_le_of_units_lt ?_
  rw [F32.units_inf, if_pos rfl]
  omega

theorem F32.le_posInf (h : x.isNaN = false) : x.le (F32.inf false) = true := by
  refine F32.le_iff.2 ⟨h, F32.isNaN_inf _, ?_⟩
  rw [F32.units_inf]
  exact (F32.units_mem_Icc h).2

theorem F32.not_posInf_le (h : x.isFinite = true) : (F32.inf false).le x = false := by
  have hx := (F32.isFinite_iff_units.1 h).2
  refine F32.not_le_of_units_lt ?_
  rw [F32.units_inf, if_neg (by simp)]
  omega

theorem F32.isFinite_of_le_of_le (hlo : lo.isFinite = true) (hhi : hi.isFinite = true)
    (h₁ : lo.le x = true) (h₂ : x.le hi = true) : x.isFinite = true := by
  have hl := (F32.isFinite_iff_units.1 hlo).2
  have hh := (F32.isFinite_iff_units.1 hhi).2
  obtain ⟨-, hx, hlx⟩ := F32.le_iff.1 h₁
  obtain ⟨-, -, hxh⟩ := F32.le_iff.1 h₂
  exact F32.isFinite_iff_units.2 ⟨hx, by omega⟩

/-- The band of R12, whatever the argument. -/
theorem clamp_mem_band (hlo : lo.isFinite = true) (hhi : hi.isFinite = true) (h : lo.le hi = true) :
    (binary32.clamp x lo hi).isFinite = true ∧ lo.le (binary32.clamp x lo hi) = true ∧
      (binary32.clamp x lo hi).le hi = true := by
  cases hl : lo.le x with
  | false =>
    rw [clamp_of_not_lo_le hl]
    exact ⟨hlo, F32.le_refl (F32.isNaN_of_finite hlo), h⟩
  | true =>
    cases hh : x.le hi with
    | false =>
      rw [clamp_of_not_le_hi hl hh]
      exact ⟨hhi, h, F32.le_refl (F32.isNaN_of_finite hhi)⟩
    | true =>
      rw [clamp_of_le_of_le hl hh]
      exact ⟨F32.isFinite_of_le_of_le hlo hhi hl hh, hl, hh⟩

end

/-- Settles O34: the special arguments fall under the three cases of `clamp`, since a NaN and minus
infinity are not above a finite `lo`, and plus infinity is above it and not below a finite `hi`. -/
theorem clampIsAlwaysInTheBand : Obligations.ClampIsAlwaysInTheBand := by
  intro x lo hi hlo hhi h
  refine ⟨clamp_of_le_of_le, clamp_of_not_le_hi, clamp_of_not_lo_le, fun hnan => ?_, ?_, ?_,
    clamp_mem_band hlo hhi h⟩
  · exact clamp_of_not_lo_le (F32.not_le_of_isNaN (.inr hnan))
  · rintro rfl
    exact clamp_of_not_lo_le (F32.not_le_negInf hlo)
  · rintro rfl
    exact clamp_of_not_le_hi (F32.le_posInf (F32.isNaN_of_finite hlo)) (F32.not_posInf_le hhi)

end Sys2Proof

/-! The stored density (10_state.md R23). A tick uses the parameter registers only through its input latch
(46_tick.md R132), so two register blocks with the same latch run the same tick; the stored density and the
effective density are such a pair. -/

namespace Sys2Proof
open Machine

section
variable {Num : Type} {L : Nat} (c : Cfg Num)

/-! ## A tick under other parameter registers -/

/-- The loop's state with the voice's parameter registers replaced. -/
def Machine.Mix.withParams (p : Params) (x : Mix Num L) : Mix Num L :=
  { x with voice := { x.voice with params := p } }

section params
variable (lt : Latch Num) (an : Num) (v : Voice Num L) (p : Params)

theorem trackSync_withParams :
    trackSync lt { v with params := p } = { trackSync lt v with params := p } := by
  unfold trackSync
  split <;> rfl

theorem chaosStep_withParams (i : SubIdx) :
    chaosStep c lt an { v with params := p } i =
      ((chaosStep c lt an v i).1, { (chaosStep c lt an v i).2 with params := p }) := by
  unfold chaosStep
  split <;> rfl

theorem tickSub_withParams (fire : Option Num) (x : Mix Num L) (i : SubIdx) :
    tickSub c lt fire an (x.withParams p) i = (tickSub c lt fire an x i).withParams p := by
  simp only [tickSub, Mix.withParams, chaosStep_withParams]

theorem foldl_tickSub_withParams (fire : Option Num) (l : List SubIdx) (x : Mix Num L) :
    l.foldl (tickSub c lt fire an) (x.withParams p) =
      (l.foldl (tickSub c lt fire an) x).withParams p :=
  List.foldl_hom (Mix.withParams p) (tickSub_withParams c lt an p fire)

/-- Past the latch, the computation carries the parameter registers along unread. -/
theorem computeTick_withParams :
    computeTick c lt { v with params := p } = { computeTick c lt v with params := p } := by
  have hfold := foldl_tickSub_withParams c lt (coef c lt.bw lt.dt) p (syncFire c.num lt v)
    (activeSubs lt.density) ⟨trackSync lt v, c.num.zero, c.num.zero⟩
  have hfire : syncFire c.num lt { v with params := p } = syncFire c.num lt v := rfl
  simp only [Mix.withParams] at hfold
  simp only [computeTick, trackSync_withParams, hfire, hfold]

end params

/-- Register blocks with the same latch run the same tick, but for the registers themselves. -/
theorem tickVoice_of_latchInputs_eq {m : TuneMode} {p q : Params}
    (h : latchInputs c p m = latchInputs c q m) (v : Voice Num L) :
    tickVoice c m { v with params := p } =
      { tickVoice c m { v with params := q } with params := p } := by
  simp only [tickVoice, h]
  split
  · rfl
  · simp only [computeTick_withParams]

/-! ## The effective density -/

/-- A recognised count is its own effective density, whatever the fallback. -/
@[simp] theorem effectiveDensity_densityCount (d : Density) :
    effectiveDensity c (BitVec.ofNat 32 (densityCount d)) = d := by
  cases d <;> simp [effectiveDensity, densityCount]

theorem latchInputs_effectiveDensity (p : Params) (b : Word) (m : TuneMode) :
    latchInputs c { p with density := b } m =
      latchInputs c { p with density := BitVec.ofNat 32 (densityCount (effectiveDensity c b)) } m := by
  simp only [latchInputs, effectiveDensity_densityCount]
  rfl

end

theorem densityCount_effectiveDensity (b : Word) :
    densityCount (effectiveDensity cfg b) = if b = 2 then 2 else if b = 4 then 4 else 8 := by
  have hfallback : cfg.densityFallback = .eight := rfl
  unfold effectiveDensity
  rw [hfallback, ite_self]
  split_ifs <;> rfl

/-- A register write is read back raw (10_state.md R21). -/
theorem regRead_regWrite_same (s : State) (v : VoiceIdx) (r : ParamReg) (b : Word) :
    regRead (regWrite s v r b) v r = b := by
  simp [regRead, regWrite]

/-- Settles O24: the density written back as its effective count gives the same latch, hence the same tick. -/
theorem unrecognisedDensityIsEight : Obligations.UnrecognisedDensityIsEight := by
  refine ⟨densityCount_effectiveDensity, by rw [densityCount_effectiveDensity]; decide, ?_, ?_⟩
  · intro v b s t h
    rw [exec_next_iff.1 h]
    exact regRead_regWrite_same s v .density b
  · intro L m v b
    exact tickVoice_of_latchInputs_eq cfg (latchInputs_effectiveDensity cfg v.params b m) v

end Sys2Proof

/-! The encoding of a command word (30_encoding.md R63 to R68). A word is its six fields; a row of the opcode
map fixes exactly the fields its format does not use, so that a row fits a word if and only if the word is
well formed and has the row's opcode. Decoding, encoding and the reserved words follow from that one fact. -/

namespace Sys2Proof
open Machine Reference

/-! ## A word is its fields -/

namespace Fields

/-- The word of six fields (R63). -/
def toWord (f : Fields) : CmdWord := f.op ++ f.z1 ++ f.voice ++ f.reg ++ f.z2 ++ f.data

theorem toWord_ofWord (w : CmdWord) : (ofWord w).toWord = w := by
  simp only [toWord, ofWord]
  rw [BitVec.extractLsb'_append_extractLsb'_eq_extractLsb' (by rfl),
    BitVec.extractLsb'_append_extractLsb'_eq_extractLsb' (by rfl),
    BitVec.extractLsb'_append_extractLsb'_eq_extractLsb' (by rfl),
    BitVec.extractLsb'_append_extractLsb'_eq_extractLsb' (by rfl),
    BitVec.extractLsb'_append_extractLsb'_eq_extractLsb' (by rfl), BitVec.extractLsb'_eq_self]

theorem ofWord_injective : Function.Injective ofWord :=
  Function.LeftInverse.injective toWord_ofWord

/-- The conjunction of two words, field by field. -/
def and (f g : Fields) : Fields :=
  ⟨f.op &&& g.op, f.z1 &&& g.z1, f.voice &&& g.voice, f.reg &&& g.reg, f.z2 &&& g.z2, f.data &&& g.data⟩

theorem ofWord_and (w m : CmdWord) : ofWord (w &&& m) = (ofWord w).and (ofWord m) := by
  simp only [ofWord, and, BitVec.extractLsb'_and]

end Fields

/-- What a format reads of a word: the opcode and the fields it uses (R64), zero for the rest. -/
def Format.keep (fmt : Format) (f : Fields) : Fields where
  op := f.op
  z1 := 0
  voice := if fmt.usesVoice then f.voice else 0
  reg := if fmt.usesReg then f.reg else 0
  z2 := 0
  data := if fmt.usesData then f.data else 0

/-- R68's list for an opcode in use: the format keeps the whole word, and the register index is in range. -/
theorem Fields.wellFormed_iff {f : Fields} {fmt : Format} {maxReg : Nat}
    (h : opFormat f.op = some (fmt, maxReg)) :
    f.wellFormed = true ↔ f = fmt.keep f ∧ (fmt.usesReg = true → f.reg.toNat ≤ maxReg) := by
  obtain ⟨op, z1, voice, reg, z2, data⟩ := f
  cases fmt <;> simp [wellFormed, h, Format.keep, Format.usesVoice, Format.usesReg, Format.usesData,
    and_assoc, and_comm, and_left_comm]

/-! ## The rows of the opcode map, by fields -/

/-- The opcode of a row (R66). -/
def OpRow.opcode (r : OpRow) : BitVec 8 := (Fields.ofWord r.pattern).op

/-- How a mask comes out of the format (R66): a bit is fixed unless the format uses its field, and of the
register field the bits of the largest index are free. -/
def maskFields (fmt : Format) (maxReg : Nat) : Fields where
  op := BitVec.allOnes 8
  z1 := BitVec.allOnes 4
  voice := if fmt.usesVoice then 0 else BitVec.allOnes 4
  reg := if fmt.usesReg then ~~~(BitVec.ofNat 8 maxReg) else BitVec.allOnes 8
  z2 := BitVec.allOnes 8
  data := if fmt.usesData then 0 else BitVec.allOnes 32

/-- The largest register indices are all ones below their top bit, so a mask can bound the index. -/
theorem and_not_maxReg_eq_zero {maxReg : Nat} (h : maxReg ∈ [0, 1, 7]) (r : BitVec 8) :
    r &&& ~~~(BitVec.ofNat 8 maxReg) = 0 ↔ r.toNat ≤ maxReg := by
  revert r maxReg
  decide

/-- R66's table against R64's: the match of every row is its opcode alone, and its mask its format's. -/
theorem opRows_layout : ∀ r ∈ opRows, Fields.ofWord r.pattern = ⟨r.opcode, 0, 0, 0, 0, 0⟩ ∧
    ∃ p ∈ opFormat r.opcode, p.2 ∈ [0, 1, 7] ∧ Fields.ofWord r.mask = maskFields p.1 p.2 := by
  decide

theorem opRows_opcode_injective : ∀ r ∈ opRows, ∀ r' ∈ opRows, r.opcode = r'.opcode → r = r' := by
  decide

theorem exists_opRow_of_opFormat {op : BitVec 8} {p : Format × Nat} (h : opFormat op = some p) :
    ∃ r ∈ opRows, r.opcode = op := by
  by_contra hnone
  have hop : op ∉ opRows.map OpRow.opcode := fun hmem => hnone (List.mem_map.1 hmem)
  rw [show opRows.map OpRow.opcode = [0, 1, 2, 3, 4, 5, 6, 7] by decide] at hop
  simp only [List.mem_cons, List.not_mem_nil, or_false, not_or] at hop
  simp only [opFormat, hop, if_false, reduceCtorEq] at h

/-- A word masked by a format is an opcode alone if and only if it has that opcode and meets R68's list. -/
theorem Fields.and_maskFields_eq_iff {f : Fields} {op : BitVec 8} {fmt : Format} {maxReg : Nat}
    (hfmt : opFormat op = some (fmt, maxReg)) (hmax : maxReg ∈ [0, 1, 7]) :
    f.and (maskFields fmt maxReg) = ⟨op, 0, 0, 0, 0, 0⟩ ↔ f.op = op ∧ f.wellFormed = true := by
  by_cases hop : f.op = op
  · subst hop
    have hreg := and_not_maxReg_eq_zero hmax f.reg
    rw [wellFormed_iff hfmt]
    obtain ⟨op, z1, voice, reg, z2, data⟩ := f
    simp only [BitVec.ofNat_eq_ofNat] at hreg
    cases fmt <;> simp [and, maskFields, Format.keep, Format.usesVoice, Format.usesReg, Format.usesData,
      hreg, and_assoc, and_comm, and_left_comm, -BitVec.reduceAllOnes]
  · simp [and, maskFields, hop, -BitVec.reduceAllOnes]

theorem OpRow.fits_iff {r : OpRow} (hr : r ∈ opRows) (w : CmdWord) :
    r.fits w = true ↔ (Fields.ofWord w).op = r.opcode ∧ wordWellFormed w = true := by
  obtain ⟨hpattern, ⟨fmt, maxReg⟩, hfmt, hmax, hmask⟩ := opRows_layout r hr
  rw [OpRow.fits, beq_iff_eq, ← Fields.ofWord_injective.eq_iff, Fields.ofWord_and, hmask, hpattern,
    Fields.and_maskFields_eq_iff hfmt hmax]
  rfl

theorem opRow_eq_of_fits {r r' : OpRow} {w : CmdWord} (hr : r ∈ opRows) (hr' : r' ∈ opRows)
    (h : r.fits w = true) (h' : r'.fits w = true) : r = r' := by
  obtain ⟨hop, -⟩ := (OpRow.fits_iff hr w).1 h
  obtain ⟨hop', -⟩ := (OpRow.fits_iff hr' w).1 h'
  exact opRows_opcode_injective r hr r' hr' (hop.symm.trans hop')

/-- A word fits a row if and only if it meets R68's list: the rows leave no well-formed word out. -/
theorem exists_fits_iff {w : CmdWord} : (∃ r ∈ opRows, r.fits w = true) ↔ wordWellFormed w = true := by
  constructor
  · rintro ⟨r, hr, h⟩
    exact ((OpRow.fits_iff hr w).1 h).2
  · intro h
    cases hop : opFormat (Fields.ofWord w).op with
    | none => simp [wordWellFormed, Fields.wellFormed, hop] at h
    | some p =>
      obtain ⟨r, hr, hrop⟩ := exists_opRow_of_opFormat hop
      exact ⟨r, hr, (OpRow.fits_iff hr w).2 ⟨hrop.symm, h⟩⟩

/-! ## The decoder, by rows -/

theorem mem_and_fits_of_find? {w : CmdWord} {r : OpRow} (h : opRows.find? (OpRow.fits · w) = some r) :
    r ∈ opRows ∧ r.fits w = true :=
  ⟨List.mem_of_find?_eq_some h, List.find?_some (p := (OpRow.fits · w)) h⟩

theorem decode_eq_some_iff {w : CmdWord} {i : Instr} :
    decode w = some i ↔ ∃ r ∈ opRows, r.fits w = true ∧ commandOf r.mnemonic w = i := by
  rw [decode, Option.map_eq_some_iff]
  constructor
  · rintro ⟨r, hfind, hi⟩
    obtain ⟨hr, hfits⟩ := mem_and_fits_of_find? hfind
    exact ⟨r, hr, hfits, hi⟩
  · rintro ⟨r, hr, hfits, hi⟩
    have hsome : (opRows.find? (OpRow.fits · w)).isSome := List.find?_isSome.2 ⟨r, hr, hfits⟩
    obtain ⟨r', hfind⟩ := Option.isSome_iff_exists.1 hsome
    obtain ⟨hr', hfits'⟩ := mem_and_fits_of_find? hfind
    obtain rfl := opRow_eq_of_fits hr hr' hfits hfits'
    exact ⟨r, hfind, hi⟩

theorem decode_eq_none_iff {w : CmdWord} : decode w = none ↔ ∀ r ∈ opRows, r.fits w = false := by
  simp [decode]

theorem decode_eq_none_iff_wordWellFormed {w : CmdWord} : decode w = none ↔ wordWellFormed w = false := by
  rw [decode_eq_none_iff, ← Bool.not_eq_true (wordWellFormed w), ← exists_fits_iff]
  simp

/-! ## The operands, by fields -/

section operands
variable (w : CmdWord)

theorem voiceField_eq : voiceField w = (Fields.ofWord w).voice.toFin := rfl

theorem dataField_eq : dataField w = (Fields.ofWord w).data := rfl

theorem regField_eq : regField w = ((Fields.ofWord w).reg.extractLsb' 0 3).toFin := by
  simp only [regField, Fields.ofWord]
  congr 1
  ext i hi
  simp; omega

theorem outField_eq : outField w = (Fields.ofWord w).reg.getLsbD 0 := by
  simp [outField, Fields.ofWord]

end operands

theorem fields_encode (i : Instr) : Fields.ofWord (encode i) = operandFields i := by
  cases i <;> exact fields_assemble _ _ _ _

theorem encode_wellFormed (i : Instr) :
    wordWellFormed (encode i) = true ∧ (Fields.ofWord (encode i)).op = opcode i :=
  match i with
  | .nop => Laws.EncodedWord.nop
  | .init seed => Laws.EncodedWord.init seed
  | .settune mode => Laws.EncodedWord.settune mode
  | .wrp v r data => Laws.EncodedWord.wrp v r data
  | .rdp v r => Laws.EncodedWord.rdp v r
  | .rdo v w => Laws.EncodedWord.rdo v w
  | .rdt => Laws.EncodedWord.rdt
  | .tick v => Laws.EncodedWord.tick v

/-- The register index and its three free bits (R66): inverse in range. -/
theorem regIndex_lowBits (i : Fin 8) : ((BitVec.ofNat 8 i.val).extractLsb' 0 3).toFin = i := by
  revert i
  decide

theorem regIndex_regField {w : CmdWord} (h : (Fields.ofWord w).reg.toNat ≤ 7) :
    BitVec.ofNat 8 (regField w).val = (Fields.ofWord w).reg := by
  rw [regField_eq]
  generalize (Fields.ofWord w).reg = r at h
  revert r
  decide

/-- The output index and its one free bit (R66): inverse in range. -/
theorem outIndex_lowBit (b : Bool) : (BitVec.ofNat 8 b.toNat).getLsbD 0 = b := by
  cases b <;> rfl

theorem outIndex_outField {w : CmdWord} (h : (Fields.ofWord w).reg.toNat ≤ 1) :
    BitVec.ofNat 8 (outField w).toNat = (Fields.ofWord w).reg := by
  rw [outField_eq]
  generalize (Fields.ofWord w).reg = r at h
  revert r
  decide

/-- The mnemonic of a command (R66). -/
def Instr.mnemonic : Instr → Mnemonic
  | .nop => .nop
  | .init _ => .init
  | .settune _ => .settune
  | .wrp _ _ _ => .wrp
  | .rdp _ _ => .rdp
  | .rdo _ _ => .rdo
  | .rdt => .rdt
  | .tick _ => .tick

theorem exists_opRow_of_instr (i : Instr) :
    ∃ r ∈ opRows, r.mnemonic = i.mnemonic ∧ r.opcode = opcode i := by
  cases i <;> simp only [Instr.mnemonic, opcode] <;> decide

theorem commandOf_encode (i : Instr) : commandOf i.mnemonic (encode i) = i := by
  cases i <;> simp only [Instr.mnemonic, commandOf, voiceField_eq, regField_eq, outField_eq, dataField_eq,
    fields_encode, operandFields, regIndex_lowBits, outIndex_lowBit, paramRegOf_index, waveOf_index]

theorem decode_encode (i : Instr) : decode (encode i) = some i := by
  obtain ⟨hwf, hop⟩ := encode_wellFormed i
  obtain ⟨r, hr, hmnemonic, hrop⟩ := exists_opRow_of_instr i
  rw [decode_eq_some_iff]
  exact ⟨r, hr, (OpRow.fits_iff hr _).2 ⟨hop.trans hrop.symm, hwf⟩, hmnemonic ▸ commandOf_encode i⟩

/-- A word that fits a row holds nothing but its command's opcode and operands. Only the three register
commands read less than a field, the free bits of an index in range. -/
theorem operandFields_commandOf {r : OpRow} (hr : r ∈ opRows) {w : CmdWord} (h : r.fits w = true) :
    operandFields (commandOf r.mnemonic w) = Fields.ofWord w := by
  obtain ⟨hop, hwf⟩ := (OpRow.fits_iff hr w).1 h
  obtain ⟨-, ⟨fmt, maxReg⟩, hfmt, -, -⟩ := opRows_layout r hr
  obtain ⟨hkeep, hreg⟩ := (Fields.wellFormed_iff (hop ▸ hfmt)).1 hwf
  rw [hkeep, Format.keep, hop]
  simp only [opRows, List.mem_cons, List.not_mem_nil, or_false] at hr
  rcases hr with rfl | rfl | rfl | rfl | rfl | rfl | rfl | rfl <;> cases hfmt
  case inr.inr.inr.inl.refl | inr.inr.inr.inr.inl.refl => -- WRP, RDP
    simp only [commandOf, operandFields, paramRegIndex_of, regIndex_regField (hreg rfl)]
    rfl
  case inr.inr.inr.inr.inr.inl.refl => -- RDO
    simp only [commandOf, operandFields, waveIndex_of, outIndex_outField (hreg rfl)]
    rfl
  all_goals rfl

theorem encode_of_decode {w : CmdWord} {i : Instr} (h : decode w = some i) : encode i = w := by
  obtain ⟨r, hr, hfits, rfl⟩ := decode_eq_some_iff.1 h
  exact Fields.ofWord_injective ((fields_encode _).trans (operandFields_commandOf hr hfits))

/-- Settles O1: a row that fits is the only one, the fields of an encoded word are its command's operands, and
both directions of the inverse rest on what a row that fits says of the fields. -/
theorem decodeAndEncodeAreInverse : Obligations.DecodeAndEncodeAreInverse :=
  ⟨fun _ r hr h => decode_eq_some_iff.2 ⟨r, hr, h, rfl⟩, fun _ => decode_eq_none_iff.2, fields_encode,
    decode_encode, fun _ _ => encode_of_decode⟩

/-! ## Reserved words -/

theorem step_word {s : State} {w : CmdWord} {rest : List HostEvent} (h : s.inputs = .word w :: rest) :
    step s = runWord w { s with inputs := rest } := by
  rw [step, h]

theorem runWord_of_decode_eq_none {w : CmdWord} (h : decode w = none) (s : State) :
    runWord w s = .refused (.reservedWord w reservedAnswer) := by
  rw [runWord, h]

theorem runWord_of_decode_eq_some {w : CmdWord} {i : Instr} (h : decode w = some i) (s : State) :
    runWord w s = .next (afterExec i s) := by
  rw [runWord, h]
  exact exec_eq_next i s

/-- Settles O3: a word decodes to none exactly when no row fits it, and a decoded command always has a next
state. -/
theorem reservedWordsAreRefused : Obligations.ReservedWordsAreRefused := by
  refine ⟨fun w => decode_eq_none_iff_wordWellFormed, ?_, ?_, fun s => rfl⟩
  · intro s w rest hinputs hwf
    rw [step_word hinputs]
    exact runWord_of_decode_eq_none (decode_eq_none_iff_wordWellFormed.2 hwf) _
  · intro s w rest hinputs hwf
    obtain ⟨i, hi⟩ : ∃ i, decode w = some i := by
      rw [← Option.ne_none_iff_exists', Ne, decode_eq_none_iff_wordWellFormed, hwf]
      simp
    rw [step_word hinputs]
    exact ⟨_, runWord_of_decode_eq_some hi _⟩

end Sys2Proof

/-! The commands (40_commands.md R72 to R78, R80). `exec_eq_next` names the next state of every command, and
`decode_encode` the word of every command; what is left is what that state reads as: after a register write
(20_memory.md R52) and after the reset procedure (70_reset_and_hazards.md R152). -/

namespace Sys2Proof.Machine
open Reference

/-! ## Responses (R80) -/

@[simp] theorem afterExec_inputs (i : Instr) (s : State) : (afterExec i s).inputs = s.inputs := by
  cases i <;> rfl

/-- The independent reading of R80's response is the one `exec` puts on the port. -/
@[simp] theorem afterExec_rsp (i : Instr) (s : State) :
    (afterExec i s).rsp = some ⟨responseData s i, false⟩ := by
  cases i with
  | rdo v w => cases w <;> rfl
  | _ => rfl

/-- Settles O9: the next state of a command carries its response, and a word that decodes to none stops. -/
theorem everyCommandRespondsOnce : Obligations.EveryCommandRespondsOnce := by
  refine ⟨fun i s => ⟨afterExec i s, exec_eq_next i s, afterExec_rsp i s, afterExec_inputs i s⟩, ?_⟩
  intro s w rest hinputs hnone
  rw [step_word hinputs]
  exact runWord_of_decode_eq_none hnone _

/-! ## NOP, SETTUNE, RDT (R72, R73, R78) -/

/-- The decoder and the encoder are inverse, so a command has one word. -/
theorem decode_eq_some_iff_encode {w : CmdWord} {i : Instr} : decode w = some i ↔ encode i = w :=
  ⟨encode_of_decode, fun h => h ▸ decode_encode i⟩

theorem encode_nop : encode .nop = 0 := rfl

/-- Settles O11: NOP is encoded as the zero word, and no other word decodes to it. -/
theorem nopChangesNothing : Obligations.NopChangesNothing := by
  refine ⟨fun w => ?_, exec_eq_next .nop⟩
  rw [decode_eq_some_iff_encode, encode_nop, eq_comm]

/-- Settles O12: the decoder reads back the word of SETTUNE, and its next state is the one with `tuneModeOf`. -/
theorem settuneSelectsTheTable : Obligations.SettuneSelectsTheTable :=
  ⟨fun mode => decode_encode (.settune mode), fun mode => exec_eq_next (.settune mode)⟩

/-- RDT shows 1 for the mode the operand 1 selects and 0 for the mode of every other operand. -/
theorem tuneModeBits_tuneModeOf (mode : Word) : tuneModeBits (tuneModeOf mode) = if mode = 1 then 1 else 0 := by
  unfold tuneModeOf
  split <;> rfl

theorem exec_rdt_of_tuneModeBits_eq {t : State} {data : Word} (h : tuneModeBits t.tuneMode = data) :
    exec .rdt t = .next { t with rsp := some ⟨data, false⟩ } := by
  rw [exec_eq_next, afterExec, h]
  rfl

/-- Settles O17: SETTUNE legalises the mode before RDT reads it. -/
theorem rdtReadsTheMode : Obligations.RdtReadsTheMode := by
  refine ⟨decode_encode .rdt, exec_eq_next .rdt, ?_⟩
  intro mode s t h
  rw [exec_next_iff.1 h]
  exact exec_rdt_of_tuneModeBits_eq (tuneModeBits_tuneModeOf mode)

/-! ## WRP (R75) -/

/-- A register write changes the one register it names (20_memory.md R52). -/
theorem regRead_regWrite (s : State) (v v' : VoiceIdx) (r r' : ParamReg) (data : Word) :
    regRead (regWrite s v r data) v' r' = if v' = v ∧ r' = r then data else regRead s v' r' := by
  by_cases hv : v' = v
  · subst hv
    by_cases hr : r' = r
    · subst hr
      simp [regRead_regWrite_same]
    · simp [regRead, regWrite_voice, hr, Params.read_write_other _ (Ne.symm hr)]
  · simp [regRead, regWrite_voice, hv, Ne.symm hv]

/-- A register write changes nothing of a voice but its registers. -/
theorem regWrite_voice_withParams (s : State) (v v' : VoiceIdx) (r : ParamReg) (data : Word) :
    { (regWrite s v r data).voice v' with params := (s.voice v').params } = s.voice v' := by
  rw [regWrite_voice]
  split
  · next hv => rw [hv]
  · rfl

/-- Settles O14: what is read back after the write of one register. -/
theorem wrpStoresTheWord : Obligations.WrpStoresTheWord :=
  ⟨fun v r data => decode_encode (.wrp v r data), fun v r data s =>
    ⟨(regWrite s v r data).respond 0, exec_eq_next (.wrp v r data) s,
      fun v' r' => regRead_regWrite s v v' r r' data, fun v' => regWrite_voice_withParams s v v' r data,
      rfl, rfl, rfl⟩⟩

/-! ## A voice after INIT (R74; 70_reset_and_hazards.md R152) -/

@[simp] theorem Params.read_reset (r : ParamReg) : Params.reset.read r = 0 := by cases r <;> rfl

theorem prngAfter_xorshift32 {Num : Type} (N : Numerics Num) (n : Nat) (st : Word) :
    prngAfter (xorshift32 N) n st = xs32^[n] st := by
  induction n with
  | zero => rfl
  | succ n ih => rw [prngAfter, ih, Function.iterate_succ_apply']; rfl

section resetVoice
variable (seed : Word) (v : VoiceIdx)

theorem resetVoice_prng : (resetVoice cfg seed v).prng = xs32^[8] (startWord seed v) :=
  prngAfter_xorshift32 binary32 8 _

theorem resetVoice_phase (i : SubIdx) :
    (resetVoice cfg seed v).phase.get i = unitSample binary32 (xs32^[i.val + 1] (startWord seed v)) := by
  rw [resetVoice, Vector.get_ofFn, cfg_noise, prngAfter_xorshift32]
  rfl

theorem resetVoice_nf (i : SubIdx) : (resetVoice cfg seed v).nf.get i = F32.zero :=
  Vector.get_replicate ..

theorem resetVoice_path (w : Wave) :
    (resetVoice cfg seed v).path w = WavePath.reset binary32 cfg.blepLen_pos := by
  cases w <;> rfl

end resetVoice

section reset
variable {Num : Type} (N : Numerics Num) {L : Nat} (h : 0 < L)

@[simp] theorem WavePath.reset_blep_get (i : SubIdx) :
    (WavePath.reset N h).blep.get i = Corrector.reset N h := Vector.get_replicate ..

@[simp] theorem Corrector.reset_buf_get (k : Fin L) : (Corrector.reset N h).buf.get k = N.zero :=
  Vector.get_replicate ..

end reset

theorem regRead_resetAll (seed : Word) (s : State) (v : VoiceIdx) (r : ParamReg) :
    regRead (resetAll seed s) v r = 0 := by
  rw [regRead, resetAll_voice]
  exact Params.read_reset r

/-- Settles O13: every voice is `resetVoice` of the seed, whose fields are read one by one. -/
theorem initResetsEverything : Obligations.InitResetsEverything := by
  intro seed s
  refine ⟨(resetAll seed s).respond 0, exec_eq_next (.init seed) s, rfl, rfl, rfl, fun v => ?_⟩
  refine ⟨startWord seed v, rfl, regRead_resetAll seed s v, ?_⟩
  simp only [outRead, respond_voice, resetAll_voice, resetVoice_path]
  refine ⟨fun _ => rfl, rfl, resetVoice_prng seed v, resetVoice_phase seed v, resetVoice_nf seed v,
    fun _ => ⟨rfl, fun i => ?_⟩⟩
  rw [WavePath.reset_blep_get]
  exact ⟨rfl, Corrector.reset_buf_get binary32 cfg.blepLen_pos⟩

/-! ## RDP (R76) -/

theorem exec_rdp_of_regRead_eq {v : VoiceIdx} {r : ParamReg} {t : State} {data : Word}
    (h : regRead t v r = data) : exec (.rdp v r) t = .next { t with rsp := some ⟨data, false⟩ } := by
  rw [exec_eq_next, afterExec, h]
  rfl

/-- Settles O15: RDP responds with what the register reads as, after a write of it and after INIT. -/
theorem rdpReadsBack : Obligations.RdpReadsBack := by
  refine ⟨fun v r => decode_encode (.rdp v r), fun v r s => exec_rdp_of_regRead_eq rfl, ?_, ?_⟩
  · intro v r data s t h
    rw [exec_next_iff.1 h]
    exact exec_rdp_of_regRead_eq (regRead_regWrite_same s v r data)
  · intro v r seed s t h
    rw [exec_next_iff.1 h]
    exact exec_rdp_of_regRead_eq (regRead_resetAll seed s v r)

end Sys2Proof.Machine

/-! The generator and its unit sample (43_chaos_noise_filter.md R98, R100). Each of the three operations of a
generator step adds to a word a shift of it, and a shift is linear and nilpotent; a unit sample is the quotient
of a 24-bit integer by a power of two, which binary32 holds exactly. -/

namespace Sys2Proof
open Machine

/-! ## Words as vectors over GF(2) -/

/-- Linear over GF(2): the addition of words is exclusive or. -/
def XorLinear (f : Word → Word) : Prop := ∀ x y, f (x ^^^ y) = f x ^^^ f y

/-- A word added to its own image: the form of each of the three operations of R98. -/
def xorWith (f : Word → Word) (x : Word) : Word := x ^^^ f x

section
variable {f g : Word → Word}

theorem XorLinear.map_zero (hf : XorLinear f) : f 0 = 0 := by simpa using hf 0 0

theorem XorLinear.comp (hf : XorLinear f) (hg : XorLinear g) : XorLinear (f ∘ g) := fun x y =>
  (congrArg f (hg x y)).trans (hf _ _)

theorem XorLinear.xorLinear_xorWith (hf : XorLinear f) : XorLinear (xorWith f) := fun x y => by
  simp only [xorWith, hf x y]
  ac_rfl

theorem XorLinear.injective (hf : XorLinear f) (hker : ∀ x, f x = 0 → x = 0) : Function.Injective f := by
  intro x y h
  have hzero : f (x ^^^ y) = 0 := (hf x y).trans (BitVec.xor_eq_zero_iff.2 h)
  exact BitVec.xor_eq_zero_iff.1 (hker _ hzero)

/-- A word that `xorWith f` takes to zero is fixed by `f`, hence by every iterate of `f`; if one of them is
zero, so is the word. -/
theorem XorLinear.xorWith_injective (hf : XorLinear f) {n : Nat} (hnil : ∀ x, f^[n] x = 0) :
    Function.Injective (xorWith f) := by
  refine hf.xorLinear_xorWith.injective fun x hx => ?_
  have hfixed : f x = x := (BitVec.xor_eq_zero_iff.1 hx).symm
  rw [← Function.iterate_fixed hfixed n, hnil]

end

section
variable (k : Nat)

theorem xorLinear_shiftLeft : XorLinear (· <<< k) := fun x y => BitVec.shiftLeft_xor_distrib x y k

theorem xorLinear_shiftRight : XorLinear (· >>> k) := fun x y => BitVec.ushiftRight_xor_distrib x y k

theorem iterate_shiftLeft (n : Nat) (x : Word) : (fun y : Word => y <<< k)^[n] x = x <<< (n * k) := by
  induction n with
  | zero => simp
  | succ n ih => rw [Function.iterate_succ_apply', ih, ← BitVec.shiftLeft_add, Nat.succ_mul]

theorem iterate_shiftRight (n : Nat) (x : Word) : (fun y : Word => y >>> k)^[n] x = x >>> (n * k) := by
  induction n with
  | zero => simp
  | succ n ih => rw [Function.iterate_succ_apply', ih, ← BitVec.shiftRight_add, Nat.succ_mul]

end

section
variable {k : Nat} (hk : 0 < k)
include hk

theorem xorWith_shiftLeft_injective : Function.Injective (xorWith (· <<< k)) :=
  (xorLinear_shiftLeft k).xorWith_injective (n := 32) fun x =>
    (iterate_shiftLeft k 32 x).trans (BitVec.shiftLeft_eq_zero (by omega))

theorem xorWith_shiftRight_injective : Function.Injective (xorWith (· >>> k)) :=
  (xorLinear_shiftRight k).xorWith_injective (n := 32) fun x =>
    (iterate_shiftRight k 32 x).trans (BitVec.ushiftRight_eq_zero (by omega))

end

/-! ## The generator step (R98) -/

theorem xs32_eq_comp : xs32 = xorWith (· <<< 5) ∘ xorWith (· >>> 17) ∘ xorWith (· <<< 13) := rfl

theorem xorLinear_xs32 : XorLinear xs32 := by
  rw [xs32_eq_comp]
  exact (xorLinear_shiftLeft 5).xorLinear_xorWith.comp
    ((xorLinear_shiftRight 17).xorLinear_xorWith.comp (xorLinear_shiftLeft 13).xorLinear_xorWith)

theorem xs32_injective : Function.Injective xs32 := by
  rw [xs32_eq_comp]
  exact (xorWith_shiftLeft_injective (by decide)).comp
    ((xorWith_shiftRight_injective (by decide)).comp (xorWith_shiftLeft_injective (by decide)))

@[simp] theorem xs32_zero : xs32 0 = 0 := xorLinear_xs32.map_zero

theorem iterate_xs32_ne_zero {x : Word} (hx : x ≠ 0) (n : Nat) : xs32^[n] x ≠ 0 := by
  rw [← Function.iterate_fixed xs32_zero n]
  exact (xs32_injective.iterate n).ne hx

/-- R152 replaces the one start word that would stop the generator. -/
theorem startWord_ne_zero (seed : Word) (v : VoiceIdx) : startWord seed v ≠ 0 := by
  simp only [startWord]
  split
  · decide
  · assumption

/-- Settles O41: a linear map is injective when its kernel is zero, an injective step on finitely many words is
a bijection, and a voice's generator word is an iterate of its non-zero start word. -/
theorem xorshiftIsABijectionFixingZero : Obligations.XorshiftIsABijectionFixingZero := by
  refine ⟨fun _ => rfl, Finite.injective_iff_bijective.1 xs32_injective, xs32_zero, xorLinear_xs32,
    fun x hx => iterate_xs32_ne_zero hx 1, fun seed v => ?_⟩
  rw [resetVoice_prng]
  exact iterate_xs32_ne_zero (startWord_ne_zero seed v) 8

/-! ## Exact quotients by a power of two -/

theorem magUnits_infMag : magUnits infMag = 2 ^ 24 * 2 ^ 253 := by decide

section
variable {n : Int} {e : Nat} (hn : n.natAbs < 2 ^ 24) (he : e ≤ 253)
include hn he

theorem natAbs_mul_two_pow_lt : (n * 2 ^ e).natAbs < magUnits infMag := by
  rw [magUnits_infMag, Int.natAbs_mul, Int.natAbs_pow]
  exact Nat.mul_lt_mul_of_lt_of_le hn (Nat.pow_le_pow_right two_pos he) (by positivity)

/-- An integer of at most 24 bits is a value at every scale: the bits below its significand are zeros. -/
theorem representable_mul_two_pow : Representable (n * 2 ^ e) := by
  have hm : (n * 2 ^ e).natAbs = n.natAbs * 2 ^ e := by rw [Int.natAbs_mul, Int.natAbs_pow]; rfl
  have hfin := natAbs_mul_two_pow_lt hn he
  generalize hz : (n * 2 ^ e).natAbs = m at hm hfin
  have hexp : roundExp m 1 ≤ e := by
    rcases eq_or_ne m 0 with h0 | h0
    · simp [roundExp, h0]
    · have hlog : Nat.log2 m < 24 + e := by
        rw [Nat.log2_lt h0, hm, pow_add]
        gcongr
      rw [roundExp, Nat.div_one]
      omega
  have hexact : magUnits (roundDown m 1) = m := by
    rw [magUnits_roundDown, roundSig, one_mul]
    exact Nat.div_mul_cancel ((pow_dvd_pow 2 hexp).trans (hm ▸ dvd_mul_left _ _))
  exact ⟨roundDown m 1, magUnits_le_iff.1 (hexact.trans_le hfin.le), hz.trans hexact.symm⟩

end

/-- A quotient whose exact value is representable is not rounded. -/
theorem F32.units_div_eq {a b : F32} {z : Int} (ha : a.isFinite = true) (hb : b.isFinite = true)
    (hpos : 0 < b.units) (hz : Representable z) (h : a.units * 2 ^ 149 = z * b.units) :
    (a.div b).units = z :=
  le_antisymm (F32.units_div_le ha hb hpos hz h.le) (F32.le_units_div ha hb hpos hz h.ge)

theorem F32.ofInt_div_two_pow_hasValue {n : Int} {k : Nat} (hn : n.natAbs < 2 ^ 24) (hk : k ≤ 24) :
    binary32.hasValue ((F32.ofInt n).div (F32.ofInt (2 ^ k))) (n / 2 ^ k) := by
  have hpow : ((2 : Int) ^ k).natAbs ≤ 2 ^ 24 := by
    rw [Int.natAbs_pow]
    exact Nat.pow_le_pow_right two_pos hk
  have hdividend := F32.isFinite_ofInt hn.le
  have hdivisor := F32.isFinite_ofInt hpow
  have hpos : 0 < (F32.ofInt (2 ^ k)).units := by
    rw [F32.units_ofInt hpow]
    positivity
  have hscale : (2 : Int) ^ 149 = 2 ^ (149 - k) * 2 ^ k := (pow_sub_mul_pow 2 (by omega)).symm
  have hunits : ((F32.ofInt n).div (F32.ofInt (2 ^ k))).units = n * 2 ^ (149 - k) := by
    refine F32.units_div_eq hdividend hdivisor hpos (representable_mul_two_pow hn (by omega)) ?_
    rw [F32.units_ofInt hn.le, F32.units_ofInt hpow]
    linear_combination (n * 2 ^ 149) * hscale
  refine ⟨F32.isFinite_iff_units.2 ⟨F32.isNaN_div hdividend hdivisor hpos, ?_⟩, value_eq_iff.2 ?_⟩
  · rw [hunits]
    exact natAbs_mul_two_pow_lt hn (by omega)
  · have hscaleRat : (2 : ℚ) ^ 149 = 2 ^ (149 - k) * 2 ^ k := mod_cast hscale
    rw [hunits, hscaleRat]
    push_cast
    field_simp

/-! ## The unit sample (R100) -/

theorem unitSample_hasValue (x : Word) :
    binary32.hasValue (unitSample binary32 x) ((x.extractLsb' 8 24).toNat / 2 ^ 24) :=
  F32.ofInt_div_two_pow_hasValue (n := (x.extractLsb' 8 24).toNat) (k := 24) (x.extractLsb' 8 24).isLt le_rfl

/-- Settles O43: the quotient is exact, and its 24-bit dividend is at most 2^24 - 1. -/
theorem unitSampleIsExact : Obligations.UnitSampleIsExact := by
  intro x
  obtain ⟨hfinite, hvalue⟩ := unitSample_hasValue x
  rw [binary32_value] at hvalue
  have hmax : ((x.extractLsb' 8 24).toNat : ℚ) + 1 ≤ 2 ^ 24 := mod_cast (x.extractLsb' 8 24).isLt
  refine ⟨hfinite, hvalue, ?_, ?_⟩
  · rw [hvalue]
    positivity
  · rw [hvalue, div_le_iff₀ (by positivity)]
    linarith

end Sys2Proof

/-! The corrector (44_minblep.md R115): the delays 0 to L-1 and the slots of the ring. -/

namespace Sys2Proof.Machine

/-- Settles O48: some delay below L reaches the slot, and distinct delays below L reach distinct slots. -/
theorem ringSlotsAreAddressedOnce : Obligations.RingSlotsAreAddressedOnce := by
  intro L pos s
  obtain ⟨j, hj, hslot⟩ := ringSlot_surj pos s
  refine ⟨j, ⟨hj, hslot⟩, ?_⟩
  rintro k ⟨hk, hslot'⟩
  exact ringSlot_inj pos hk hj (hslot'.trans hslot.symm)

end Sys2Proof.Machine

/-! The early exit of a tick (46_tick.md R133). -/

namespace Sys2Proof.Machine

/-- With both waveform enables off a tick is the early exit, whatever the configuration, the tuning mode and
SYNC_EN are. -/
theorem tickVoice_of_waves_off {Num : Type} {L : Nat} (c : Cfg Num) (m : TuneMode) {v : Voice Num L}
    (hsin : v.params.sinEn = false) (hsaw : v.params.sawEn = false) :
    tickVoice c m v = silenceVoice c.num v := by
  rcases tickVoice_cases c m v with ⟨-, -, hsilent⟩ | ⟨hon, -⟩
  · exact hsilent
  · simp [hsin, hsaw] at hon

/-- Settles O25: bits 0 and 1 of ENABLES are the two waveform enables, so the voice's tick is `silenceVoice`,
which replaces the two outputs. -/
theorem silentTickOnlyZeroesOutputs : Obligations.SilentTickOnlyZeroesOutputs := by
  intro v s hsin hsaw
  have hsilent : tickVoice cfg s.tuneMode (s.voice v) = silenceVoice cfg.num (s.voice v) :=
    tickVoice_of_waves_off cfg s.tuneMode hsin hsaw
  rw [exec_eq_next, afterExec, hsilent]
  rfl

end Sys2Proof.Machine

/-! Words, steps and commands (30_encoding.md R66 to R71; 20_memory.md R53, R56, R57; 10_state.md R34, R39;
60_exceptions.md R128, R143). A command's next state is `afterExec`; each statement below reads it. -/

namespace Sys2Proof
open Machine Reference

/-- Settles O2: a row that fits a word has the word's opcode, and no two rows share one. -/
theorem opcodeRowsAreDisjoint : Obligations.OpcodeRowsAreDisjoint := fun _ _ _ hr hr' =>
  opRow_eq_of_fits hr hr'

/-- Settles O4: each command is encoded as the word written out for it, and each reserved word fails R68's list
of checks. -/
theorem writtenOutWordsDecode : Obligations.WrittenOutWordsDecode :=
  ⟨decode_encode .nop, decode_encode (.init 0x12345678), decode_encode (.settune 1),
    decode_encode (.wrp 15 .dt 0x37BE37C6), decode_encode (.rdp 3 .pitch), decode_encode (.rdo 9 .saw),
    decode_encode .rdt, decode_encode (.tick 1),
    decode_eq_none_iff_wordWellFormed.2 (by decide), decode_eq_none_iff_wordWellFormed.2 (by decide),
    decode_eq_none_iff_wordWellFormed.2 (by decide)⟩

end Sys2Proof

namespace Sys2Proof.Machine
open Reference

/-! ## Steps -/

/-- Settles O6: a step takes the word off the port and runs what it decodes to. -/
theorem stepRunsTheDecodedCommand : Obligations.StepRunsTheDecodedCommand := by
  intro s w rest i hinputs hdecode
  rw [step_word hinputs, runWord, hdecode]

theorem step_rst {s : State} {rest : List HostEvent} (h : s.inputs = .rst :: rest) :
    step s = .next (hardReset { s with inputs := rest }) := by
  rw [step, h]

/-- Settles O7: both resets replace every voice and the tuning mode by values that no state enters. -/
theorem hardwareResetRestoresResetState : Obligations.HardwareResetRestoresResetState := by
  refine ⟨fun s rest hinputs => ?_, fun s => ⟨afterExec (.init 0) s, exec_eq_next _ s, rfl⟩⟩
  rw [step_rst hinputs]
  rfl

theorem step_nil {s : State} (h : s.inputs = []) : step s = .next (idle s) := by
  rw [step, h]

/-- Settles O8: with no event waiting a step is `idle`. -/
theorem idleStepHoldsTheState : Obligations.IdleStepHoldsTheState := fun _ => step_nil

/-- A step keeps no event it did not find. -/
theorem inputs_subset_of_step {s t : State} (h : step s = .next t) : t.inputs ⊆ s.inputs := by
  rcases step_next_cases h with ⟨-, rfl⟩ | ⟨rest, hinputs, rfl⟩ | ⟨w, rest, i, hinputs, -, rfl⟩
  · exact List.Subset.refl _
  · rw [hinputs]
    exact List.subset_cons_self _ _
  · rw [hinputs, afterExec_inputs]
    exact List.subset_cons_self _ _

/-- A step stops at no event but a reserved word. -/
theorem goesOn_of_inputsWellFormed {s : State} (h : s.inputsWellFormed) : s.goesOn := by
  obtain ⟨-, -, haccepted, -⟩ := reservedWordsAreRefused
  cases hinputs : s.inputs with
  | nil => exact ⟨_, step_nil hinputs⟩
  | cons e rest =>
    cases e with
    | rst => exact ⟨_, step_rst hinputs⟩
    | word w => exact haccepted s w rest hinputs (h w (by simp [hinputs]))

/-- Settles O10: a well-formed word decodes to a command, a command has a next state, and the words then
waiting were waiting before. -/
theorem wellFormedInputNeverStops : Obligations.WellFormedInputNeverStops := fun _ h =>
  ⟨goesOn_of_inputsWellFormed h, fun _ hstep w hw => h w (inputs_subset_of_step hstep hw)⟩

/-! ## Reads and idempotence (20_memory.md R53; 40_commands.md R77) -/

/-- Settles O16: RDO responds with `bitsOfNum` of the output register. -/
theorem rdoReadsTheOutput : Obligations.RdoReadsTheOutput := by
  intro v w s
  cases w <;> exact exec_eq_next (.rdo v _) s

/-- Writing a voice twice is writing it once. -/
theorem setVoice_setVoice (s : State) (v : VoiceIdx) (x y : Voice F32 cfg.blepLen) :
    (s.setVoice v x).setVoice v y = s.setVoice v y := by
  simp [State.setVoice]

theorem afterExec_wrp_afterExec (v : VoiceIdx) (r : ParamReg) (data : Word) (s : State) :
    afterExec (.wrp v r data) (afterExec (.wrp v r data) s) = afterExec (.wrp v r data) s := by
  simp only [afterExec, regWrite, respond_voice, setVoice_voice_same, Params.write_write]
  exact congrArg (·.respond 0) (setVoice_setVoice s v _ _)

/-- Settles O18: a read changes nothing but the response, which a second read gives again; a second write of a
word to a register replaces it by itself. -/
theorem readsAndWritesAreIdempotent : Obligations.ReadsAndWritesAreIdempotent := by
  refine ⟨?_, fun v r data s t h => ?_⟩
  · rintro i s t (⟨v, r, rfl⟩ | ⟨v, w, rfl⟩ | rfl) h <;> obtain rfl := exec_next_iff.1 h <;>
      exact ⟨rfl, rfl, rfl⟩
  · obtain rfl := exec_next_iff.1 h
    rw [exec_next_iff, afterExec_wrp_afterExec]

/-! ## A command and the voice it names (20_memory.md R57) -/

/-- What a command that names voice `v` makes of that voice: a function of it and of the tuning mode. -/
def voiceEffect (i : Instr) (m : TuneMode) (x : Voice F32 cfg.blepLen) : Voice F32 cfg.blepLen :=
  match i with
  | .wrp _ r data => { x with params := x.params.write r data }
  | .tick _ => tickVoice cfg m x
  | .nop | .init _ | .settune _ | .rdp _ _ | .rdo _ _ | .rdt => x

theorem setVoice_voice_self (s : State) (v : VoiceIdx) : s.setVoice v (s.voice v) = s := by
  simp [State.setVoice, State.voice, Vector.get_eq_getElem]

theorem responseData_rdo (s : State) (v : VoiceIdx) (w : Wave) :
    responseData s (.rdo v w) = bitsOfNum (outRead s v w) := by
  cases w <;> rfl

/-- A command that names a voice replaces that voice and responds, and does nothing else. -/
theorem afterExec_of_namedVoice {i : Instr} {v : VoiceIdx} (h : namedVoice i = some v) (s : State) :
    afterExec i s = (s.setVoice v (voiceEffect i s.tuneMode (s.voice v))).respond (responseData s i) := by
  cases i with
  | nop | init _ | settune _ | rdt => simp [namedVoice] at h
  | wrp _ _ _ | tick _ => cases h; rfl
  | rdp _ _ =>
    cases h
    rw [voiceEffect, setVoice_voice_self]
    rfl
  | rdo _ _ =>
    cases h
    rw [voiceEffect, setVoice_voice_self, responseData_rdo]
    rfl

/-- The response of a command that names a voice is read from that voice. -/
theorem responseData_eq_of_voice_eq {i : Instr} {v : VoiceIdx} (h : namedVoice i = some v) {s s' : State}
    (hv : s.voice v = s'.voice v) : responseData s i = responseData s' i := by
  cases i with
  | nop | init _ | settune _ | rdt => simp [namedVoice] at h
  | wrp _ _ _ | tick _ => rfl
  | rdp _ _ => cases h; simp only [responseData, regRead, hv]
  | rdo _ _ => cases h; simp only [responseData_rdo, outRead, hv]

/-- Settles O19: such a command replaces no voice but the one it names. -/
theorem commandTouchesOnlyItsVoice : Obligations.CommandTouchesOnlyItsVoice := by
  intro i v s t hname h
  obtain rfl := exec_next_iff.1 h
  rw [afterExec_of_namedVoice hname]
  exact ⟨fun v' hne => setVoice_voice_other hne.symm _ _, rfl, rfl⟩

theorem setVoice_comm {v u : VoiceIdx} (h : v ≠ u) (s : State) (x y : Voice F32 cfg.blepLen) :
    (s.setVoice v x).setVoice u y = (s.setVoice u y).setVoice v x := by
  simp only [State.setVoice]
  rw [Vector.set_comm _ _ (by simpa [Fin.ext_iff] using h)]

/-- The state two commands of different voices leave, the first one's response being gone: each has replaced
its own voice, as it found it. -/
theorem afterExec_afterExec_of_namedVoice {i j : Instr} {v u : VoiceIdx} (hi : namedVoice i = some v)
    (hj : namedVoice j = some u) (hne : v ≠ u) (s : State) :
    afterExec j (afterExec i s) =
      ((s.setVoice v (voiceEffect i s.tuneMode (s.voice v))).setVoice u
        (voiceEffect j s.tuneMode (s.voice u))).respond (responseData s j) := by
  have hu : (afterExec i s).voice u = s.voice u := by
    rw [afterExec_of_namedVoice hi]
    exact setVoice_voice_other hne _ _
  rw [afterExec_of_namedVoice hj, hu, responseData_eq_of_voice_eq hj hu, afterExec_of_namedVoice hi]
  rfl

/-- Settles O20: each command finds its own voice as the other left it, which is untouched. -/
theorem commandsOnDifferentVoicesCommute : Obligations.CommandsOnDifferentVoicesCommute := by
  intro i j v u s a ab b ba hi hj hne ha hab hb hba
  obtain rfl := exec_next_iff.1 ha
  obtain rfl := exec_next_iff.1 hab
  obtain rfl := exec_next_iff.1 hb
  obtain rfl := exec_next_iff.1 hba
  rw [afterExec_afterExec_of_namedVoice hi hj hne, afterExec_afterExec_of_namedVoice hj hi hne.symm,
    setVoice_comm hne, afterExec_rsp, afterExec_rsp]
  exact ⟨rfl, rfl, rfl⟩

/-- Settles O30: what TICK makes of its voice is `tickVoice` of that voice under the tuning mode. -/
theorem tickReadsItsVoiceAndTheMode : Obligations.TickReadsItsVoiceAndTheMode := by
  intro v s s' t t' hv hm h h'
  obtain rfl := exec_next_iff.1 h
  obtain rfl := exec_next_iff.1 h'
  simp only [afterExec, respond_voice, setVoice_voice_same, hv, hm]

/-! ## Who writes what, and who reads what (10_state.md R34, R39) -/

section rights
variable (i : Instr) (s : State)

/-- Parameters: WRP and INIT only, since a tick keeps them. -/
theorem afterExec_params (hinit : ∀ seed, i ≠ .init seed) (hwrp : ∀ v r data, i ≠ .wrp v r data)
    (v : VoiceIdx) :
    ((afterExec i s).voice v).params = (s.voice v).params := by
  cases i with
  | init seed => exact absurd rfl (hinit seed)
  | wrp u r data => exact absurd rfl (hwrp u r data)
  | tick u =>
    simp only [afterExec, respond_voice, setVoice_voice]
    split
    · next hu => rw [tickVoice_params, hu]
    · rfl
  | _ => rfl

/-- The rest of a voice: TICK and INIT only. -/
theorem afterExec_voice_withParams (hinit : ∀ seed, i ≠ .init seed) (htick : ∀ v, i ≠ .tick v)
    (v : VoiceIdx) :
    { (afterExec i s).voice v with params := (s.voice v).params } = s.voice v := by
  cases i with
  | init seed => exact absurd rfl (hinit seed)
  | tick u => exact absurd rfl (htick u)
  | wrp u r data => exact regWrite_voice_withParams s u v r data
  | _ => rfl

theorem afterExec_tuneMode (hinit : ∀ seed, i ≠ .init seed) (hset : ∀ mode, i ≠ .settune mode) :
    (afterExec i s).tuneMode = s.tuneMode := by
  cases i with
  | init seed => exact absurd rfl (hinit seed)
  | settune mode => exact absurd rfl (hset mode)
  | _ => rfl

end rights

/-- Settles O21: the three frames of a command's next state. -/
theorem accessRightsHold : Obligations.AccessRightsHold := by
  intro i s t h
  obtain rfl := exec_next_iff.1 h
  exact ⟨afterExec_params i s, afterExec_voice_withParams i s, afterExec_tuneMode i s⟩

/-- Settles O22: the response is data read from a parameter register, an output register or the mode. -/
theorem workingStateIsInvisible : Obligations.WorkingStateIsInvisible := by
  rintro i s s' t t' ⟨hmode, hvoice⟩ h h'
  obtain rfl := exec_next_iff.1 h
  obtain rfl := exec_next_iff.1 h'
  rw [afterExec_rsp, afterExec_rsp]
  cases i with
  | rdp v r =>
    obtain ⟨hparams, -⟩ := hvoice v
    simp only [responseData, regRead, hparams]
  | rdo v w =>
    obtain ⟨-, hout⟩ := hvoice v
    simp only [responseData_rdo, hout]
  | rdt => simp only [responseData, hmode]
  | _ => rfl

end Sys2Proof.Machine

/-! Ticks without arithmetic: the enable bits (10_state.md R22), a tick after reset (70_reset_and_hazards.md
R154), the chaos step (43_chaos_noise_filter.md R105, R106). -/

namespace Sys2Proof.Machine

/-- The latch reads three bits of ENABLES. -/
theorem latchInputs_enables_and_seven {Num : Type} (c : Cfg Num) (p : Params) (b : Word) (m : TuneMode) :
    latchInputs c { p with enables := b } m = latchInputs c { p with enables := b &&& 7 } m := by
  have hbit : ∀ k < 3, (b &&& 7).getLsbD k = b.getLsbD k := by
    intro k hk
    rw [BitVec.getLsbD_and]
    interval_cases k <;> simp
  simp only [latchInputs, Params.sinEn, Params.sawEn, Params.syncEn, hbit 0 (by decide), hbit 1 (by decide),
    hbit 2 (by decide)]

/-- Settles O23: the upper bits do not enter the latch, and a tick uses the registers through the latch alone. -/
theorem tickIgnoresUpperEnableBits : Obligations.TickIgnoresUpperEnableBits := fun _ c _ m v b =>
  tickVoice_of_latchInputs_eq c (latchInputs_enables_and_seven c v.params b m) v

/-- After reset both waveforms are off and both outputs are 0.0 already. -/
theorem tickVoice_resetVoice (m : TuneMode) (seed : Word) (v : VoiceIdx) :
    tickVoice cfg m (resetVoice cfg seed v) = resetVoice cfg seed v :=
  tickVoice_of_waves_off cfg m (show Params.reset.sinEn = false by decide)
    (show Params.reset.sawEn = false by decide)

/-- Settles O58: the voice a tick puts back is the one it found, and the reset DENSITY 0 is no recognised
count. -/
theorem tickAfterResetIsSilent : Obligations.TickAfterResetIsSilent := by
  refine ⟨fun v => ?_, fun v => ?_⟩
  · rw [exec_eq_next, afterExec, reset_voice, tickVoice_resetVoice, ← reset_voice, setVoice_voice_self]
    rfl
  · have hread : regRead State.reset v .density = 0 := by rw [regRead, reset_voice]; rfl
    rw [hread]
    rfl

/-! ## Vectors read after one write -/

section get
variable {α : Type} {n : Nat} (x : Vector α n) (i : Fin n) (a : α)

theorem get_set_self : (x.set i a).get i = a := by simp [Vector.get_eq_getElem]

theorem get_set_of_ne {k : Fin n} (h : k ≠ i) : (x.set i a).get k = x.get k := by
  rw [Vector.get_eq_getElem, Vector.get_eq_getElem, Vector.getElem_set_ne]
  exact fun hk => h (Fin.ext hk.symm)

end get

/-- Settles O46: the two cases of the chaos step, each read field by field. -/
theorem chaosStepOnlyWhenEngaged : Obligations.ChaosStepOnlyWhenEngaged := by
  intro Num c L lt an v i
  rcases chaosStep_cases c lt an v i with ⟨hoff, hstep⟩ | ⟨hon, w, y, rfl, rfl, hstep⟩
  · exact ⟨fun _ => hstep, fun hon => absurd (hoff.symm.trans hon) (by decide)⟩
  · refine ⟨fun hoff => absurd (hoff.symm.trans hon) (by decide), fun _ => ?_⟩
    rw [hstep]
    refine ⟨rfl, get_set_self _ _ _, fun k hk => get_set_of_ne _ _ _ hk, ?_, rfl⟩
    exact congrArg (c.num.mul · lt.chaos) (get_set_self _ _ _).symm

end Sys2Proof.Machine

/-! The corrector as a ring (44_minblep.md R114, R116, R119), slot by slot. -/

namespace Sys2Proof.Machine

variable {Num : Type} {L : Nat}

/-! ## Insertion -/

section insertion
variable (c : Cfg Num) (p a : Num) (b : Corrector Num L)

/-- The first `k` passes of R114's loop: each has written its own slot, once. -/
theorem foldl_insertAt (k : Nat) (hk : k ≤ L) :
    ((List.range k).foldl (insertAt c p a) b).pos = b.pos ∧
      ∀ j < L, ((List.range k).foldl (insertAt c p a) b).buf.get (ringSlot b.pos j) =
        if j < k then c.num.add (b.buf.get (ringSlot b.pos j)) (blepTerm c p a j)
        else b.buf.get (ringSlot b.pos j) := by
  induction k with
  | zero => simp
  | succ k ih =>
    obtain ⟨hpos, hget⟩ := ih (by omega)
    rw [List.range_succ, List.foldl_concat]
    refine ⟨hpos, fun j hj => ?_⟩
    rw [insertAt_get, hpos, hget j hj]
    by_cases hjk : k = j
    · subst hjk
      simp
    · have hslot : ringSlot b.pos k ≠ ringSlot b.pos j := fun h => hjk (ringSlot_inj b.pos (by omega) hj h)
      rw [if_neg hslot]
      exact if_congr (by omega) rfl rfl

@[simp] theorem insertDiscontinuity_pos : (insertDiscontinuity c b p a).pos = b.pos :=
  (foldl_insertAt c p a b L le_rfl).1

theorem insertDiscontinuity_get {j : Nat} (hj : j < L) :
    (insertDiscontinuity c b p a).buf.get (ringSlot b.pos j) =
      c.num.add (b.buf.get (ringSlot b.pos j)) (blepTerm c p a j) := by
  obtain ⟨-, hget⟩ := foldl_insertAt c p a b L le_rfl
  exact (hget j hj).trans (if_pos hj)

end insertion

/-- Settles O49: after all L passes every slot has been written once. -/
theorem insertionAddsOneTermPerSlot : Obligations.InsertionAddsOneTermPerSlot := fun _ c _ b p a =>
  ⟨insertDiscontinuity_pos c p a b, fun _ hj => insertDiscontinuity_get c p a b hj⟩

/-! ## Delivery -/

/-- Settles O50: the current slot is the one `process` writes. -/
theorem processDeliversAndClears : Obligations.ProcessDeliversAndClears := fun _ N _ b =>
  ⟨rfl, rfl, (processBlep_get N b _).trans (if_pos rfl),
    fun _ hs => (processBlep_get N b _).trans (if_neg hs.symm)⟩

/-- After `k` calls of `process` the cursor is `k` slots on, and the slots it has passed are 0.0. -/
theorem iterate_processBlep (N : Numerics Num) (b : Corrector Num L) (k : Nat) (hk : k ≤ L) :
    ((fun x => (processBlep N x).2)^[k] b).pos = ringSlot b.pos k ∧
      ∀ j < L, ((fun x => (processBlep N x).2)^[k] b).buf.get (ringSlot b.pos j) =
        if j < k then N.zero else b.buf.get (ringSlot b.pos j) := by
  induction k with
  | zero => simp
  | succ k ih =>
    obtain ⟨hpos, hget⟩ := ih (by omega)
    rw [Function.iterate_succ_apply']
    refine ⟨?_, fun j hj => ?_⟩
    · rw [processBlep_pos, hpos]
      apply Fin.ext
      simp [ringSlot, Nat.add_assoc]
    · rw [processBlep_get, hpos, hget j hj]
      by_cases hjk : k = j
      · subst hjk
        simp
      · have hslot : ringSlot b.pos k ≠ ringSlot b.pos j := fun h => hjk (ringSlot_inj b.pos (by omega) hj h)
        rw [if_neg hslot]
        exact if_congr (by omega) rfl rfl

/-- Settles O51: the cursor passes every slot once and delivers each as it was found. -/
theorem drainedRingIsAllZero : Obligations.DrainedRingIsAllZero := by
  intro Num N L b
  obtain ⟨hpos, hget⟩ := iterate_processBlep N b L le_rfl
  refine ⟨fun s => ?_, hpos.trans (ringSlot_length b.pos), fun k hk => ?_⟩
  · obtain ⟨j, hj, rfl⟩ := ringSlot_surj b.pos s
    exact (hget j hj).trans (if_pos hj)
  · obtain ⟨hpos, hget⟩ := iterate_processBlep N b k hk.le
    rw [processBlep_value, hpos, hget k hk, if_neg (lt_irrefl k)]

/-! ## The invariant and 10_state.md R35 -/

/-- Every slot is some delay ahead of the cursor. -/
theorem PathInv.ring_finite {p : WavePath F32 L} (h : PathInv p) (i : SubIdx) (k : Fin L) :
    ((p.blep.get i).buf.get k).isFinite = true := by
  obtain ⟨j, hj, rfl⟩ := ringSlot_surj (p.blep.get i).pos k
  exact (h.ring_within i j hj).1

/-- Settles O57: the cursors are below L by their type, and a bounded number is finite. -/
theorem invariantGivesFiniteState : Obligations.InvariantGivesFiniteState := by
  intro s h v
  have hv := h v
  exact
    { a_phase := hv.phase_unit
      b_cursor := fun i => ⟨Fin.isLt _, Fin.isLt _⟩
      c_ring := fun i k => ⟨hv.sin_inv.ring_finite i k, hv.saw_inv.ring_finite i k⟩
      c_nf := fun i => (hv.nf_within i).1
      c_dc := ⟨hv.sin_inv.dc_within.1, hv.saw_inv.dc_within.1⟩
      c_out := ⟨hv.sin_inv.out_finite, hv.saw_inv.out_finite⟩
      e_prng := hv.prng_ne_zero }

end Sys2Proof.Machine

/-! The rounding of binary32 as a function of the exact result (00_scope.md R8, R9). A datum that is no NaN is
known, but for the sign of a zero, by its unit count; the unit count of each operator's result is that of
`F32.ofRat` of the exact result; and `F32.ofRat` is monotone, fixes every number and takes the nearest. -/

namespace Sys2Proof
open Machine Reference

/-! ## Data with the same unit count -/

section units
variable {x y : F32}

theorem F32.isNeg_eq_of_units_ne_zero (h : x.units ≠ 0) : x.isNeg = decide (x.units < 0) := by
  unfold F32.units at h ⊢
  cases hneg : x.isNeg with
  | false => simp
  | true =>
    simp only [hneg, if_true] at h ⊢
    simp only [true_eq_decide_iff]
    omega

theorem F32.mag_eq_of_natAbs_units_eq (h : x.units.natAbs = y.units.natAbs) : x.mag = y.mag := by
  rw [F32.natAbs_units, F32.natAbs_units] at h
  exact magUnits_strictMono.injective h

theorem F32.eq_of_units_eq (h : x.units = y.units) (h0 : y.units ≠ 0) : x = y := by
  refine F32.ext_sign_mag ?_ (F32.mag_eq_of_natAbs_units_eq (congrArg Int.natAbs h))
  rw [F32.isNeg_eq_of_units_ne_zero h0, F32.isNeg_eq_of_units_ne_zero (h ▸ h0), h]

theorem F32.units_cast (x : F32) : (x.units : ℚ) = x.value * 2 ^ 149 := by
  rw [F32.value, div_mul_cancel₀ _ (by positivity)]

theorem F32.value_eq_zero_iff : x.value = 0 ↔ x.units = 0 := by
  rw [value_eq_iff, zero_mul, Int.cast_eq_zero]

theorem F32.value_le_value_iff : x.value ≤ y.value ↔ x.units ≤ y.units := by
  rw [F32.value, F32.value, div_le_div_iff_of_pos_right (by positivity), Int.cast_le]

theorem F32.value_lt_value_iff : x.value < y.value ↔ x.units < y.units := by
  rw [F32.value, F32.value, div_lt_div_iff_of_pos_right (by positivity), Int.cast_lt]

theorem F32.value_eq_value_iff : x.value = y.value ↔ x.units = y.units := by
  rw [F32.value, F32.value, div_left_inj' (by positivity), Int.cast_inj]

theorem F32.isFinite_of_units_eq_zero (h : x.units = 0) : x.isFinite = true := by
  have hmag : x.mag = 0 := by simpa [F32.isZero] using F32.isZero_iff_units.2 h
  rw [F32.isFinite_iff, hmag]
  decide

/-- `Numerics.same` of binary32 is equality of unit counts. -/
theorem same_iff_units_eq : binary32.same x y ↔ x.units = y.units := by
  constructor
  · rintro (rfl | ⟨⟨-, hx⟩, -, hy⟩)
    · rfl
    · rw [F32.value_eq_zero_iff.1 hx, F32.value_eq_zero_iff.1 hy]
  · intro h
    by_cases h0 : y.units = 0
    · exact .inr ⟨⟨F32.isFinite_of_units_eq_zero (h.trans h0), F32.value_eq_zero_iff.2 (h.trans h0)⟩,
        F32.isFinite_of_units_eq_zero h0, F32.value_eq_zero_iff.2 h0⟩
    · exact .inl (F32.eq_of_units_eq h h0)

@[simp] theorem F32.value_neg (x : F32) : x.neg.value = -x.value := by
  rw [F32.value, F32.value, F32.units_neg]
  push_cast
  ring

theorem F32.abs_value (x : F32) : |x.value| = magUnits x.mag / 2 ^ 149 := by
  rw [F32.value, abs_div, abs_of_pos (by positivity : (0 : ℚ) < 2 ^ 149), ← F32.natAbs_units, Nat.cast_natAbs,
    Int.cast_abs]

end units

/-! ## The rounding of a rational -/

/-- The numerator `F32.ofRat` rounds over the denominator of `q`: `|q|` in units of 2^-149. -/
def ratNumerator (q : ℚ) : Nat := q.num.natAbs * 2 ^ 149

theorem abs_eq_ratNumerator (q : ℚ) : |q| * 2 ^ 149 * q.den = ratNumerator q := by
  have hden : (q.den : ℚ) ≠ 0 := mod_cast q.den_ne_zero
  have habs : |q| * q.den = q.num.natAbs := by
    rw [Nat.cast_natAbs, Int.cast_abs, ← Rat.mul_den_eq_num, abs_mul, Nat.abs_cast]
  rw [ratNumerator, Nat.cast_mul, ← habs]
  push_cast
  ring

theorem ofRat_eq_rnd (q : ℚ) : F32.ofRat q = F32.rnd (decide (q < 0)) (ratNumerator q) q.den := by
  rw [F32.ofRat, F32.ofFraction, ratNumerator]
  simp only [Rat.num_neg]

/-- Fractions with the same value round to the same magnitude. -/
theorem roundMag_congr {n d n' d' : Nat} (hd : 0 < d) (hd' : 0 < d') (h : n * d' = n' * d) :
    roundMag n d = roundMag n' d' :=
  le_antisymm (roundMag_mono hd hd' h.le) (roundMag_mono hd' hd h.ge)

theorem roundMag_zero {d : Nat} (hd : 0 < d) : roundMag 0 d = 0 := by
  simpa using roundMag_exact (p := 0) hd (Nat.zero_le _)

section signed
variable {neg : Bool} {n d : Nat} {q : ℚ} (hd : 0 < d) (h : q * 2 ^ 149 * d = if neg then -(n : ℚ) else n)
include hd h

/-- The sign of a non-zero fraction in units is that of the rational. -/
theorem neg_eq_decide_lt_zero (hn : 0 < n) : neg = decide (q < 0) := by
  have hn' : (0 : ℚ) < n := mod_cast hn
  have hpos : (0 : ℚ) < 2 ^ 149 * d := by positivity
  rw [mul_assoc] at h
  cases neg with
  | false =>
    have hq : 0 < q := pos_of_mul_pos_left (by simpa [h] using hn') hpos.le
    simp [hq.le]
  | true =>
    have hq : q < 0 := neg_of_mul_neg_left (by simpa [h] using hn') hpos.le
    simp [hq]

theorem roundMag_eq_of_signed : roundMag n d = roundMag (ratNumerator q) q.den := by
  have habs : |q| * 2 ^ 149 * d = n := by
    have h' := congrArg abs h
    rw [abs_mul, abs_mul, Nat.abs_cast, abs_of_pos (by positivity : (0 : ℚ) < 2 ^ 149)] at h'
    rw [h']
    split <;> simp
  refine roundMag_congr hd q.den_pos ?_
  have hcross : (n : ℚ) * q.den = ratNumerator q * d := by
    rw [← habs, ← abs_eq_ratNumerator]
    ring
  exact_mod_cast hcross

/-- A fraction in units, of either sign, rounds as the rational it is does. -/
theorem units_rnd_eq_units_ofRat : (F32.rnd neg n d).units = (F32.ofRat q).units := by
  rw [ofRat_eq_rnd, F32.units_rnd, F32.units_rnd, ← roundMag_eq_of_signed hd h]
  rcases Nat.eq_zero_or_pos n with hn | hn
  · simp [hn, roundMag_zero hd]
  · rw [neg_eq_decide_lt_zero hd h hn]

end signed

theorem ofRat_units (q : ℚ) : (F32.ofRat q).units =
    if q < 0 then -(magUnits (roundMag (ratNumerator q) q.den) : Int)
    else magUnits (roundMag (ratNumerator q) q.den) := by
  rw [ofRat_eq_rnd, F32.units_rnd]
  simp

theorem F32.isNaN_ofRat (q : ℚ) : (F32.ofRat q).isNaN = false := F32.isNaN_rnd _ _ _

theorem roundMag_ratNumerator_mono {q r : ℚ} (h : |q| ≤ |r|) :
    roundMag (ratNumerator q) q.den ≤ roundMag (ratNumerator r) r.den := by
  refine roundMag_mono q.den_pos r.den_pos ?_
  have : (ratNumerator q : ℚ) * r.den ≤ ratNumerator r * q.den := by
    rw [← abs_eq_ratNumerator, ← abs_eq_ratNumerator]
    calc |q| * 2 ^ 149 * q.den * r.den = |q| * (2 ^ 149 * q.den * r.den) := by ring
      _ ≤ |r| * (2 ^ 149 * q.den * r.den) := by gcongr
      _ = |r| * 2 ^ 149 * r.den * q.den := by ring
  exact_mod_cast this

/-- Rounding keeps order (R8). -/
theorem ofRat_units_mono {q r : ℚ} (h : q ≤ r) : (F32.ofRat q).units ≤ (F32.ofRat r).units := by
  rw [ofRat_units, ofRat_units]
  by_cases hr : r < 0
  · have hq : q < 0 := h.trans_lt hr
    have hmono := magUnits_le_iff.2 (roundMag_ratNumerator_mono (q := r) (r := q)
      (by rw [abs_of_neg hr, abs_of_neg hq]; linarith))
    rw [if_pos hr, if_pos hq]
    omega
  · by_cases hq : q < 0
    · rw [if_pos hq, if_neg hr]
      omega
    · have hmono := magUnits_le_iff.2 (roundMag_ratNumerator_mono (q := q) (r := r)
        (by rw [abs_of_nonneg (not_lt.1 hr), abs_of_nonneg (not_lt.1 hq)]; exact h))
      rw [if_neg hq, if_neg hr]
      omega

/-- Rounding keeps a number (R8). -/
theorem ofRat_value_units {x : F32} (h : x.isFinite = true) : (F32.ofRat x.value).units = x.units := by
  have hmag : roundMag (magUnits x.mag) 1 = x.mag := by
    simpa using roundMag_exact (d := 1) one_pos (F32.isFinite_iff.1 h).le
  have hx : (F32.rnd x.isNeg (magUnits x.mag) 1).units = x.units := by
    rw [F32.units_rnd, hmag, F32.units]
  rw [← hx]
  refine (units_rnd_eq_units_ofRat one_pos ?_).symm
  rw [← F32.units_cast, F32.units]
  split <;> simp

/-! ## The operators round the exact result once (R9) -/

section operators
variable {a b : F32} (ha : a.isFinite = true) (hb : b.isFinite = true)
include ha hb

theorem F32.units_add_eq : (a.add b).units = (F32.ofRat (a.value + b.value)).units := by
  have hsum : a.value + b.value = ((a.units + b.units : Int) : ℚ) / 2 ^ 149 := by
    rw [F32.value, F32.value]
    push_cast
    ring
  rw [hsum]
  unfold F32.add
  rw [F32.isNaN_of_finite ha, F32.isNaN_of_finite hb, F32.isInf_of_finite ha, F32.isInf_of_finite hb]
  simp only [Bool.or_self, Bool.false_eq_true, if_false]
  generalize a.units + b.units = s
  split
  · next h0 =>
    have hzero : (F32.ofRat 0).units = 0 := by decide
    have hmag : (F32.ofSignMag (a.isNeg && b.isNeg) 0).mag = 0 := F32.mag_ofSignMag (by norm_num)
    rw [h0, Int.cast_zero, zero_div, hzero, ← F32.isZero_iff_units, F32.isZero, hmag]
    rfl
  · refine units_rnd_eq_units_ofRat one_pos ?_
    rw [div_mul_cancel₀ _ (by positivity), Nat.cast_one, mul_one, Nat.cast_natAbs, Int.cast_abs]
    rcases lt_or_ge s 0 with hs | hs
    · have hs' : (s : ℚ) < 0 := mod_cast hs
      simp [hs, abs_of_neg hs']
    · have hs' : (0 : ℚ) ≤ s := mod_cast hs
      simp [not_lt.2 hs, abs_of_nonneg hs']

theorem F32.units_sub_eq : (a.sub b).units = (F32.ofRat (a.value - b.value)).units := by
  rw [F32.sub, F32.units_add_eq ha (by simpa using hb), F32.value_neg, sub_eq_add_neg]

theorem F32.units_mul_eq : (a.mul b).units = (F32.ofRat (a.value * b.value)).units := by
  rw [F32.mul_of_finite ha hb]
  refine units_rnd_eq_units_ofRat (by positivity) ?_
  have hprod := congrArg (Int.cast : Int → ℚ) (F32.units_mul_units a b)
  rw [apply_ite (Int.cast : Int → ℚ)] at hprod
  push_cast at hprod ⊢
  rw [← hprod, F32.value, F32.value]
  ring

theorem F32.units_div_eq_ofRat (h0 : b.units ≠ 0) : (a.div b).units = (F32.ofRat (a.value / b.value)).units := by
  have hzero : b.isZero = false := by
    rw [Bool.eq_false_iff]
    exact fun h => h0 (F32.isZero_iff_units.1 h)
  have hmag : 0 < magUnits b.mag := by
    rw [← F32.natAbs_units]
    omega
  have hmag' : (magUnits b.mag : ℚ) ≠ 0 := by positivity
  rw [F32.div_of_finite ha hb hzero]
  refine units_rnd_eq_units_ofRat hmag ?_
  rw [F32.value, F32.value, F32.units, F32.units]
  push_cast
  cases a.isNeg <;> cases b.isNeg <;>
    (simp only [Bool.false_eq_true, if_true, if_false, bne, beq_false, beq_true, Bool.not_true, Bool.not_false]
     field_simp
     norm_num)

end operators

theorem F32.floor_eq (x : F32) : x.floor = ⌊x.value⌋ := by
  have h : ((2 ^ 149 : Nat) : ℚ) = 2 ^ 149 := by norm_num
  rw [F32.value, ← h, Int.floor_div_natCast, Int.floor_intCast]
  rfl

theorem F32.isNaN_nan : F32.nan.isNaN = true := by decide

/-- Any operation on a NaN is a NaN (R9). -/
theorem F32.isNaN_of_operand {a b : F32} (h : a.isNaN = true ∨ b.isNaN = true) : (a.add b).isNaN = true ∧
    (a.sub b).isNaN = true ∧ (a.mul b).isNaN = true ∧ (a.div b).isNaN = true := by
  have hor : (a.isNaN || b.isNaN) = true := by simpa using h
  have hnan : a.add b = F32.nan ∧ a.sub b = F32.nan ∧ a.mul b = F32.nan ∧ a.div b = F32.nan := by
    simp [F32.add, F32.sub, F32.mul, F32.div, hor]
  obtain ⟨hadd, hsub, hmul, hdiv⟩ := hnan
  rw [hadd, hsub, hmul, hdiv]
  exact ⟨F32.isNaN_nan, F32.isNaN_nan, F32.isNaN_nan, F32.isNaN_nan⟩

/-! Comparisons of finite numbers are those of their values (R10). -/

section compare
variable {a b : F32} (ha : a.isFinite = true) (hb : b.isFinite = true)
include ha hb

theorem F32.lt_iff_value : a.lt b = true ↔ a.value < b.value := by
  simp [F32.lt_iff, F32.value_lt_value_iff, F32.isNaN_of_finite ha, F32.isNaN_of_finite hb]

theorem F32.le_iff_value : a.le b = true ↔ a.value ≤ b.value := by
  simp [F32.le_iff, F32.value_le_value_iff, F32.isNaN_of_finite ha, F32.isNaN_of_finite hb]

theorem F32.eq_iff_value : a.eq b = true ↔ a.value = b.value := by
  simp [F32.eq_iff, F32.value_eq_value_iff, F32.isNaN_of_finite ha, F32.isNaN_of_finite hb]

end compare

theorem bitsOfNum_of_finite {x : F32} (h : x.isFinite = true) : bitsOfNum x = x.bits := by
  rw [bitsOfNum, F32.isNaN_of_finite h]
  rfl

theorem F32.two_hasValue : binary32.hasValue F32.two 2 := by
  exact_mod_cast hasValue_of_units (x := F32.two) (n := 2) (by decide) (by decide)

theorem F32.half_hasValue : binary32.hasValue F32.half (1 / 2) :=
  ⟨by decide, value_eq_iff.2 (by rw [show F32.half.units = 2 ^ 148 by decide]; norm_num)⟩

/-- Binary32 meets what the rules ask of a number type. -/
theorem binary32_lawful : binary32.Lawful where
  finite_not_nan _ := F32.isNaN_of_finite
  rnd_value _ h := same_iff_units_eq.2 (ofRat_value_units h)
  rnd_mono q r h := F32.le_iff.2 ⟨F32.isNaN_ofRat q, F32.isNaN_ofRat r, ofRat_units_mono h⟩
  add _ _ ha hb := same_iff_units_eq.2 (F32.units_add_eq ha hb)
  sub _ _ ha hb := same_iff_units_eq.2 (F32.units_sub_eq ha hb)
  mul _ _ ha hb := same_iff_units_eq.2 (F32.units_mul_eq ha hb)
  div _ _ ha hb h0 := same_iff_units_eq.2 (F32.units_div_eq_ofRat ha hb (mt F32.value_eq_zero_iff.2 h0))
  neg a h := ⟨(F32.isFinite_neg a).trans h, F32.value_neg a⟩
  nan _ _ := F32.isNaN_of_operand
  compare _ _ ha hb := ⟨F32.lt_iff_value ha hb, F32.le_iff_value ha hb, F32.eq_iff_value ha hb⟩
  compare_nan _ _ h := ⟨F32.not_lt_of_isNaN h, F32.not_le_of_isNaN h, F32.not_eq_of_isNaN h⟩
  floor x _ := F32.floor_eq x
  ofInt n := .inl (by
    show F32.ofInt n = F32.ofRat n
    rw [F32.ofRat, Rat.num_intCast, Rat.den_intCast]
    rfl)
  numOfBits b h := same_iff_units_eq.2 (ofRat_value_units h).symm
  bitsOfNum x h := by
    have hbits : binary32.bitsOfNum x = x.bits := bitsOfNum_of_finite h
    rw [hbits]
    rcases same_iff_units_eq.2 (ofRat_value_units h).symm with heq | ⟨⟨-, hvalue⟩, -⟩
    · exact .inl (congrArg F32.bits heq)
    · exact .inr ⟨hvalue, F32.isZero_iff_units.2 (F32.value_eq_zero_iff.1 hvalue)⟩
  bitsOfNum_nan x h := if_pos h
  zero := zero_hasValue
  half := F32.half_hasValue
  one := one_hasValue
  two := F32.two_hasValue

/-- The rationals meet it too, every clause being an identity of exact arithmetic. -/
theorem rationals_lawful : rationals.Lawful where
  finite_not_nan _ _ := rfl
  rnd_value _ _ := .inl rfl
  rnd_mono _ _ h := decide_eq_true h
  add _ _ _ _ := .inl rfl
  sub _ _ _ _ := .inl rfl
  mul _ _ _ _ := .inl rfl
  div _ _ _ _ _ := .inl rfl
  neg _ _ := ⟨rfl, rfl⟩
  nan _ _ h := by simp [rationals] at h
  compare _ _ _ _ := ⟨decide_eq_true_iff, decide_eq_true_iff, decide_eq_true_iff⟩
  compare_nan _ _ h := by simp [rationals] at h
  floor _ _ := rfl
  ofInt _ := .inl rfl
  numOfBits _ h := .inl (if_pos h)
  bitsOfNum _ _ := .inl rfl
  bitsOfNum_nan _ h := by simp [rationals] at h
  zero := ⟨rfl, rfl⟩
  half := ⟨rfl, rfl⟩
  one := ⟨rfl, rfl⟩
  two := ⟨rfl, rfl⟩

/-- Settles O60: the laws hold of both instances, and the rational one rounds nothing. -/
theorem bothNumericsAreLawful : Obligations.BothNumericsAreLawful :=
  ⟨binary32_lawful, rationals_lawful, fun _ => ⟨rfl, rfl, rfl⟩⟩

end Sys2Proof

/-! Rounding takes the nearest number, ties to the even field, and an infinity from 2^128 - 2^103 on (00_scope.md
R8, R9). `roundDown` and its successor are the fields on either side of the exact magnitude. -/

namespace Sys2Proof
open Machine Reference

/-! ## Magnitudes -/

section magnitudes
variable {n d : Nat}

theorem roundDown_mod_two (n d : Nat) : roundDown n d % 2 = roundSig n d % 2 := by
  unfold roundDown
  omega

/-- Rounding goes up beyond the midpoint of the two neighbours, and at it from an odd field. -/
theorem roundsUp_iff_midpoint : roundsUp n d ↔
    (magUnits (roundDown n d) + magUnits (roundDown n d + 1)) * d < 2 * n ∨
      ((magUnits (roundDown n d) + magUnits (roundDown n d + 1)) * d = 2 * n ∧ roundDown n d % 2 = 1) := by
  have hmid : magUnits (roundDown n d) + magUnits (roundDown n d + 1) =
      (2 * roundSig n d + 1) * 2 ^ roundExp n d := by
    rw [magUnits_roundDown, magUnits_roundDown_succ]
    ring
  rw [roundsUp_iff, hmid, roundDown_mod_two]

/-- The field rounding takes, below the largest: the upper neighbour or the lower one. -/
theorem roundMag_cases (h : roundMag n d < infMag) :
    (roundsUp n d ∧ roundMag n d = roundDown n d + 1) ∨ (¬ roundsUp n d ∧ roundMag n d = roundDown n d) := by
  rw [roundMag_eq] at h ⊢
  by_cases hup : roundsUp n d
  · rw [if_pos hup] at h ⊢
    exact .inl ⟨hup, by omega⟩
  · rw [if_neg hup] at h ⊢
    exact .inr ⟨hup, by omega⟩

/-- No magnitude is nearer to `n / d` than the rounded one, and of two equally near the even field is taken. -/
theorem roundMag_nearest (hd : 0 < d) (hfin : roundMag n d < infMag) (p : Nat) :
    ((magUnits (roundMag n d) * d : Nat) - n : Int).natAbs ≤ ((magUnits p * d : Nat) - n : Int).natAbs ∧
      (((magUnits (roundMag n d) * d : Nat) - n : Int).natAbs = ((magUnits p * d : Nat) - n : Int).natAbs →
        p ≠ roundMag n d → roundMag n d % 2 = 0) := by
  have hbelow := roundDown_le_exact n d
  have habove := exact_lt_roundDown_succ n hd
  have hmid := roundsUp_iff_midpoint (n := n) (d := d)
  rw [Nat.add_mul] at hmid
  have hside : p = roundDown n d ∨ p = roundDown n d + 1 ∨ magUnits p * d < magUnits (roundDown n d) * d ∨
      magUnits (roundDown n d + 1) * d < magUnits p * d := by
    rw [Nat.mul_lt_mul_right hd, Nat.mul_lt_mul_right hd, magUnits_lt_iff, magUnits_lt_iff]
    omega
  rcases roundMag_cases hfin with ⟨hup, hp⟩ | ⟨hup, hp⟩
  · rw [hmid] at hup
    rw [hp]
    rcases hside with rfl | rfl | hlt | hlt <;> omega
  · rw [hmid] at hup
    rw [hp]
    rcases hside with rfl | rfl | hlt | hlt <;> omega

/-- Overflow begins half a gap above the largest finite magnitude. -/
theorem roundMag_lt_infMag_iff (hd : 0 < d) : roundMag n d < infMag ↔ n < ((2 ^ 25 - 1) * 2 ^ 252) * d := by
  have hlast : magUnits (infMag - 1) + magUnits infMag = 2 * ((2 ^ 25 - 1) * 2 ^ 252) := by decide
  have hodd : (infMag - 1) % 2 = 1 := by decide
  have hpos : 0 < infMag := by decide
  have hmid := roundsUp_iff_midpoint (n := n) (d := d)
  rw [roundMag_eq]
  rcases lt_trichotomy (roundDown n d) (infMag - 1) with hlt | heq | hgt
  · have hn : n < magUnits (infMag - 1) * d := by
      rw [← not_le, ← le_roundDown_iff hd]
      omega
    have : magUnits (infMag - 1) * d ≤ ((2 ^ 25 - 1) * 2 ^ 252) * d := by
      gcongr
      decide
    split <;> omega
  · rw [heq, Nat.sub_add_cancel hpos, hlast, hodd] at hmid
    rw [heq]
    by_cases hup : roundsUp n d
    · rw [if_pos hup]
      rw [hmid] at hup
      omega
    · rw [if_neg hup]
      rw [hmid] at hup
      omega
  · have hn : magUnits infMag * d ≤ n := by
      rw [← le_roundDown_iff hd]
      omega
    have : ((2 ^ 25 - 1) * 2 ^ 252) * d ≤ magUnits infMag * d := by
      gcongr
      decide
    split <;> omega

end magnitudes

/-! ## Values -/

theorem mag_ofRat (q : ℚ) : (F32.ofRat q).mag = roundMag (ratNumerator q) q.den := by
  rw [ofRat_eq_rnd, F32.mag_rnd]

theorem ratScale_pos (q : ℚ) : (0 : ℚ) < 2 ^ 149 * q.den := by
  have : (0 : ℚ) < q.den := mod_cast q.den_pos
  positivity

theorem ofRat_isFinite_iff (q : ℚ) : (F32.ofRat q).isFinite = true ↔ |q| < 2 ^ 128 - 2 ^ 103 := by
  have hlimit : ((((2 ^ 25 - 1) * 2 ^ 252) * q.den : Nat) : ℚ) = (2 ^ 128 - 2 ^ 103) * (2 ^ 149 * q.den) := by
    push_cast
    ring
  rw [F32.isFinite_iff, mag_ofRat, roundMag_lt_infMag_iff q.den_pos, ← Nat.cast_lt (α := ℚ), hlimit,
    ← abs_eq_ratNumerator, mul_assoc, mul_lt_mul_iff_left₀ (ratScale_pos q)]

theorem ofRat_value_sign (q : ℚ) : (F32.ofRat q).value = if q < 0 then -|(F32.ofRat q).value|
    else |(F32.ofRat q).value| := by
  rw [F32.abs_value, mag_ofRat, F32.value, ofRat_units]
  split <;> push_cast <;> ring

/-- The rounding of `q` has `q`'s sign, so its distance from `q` is that of the magnitudes. -/
theorem abs_ofRat_value_sub (q : ℚ) : |(F32.ofRat q).value - q| = |(|(F32.ofRat q).value| - |q|)| := by
  rcases lt_or_ge q 0 with hq | hq
  · rw [ofRat_value_sign, if_pos hq, abs_neg, abs_abs, abs_of_neg hq, ← abs_neg]
    congr 1
    ring
  · rw [ofRat_value_sign, if_neg (not_lt.2 hq), abs_abs, abs_of_nonneg hq]

/-- The distance of a magnitude from `|q|`, in units of 2^-149 over the denominator of `q`. -/
theorem abs_abs_value_sub (y : F32) (q : ℚ) : |(|y.value| - |q|)| =
    ((magUnits y.mag * q.den : Nat) - ratNumerator q : Int).natAbs / (2 ^ 149 * q.den) := by
  have hden := ratScale_pos q
  have hscale : (|y.value| - |q|) * (2 ^ 149 * q.den) = magUnits y.mag * q.den - ratNumerator q := by
    rw [F32.abs_value, ← abs_eq_ratNumerator]
    ring
  rw [eq_div_iff hden.ne', Nat.cast_natAbs, Int.cast_abs]
  push_cast
  rw [← hscale, abs_mul, abs_of_pos hden]

/-- Rounding is to nearest, ties to the even field, with IEEE 754's overflow limit (log 9). -/
theorem roundsTo_ofRat (q : ℚ) : RoundsTo (F32.ofRat q) q := by
  have hden := ratScale_pos q
  unfold RoundsTo
  by_cases hq : |q| < 2 ^ 128 - 2 ^ 103
  · have hfin := (ofRat_isFinite_iff q).2 hq
    rw [if_pos hq]
    refine ⟨hfin, fun y _ => ?_⟩
    obtain ⟨hle, htie⟩ := roundMag_nearest q.den_pos (mag_ofRat q ▸ F32.isFinite_iff.1 hfin) y.mag
    rw [← mag_ofRat] at hle htie
    have hmag : |(F32.ofRat q).value - q| ≤ |(|y.value| - |q|)| := by
      rw [abs_ofRat_value_sub, abs_abs_value_sub, abs_abs_value_sub]
      gcongr
    have hsign : |(|y.value| - |q|)| ≤ |y.value - q| := abs_abs_sub_abs_le y.value q
    refine ⟨hmag.trans hsign, fun heq hne => ?_⟩
    by_cases hym : y.mag = (F32.ofRat q).mag
    · have hq0 : q = 0 := by
        have habs : |(F32.ofRat q).value| = |y.value| := by rw [F32.abs_value, F32.abs_value, hym]
        rcases abs_eq_abs.1 habs with h | h
        · exact absurd h.symm hne
        · rcases abs_eq_abs.1 heq with h' | h'
          · exact absurd (by linarith) hne
          · linarith
      rw [hq0]
      decide
    · refine htie ?_ hym
      have heq' := le_antisymm hmag (heq ▸ hsign)
      rw [abs_ofRat_value_sub, abs_abs_value_sub, abs_abs_value_sub, div_left_inj' hden.ne',
        Nat.cast_inj] at heq'
      exact heq'
  · rw [if_neg hq]
    have hmag : roundMag (ratNumerator q) q.den = infMag := by
      refine le_antisymm (roundMag_le_infMag _ _) (not_lt.1 fun h => hq ?_)
      rw [← ofRat_isFinite_iff, F32.isFinite_iff, mag_ofRat]
      exact h
    rw [ofRat_eq_rnd, F32.rnd, hmag, F32.inf]

theorem F32.not_isFinite_inf (neg : Bool) : ¬ (F32.inf neg).isFinite = true := by
  cases neg <;> decide

theorem Reference.RoundsTo.of_same {x y : F32} {q : ℚ} (h : binary32.same x y) (hy : RoundsTo y q) : RoundsTo x q := by
  rcases h with rfl | ⟨⟨hx, hxv⟩, hyf, hyv⟩
  · exact hy
  · have hmag : x.mag = y.mag := by
      apply F32.mag_eq_of_natAbs_units_eq
      rw [F32.value_eq_zero_iff.1 hxv, F32.value_eq_zero_iff.1 hyv]
    have hvalue : x.value = y.value := hxv.trans hyv.symm
    unfold RoundsTo at hy ⊢
    split at hy
    · next hq =>
      rw [if_pos hq, hmag, hvalue]
      exact ⟨hx, hy.2⟩
    · next hq =>
      have hyf : y.isFinite = true := hyf
      rw [hy] at hyf
      exact absurd hyf (F32.not_isFinite_inf _)

/-- Settles O31: each operator is lawful, hence the rounding of the exact result but for the sign of a zero. -/
theorem arithmeticRoundsOnce : Obligations.ArithmeticRoundsOnce := fun a b ha hb =>
  ⟨.of_same (binary32_lawful.add a b ha hb) (roundsTo_ofRat _),
    .of_same (binary32_lawful.sub a b ha hb) (roundsTo_ofRat _),
    .of_same (binary32_lawful.mul a b ha hb) (roundsTo_ofRat _),
    fun h0 => .of_same (binary32_lawful.div a b ha hb h0) (roundsTo_ofRat _)⟩

end Sys2Proof

/-! The special cases of arithmetic (00_scope.md R9), the pseudo-commands (30_encoding.md R71), and what the
model's configuration meets (00_scope.md R6, R7). -/

namespace Sys2Proof
open Machine Reference

/-! ## Special cases of arithmetic -/

section zero
variable {z : F32} (hz : z.isZero = true)
include hz

theorem F32.isFinite_of_isZero : z.isFinite = true :=
  F32.isFinite_of_units_eq_zero (F32.isZero_iff_units.1 hz)

theorem F32.div_of_isZero {a : F32} (ha : a.isFinite = true) :
    a.div z = if a.isZero then F32.nan else F32.inf (a.isNeg != z.isNeg) := by
  have hfin := F32.isFinite_of_isZero hz
  simp [F32.div, F32.isNaN_of_finite ha, F32.isInf_of_finite ha, F32.isNaN_of_finite hfin,
    F32.isInf_of_finite hfin, hz]

theorem F32.mul_inf_of_isZero (s : Bool) : z.mul (F32.inf s) = F32.nan := by
  have hinf : (F32.inf s).isInf = true := by cases s <;> decide
  have hfin := F32.isFinite_of_isZero hz
  simp [F32.mul, F32.isNaN_of_finite hfin, F32.isNaN_inf, hinf, hz]

end zero

/-- Settles O32: each named case is one branch of the operator's definition. -/
theorem specialCasesOfArithmetic : Obligations.SpecialCasesOfArithmetic := by
  refine ⟨fun a z ha ha0 hz => ?_, fun y z hy hz => ?_, fun s => ?_, fun s z hz => ?_,
    fun a b => F32.isNaN_of_operand, fun a => ⟨F32.mag_neg a, F32.isNeg_neg a⟩⟩
  · rw [F32.div_of_isZero hz ha, ha0]
    rfl
  · rw [F32.div_of_isZero hz (F32.isFinite_of_isZero hy), hy]
    rfl
  · cases s <;> decide
  · rw [F32.mul_inf_of_isZero hz]
    rfl

/-! ## Pseudo-commands -/

theorem expandLegal_of_wellFormed {p : Pseudo} (h : p.wellFormed = true) : expandLegal p = some p.expand :=
  if_pos h

theorem wrf_wellFormed_iff (v : VoiceIdx) (r : ParamReg) (n : Int) (d : Nat) :
    (Pseudo.wrf v r n d).wellFormed = true ↔
      r ∈ [ParamReg.pitch, .spread, .chaos, .chaosBw, .syncIn, .dt] ∧ 0 < d := by
  cases r <;> simp [Pseudo.wellFormed, isRealReg]

theorem frame_wellFormed_iff (k : Nat) : (Pseudo.frame k).wellFormed = true ↔ 1 ≤ k ∧ k ≤ 16 := by
  simp [Pseudo.wellFormed]

/-- The fraction of WRF is rounded as the rational it is. -/
theorem roundsTo_ofFraction (n : Int) {d : Nat} (hd : 0 < d) : RoundsTo (F32.ofFraction n d) ((n : ℚ) / d) := by
  refine .of_same (same_iff_units_eq.2 ?_) (roundsTo_ofRat _)
  have hd' : (d : ℚ) ≠ 0 := by positivity
  have hscale : (n : ℚ) / d * 2 ^ 149 * d = n * 2 ^ 149 := by field_simp
  refine units_rnd_eq_units_ofRat hd ?_
  rw [hscale, Nat.cast_mul, Nat.cast_natAbs, Int.cast_abs, Nat.cast_pow, Nat.cast_ofNat]
  rcases lt_or_ge n 0 with h | h
  · rw [if_pos (decide_eq_true h), abs_of_neg (Int.cast_lt_zero.2 h)]
    ring
  · rw [if_neg (by simpa using h), abs_of_nonneg (Int.cast_nonneg h)]

/-- The voices below `k`, counted or tested. -/
theorem take_finRange_eq_filter : ∀ k ≤ 16,
    (List.finRange 16).take k = (List.finRange 16).filter fun v => decide (v.val < k) := by
  decide

/-- Settles O5: a legal pseudo-command expands to what `Pseudo.expand` names; WRF's word is that of a rounded
fraction, which is no NaN. -/
theorem pseudoCommandsExpand : Obligations.PseudoCommandsExpand := by
  refine ⟨wrf_wellFormed_iff, fun _ _ _ _ => rfl, frame_wellFormed_iff, fun v r n d h => ?_,
    fun v a b e => expandLegal_of_wellFormed rfl, fun k h => ?_, fun p h => ?_⟩
  · obtain ⟨-, hd⟩ := (wrf_wellFormed_iff v r n d).1 h
    have hbits : bitsOfNum (F32.ofFraction n d) = (F32.ofFraction n d).bits :=
      if_neg (by rw [F32.ofFraction, F32.isNaN_rnd]; decide)
    refine ⟨F32.ofFraction n d, roundsTo_ofFraction n hd, F32.isNeg_rnd _ _ _, ?_⟩
    rw [expandLegal_of_wellFormed h, Pseudo.expand, hbits]
  · obtain ⟨-, hk⟩ := (frame_wellFormed_iff k).1 h
    rw [expandLegal_of_wellFormed h, Pseudo.expand, take_finRange_eq_filter k hk]
  · rw [expandLegal, h]
    rfl

/-! ## The configuration -/

theorem constants_decimal : Constants.decimal binary32 = constants32 := by
  unfold Constants.decimal constants32
  simp only [Constants.mk.injEq, SinConstants.mk.injEq]
  refine ⟨?_, ?_, ?_, ?_, ?_, ?_, ?_, ?_, ?_, ?_, ?_⟩ <;> decide +kernel

/-- The band of the phase increment. -/
theorem dpBand : F32.zero.lt cfg.dpMin = true ∧ cfg.dpMin.le cfg.dpMax = true ∧ cfg.dpMax.lt F32.one = true := by
  decide +kernel

/-- Settles O59: the OPEN parameters are lawful by their type, and each listed word is its decimal rounded. -/
theorem configurationMeetsItsContracts : Obligations.ConfigurationMeetsItsContracts := by
  obtain ⟨hpos, hle, hlt⟩ := dpBand
  exact ⟨hpos, hle, hlt, cfg_open_contract.refFreq_finite, cfg_open_contract.refFreq_pos, cfg_open_contract.kernel,
    cfg_open_contract.tuning_finite, cfg_open_contract.exp2, constants_decimal⟩

end Sys2Proof

/-! Bounds on binary32 results. `F32.between` is a closed interval of finite values; an operator's result lies
between any two numbers that its exact result lies between, and is the exact result when that is a number. -/

namespace Sys2Proof
open Machine

/-- Finite, with a value in `[lo, hi]`. -/
def F32.between (x : F32) (lo hi : ℚ) : Prop := x.isFinite = true ∧ lo ≤ x.value ∧ x.value ≤ hi

/-- The value of some finite number. -/
def Exact (q : ℚ) : Prop := ∃ x : F32, binary32.hasValue x q

/-! ## Numbers -/

@[simp] theorem F32.isFinite_zero : F32.zero.isFinite = true := by decide
@[simp] theorem F32.isFinite_half : F32.half.isFinite = true := by decide
@[simp] theorem F32.isFinite_one : F32.one.isFinite = true := by decide
@[simp] theorem F32.isFinite_two : F32.two.isFinite = true := by decide
@[simp] theorem F32.value_zero : F32.zero.value = 0 := zero_hasValue.2
@[simp] theorem F32.value_half : F32.half.value = 1 / 2 := F32.half_hasValue.2
@[simp] theorem F32.value_one : F32.one.value = 1 := one_hasValue.2
@[simp] theorem F32.value_two : F32.two.value = 2 := F32.two_hasValue.2

theorem exact_value {x : F32} (h : x.isFinite = true) : Exact x.value := ⟨x, h, rfl⟩

/-- `Numerics.hasValue` of binary32, in binary32's own terms. -/
theorem hasValue_iff {x : F32} {q : ℚ} : binary32.hasValue x q ↔ x.isFinite = true ∧ x.value = q := Iff.rfl

/-- `ofInt` of a count of at most 24 bits. -/
theorem ofInt_natCast {n : Nat} (h : n ≤ 2 ^ 24) : (F32.ofInt n).isFinite = true ∧ (F32.ofInt n).value = n :=
  have hn : (n : Int).natAbs ≤ 2 ^ 24 := by simpa using h
  hasValue_of_units (F32.isFinite_ofInt hn) (F32.units_ofInt hn)

theorem exact_int {n : Int} (h : n.natAbs ≤ 2 ^ 24) : Exact n :=
  ⟨F32.ofInt n, hasValue_of_units (F32.isFinite_ofInt h) (F32.units_ofInt h)⟩

theorem exact_nat {n : Nat} (h : n ≤ 2 ^ 24) : Exact n := mod_cast exact_int (n := n) (by simpa using h)

theorem exact_zero : Exact 0 := ⟨F32.zero, zero_hasValue⟩
theorem exact_half : Exact (1 / 2) := ⟨F32.half, F32.half_hasValue⟩
theorem exact_one : Exact 1 := ⟨F32.one, one_hasValue⟩
theorem exact_two : Exact 2 := ⟨F32.two, F32.two_hasValue⟩

theorem exact_quarter : Exact (1 / 4) :=
  ⟨⟨0x3E800000⟩, by decide, value_eq_iff.2 (by rw [show F32.units ⟨0x3E800000⟩ = 2 ^ 147 by decide]; norm_num)⟩

theorem Exact.neg {q : ℚ} : Exact q → Exact (-q) := by
  rintro ⟨x, hfin, hvalue⟩
  exact ⟨x.neg, (F32.isFinite_neg x).trans hfin, (F32.value_neg x).trans (congrArg (-·) hvalue)⟩

/-- An integer of at most 24 bits at any scale up to the largest. -/
theorem exact_of_mul_eq {q : ℚ} {m : Int} {e : Nat} (hm : m.natAbs < 2 ^ 24) (he : e ≤ 253)
    (h : q * 2 ^ 149 = m * 2 ^ e) : Exact q := by
  obtain ⟨p, hp, hmag⟩ := representable_mul_two_pow hm he
  have hlt := natAbs_mul_two_pow_lt hm he
  have hfin : p < infMag := magUnits_lt_iff.1 (hmag ▸ hlt)
  have hp31 : p < 2 ^ 31 := hfin.trans infMag_lt
  refine ⟨F32.ofSignMag (decide (m * 2 ^ e < 0)) p, ?_, value_eq_iff.2 ?_⟩
  · rw [binary32_isFinite, F32.isFinite_iff, F32.mag_ofSignMag hp31]
    exact hfin
  · have hunits : (F32.ofSignMag (decide (m * 2 ^ e < 0)) p).units = m * 2 ^ e := by
      rw [F32.units, F32.isNeg_ofSignMag hp31, F32.mag_ofSignMag hp31, ← hmag]
      simp only [decide_eq_true_eq]
      split <;> omega
    rw [hunits, h]
    push_cast
    rfl

/-- A number is such an integer at such a scale. -/
theorem Exact.exists_significand {q : ℚ} (h : Exact q) :
    ∃ (m : Int) (e : Nat), m.natAbs < 2 ^ 24 ∧ e ≤ 253 ∧ q * 2 ^ 149 = m * 2 ^ e := by
  obtain ⟨x, hfin, rfl⟩ := h
  have hlt : x.mag < infMag := F32.isFinite_iff.1 hfin
  have hinf : infMag = 255 * 2 ^ 23 := by decide
  obtain ⟨m, e, hm, he, hmag⟩ : ∃ m e : Nat, m < 2 ^ 24 ∧ e ≤ 253 ∧ magUnits x.mag = m * 2 ^ e := by
    by_cases hsub : x.mag < 2 ^ 23
    · exact ⟨x.mag, 0, by omega, by omega, by rw [magUnits_of_lt hsub, pow_zero, mul_one]⟩
    · refine ⟨x.mag % 2 ^ 23 + 2 ^ 23, x.mag / 2 ^ 23 - 1, by omega, by omega, ?_⟩
      rw [← magUnits_scaled (by omega) (by omega)]
      congr 1
      omega
  rw [binary32_value, ← F32.units_cast, F32.units, hmag]
  cases x.isNeg with
  | true => exact ⟨-m, e, by simpa using hm, he, by simp⟩
  | false => exact ⟨m, e, by simpa using hm, he, by simp⟩

/-- Scaling by a power of two is exact, away from the ends of the exponent range. -/
theorem Exact.two_pow_mul {q : ℚ} (h : Exact q) (hq : |q| ≤ 2 ^ 24) {k : Nat} (hk : k ≤ 80) :
    Exact (2 ^ k * q) := by
  obtain ⟨m, e, hm, he, heq⟩ := h.exists_significand
  rcases eq_or_ne m 0 with rfl | hm0
  · have hq0 : q = 0 := by simpa using heq
    rw [hq0, mul_zero]
    exact ⟨F32.zero, zero_hasValue⟩
  · have hexp : (2 : ℚ) ^ e ≤ 2 ^ 173 := by
      have hone : (1 : ℚ) ≤ |(m : ℚ)| := mod_cast Int.one_le_abs hm0
      calc (2 : ℚ) ^ e ≤ |(m : ℚ)| * 2 ^ e := le_mul_of_one_le_left (by positivity) hone
        _ = |q| * 2 ^ 149 := by
          rw [← abs_of_pos (by positivity : (0 : ℚ) < 2 ^ e), ← abs_mul, ← heq, abs_mul,
            abs_of_pos (by positivity : (0 : ℚ) < 2 ^ 149)]
        _ ≤ 2 ^ 24 * 2 ^ 149 := by gcongr
        _ = 2 ^ 173 := by norm_num
    have he' : e ≤ 173 := (pow_le_pow_iff_right₀ (by norm_num : (1 : ℚ) < 2)).1 hexp
    refine exact_of_mul_eq (m := m) (e := e + k) hm (by omega) ?_
    rw [mul_assoc, heq, pow_add]
    ring

/-! ## Comparisons as intervals -/

theorem F32.isFinite_of_units_lt {x : F32} (hnan : x.isNaN = false) {b : Nat} (hb : b ≤ 2 ^ 24)
    (h : x.units.natAbs ≤ b * 2 ^ 149) : x.isFinite = true := by
  refine F32.isFinite_iff_units.2 ⟨hnan, h.trans_lt ?_⟩
  rw [magUnits_infMag]
  calc b * 2 ^ 149 ≤ 2 ^ 24 * 2 ^ 149 := Nat.mul_le_mul_right _ hb
    _ < 2 ^ 24 * 2 ^ 253 := by norm_num

theorem within_iff_between {x : F32} {b : Nat} : x.within b ↔ x.between (-b) b := by
  have hscale : (0 : ℚ) < 2 ^ 149 := by positivity
  rw [F32.within, F32.between, ← abs_le, ← mul_le_mul_iff_left₀ hscale, ← abs_of_pos hscale, ← abs_mul,
    ← F32.units_cast, abs_of_pos hscale, ← Int.cast_abs, ← Nat.cast_natAbs]
  norm_cast

theorem inUnit_iff {x : F32} : binary32.inUnit x ↔ x.between 0 1 ∧ x.value < 1 := by
  have hone : F32.one.units = 2 ^ 149 := by decide
  constructor
  · rintro ⟨hlo, hhi⟩
    obtain ⟨-, hnan, hlo⟩ := F32.le_iff.1 hlo
    obtain ⟨-, -, hhi⟩ := F32.lt_iff.1 hhi
    have hlo : F32.zero.units ≤ x.units := hlo
    have hhi : x.units < F32.one.units := hhi
    have h0 : F32.zero.value ≤ x.value := F32.value_le_value_iff.2 hlo
    have h1 : x.value < F32.one.value := F32.value_lt_value_iff.2 hhi
    rw [F32.value_zero] at h0
    rw [F32.value_one] at h1
    rw [zero_units] at hlo
    rw [hone] at hhi
    exact ⟨⟨F32.isFinite_of_units_lt hnan (b := 1) (by norm_num) (by omega), h0, h1.le⟩, h1⟩
  · rintro ⟨⟨hfin, h0, -⟩, h1⟩
    exact ⟨(F32.le_iff_value F32.isFinite_zero hfin).2 (by rwa [F32.value_zero]),
      (F32.lt_iff_value hfin F32.isFinite_one).2 (by rwa [F32.value_one])⟩

/-- Between two finite numbers, by comparison or by value. -/
theorem le_and_le_iff_between {x lo hi : F32} (hlo : lo.isFinite = true) (hhi : hi.isFinite = true) :
    lo.le x = true ∧ x.le hi = true ↔ x.between lo.value hi.value := by
  constructor
  · rintro ⟨h1, h2⟩
    have hfin := F32.isFinite_of_le_of_le hlo hhi h1 h2
    exact ⟨hfin, (F32.le_iff_value hlo hfin).1 h1, (F32.le_iff_value hfin hhi).1 h2⟩
  · rintro ⟨hfin, h1, h2⟩
    exact ⟨(F32.le_iff_value hlo hfin).2 h1, (F32.le_iff_value hfin hhi).2 h2⟩

theorem F32.between.mono {x : F32} {lo hi lo' hi' : ℚ} (h : x.between lo hi) (hlo : lo' ≤ lo) (hhi : hi ≤ hi') :
    x.between lo' hi' :=
  ⟨h.1, hlo.trans h.2.1, h.2.2.trans hhi⟩

/-! ## Rounded results -/

/-- What `rnd` makes of an exact result, as a value; an infinity counts as its unit count. -/
def rndValue (q : ℚ) : ℚ := (F32.ofRat q).value

theorem rndValue_mono {q r : ℚ} (h : q ≤ r) : rndValue q ≤ rndValue r :=
  F32.value_le_value_iff.2 (ofRat_units_mono h)

theorem rndValue_of_exact {q : ℚ} (h : Exact q) : rndValue q = q := by
  obtain ⟨x, hfin, rfl⟩ := h
  exact F32.value_eq_value_iff.2 (ofRat_value_units hfin)

theorem rndValue_neg (q : ℚ) : rndValue (-q) = -rndValue q := by
  have hnum : ratNumerator (-q) = ratNumerator q := by simp [ratNumerator]
  rw [rndValue, rndValue, ofRat_value_sign, ofRat_value_sign q, F32.abs_value, F32.abs_value, mag_ofRat, mag_ofRat,
    hnum, Rat.den_neg_eq_den]
  rcases lt_trichotomy q 0 with h | rfl | h
  · rw [if_neg (by linarith), if_pos h, neg_neg]
  · have hzero : roundMag (ratNumerator 0) (0 : ℚ).den = 0 := by decide
    rw [hzero]
    simp
  · rw [if_pos (by linarith), if_neg (by linarith)]

section rounded
variable {x : F32} {q lo hi : ℚ} (h : binary32.same x (F32.ofRat q))
include h

theorem value_of_same : x.value = rndValue q := F32.value_eq_value_iff.2 (same_iff_units_eq.1 h)

theorem between_of_same (hlo : Exact lo) (hhi : Exact hi) (h1 : lo ≤ q) (h2 : q ≤ hi) : x.between lo hi := by
  have hl : lo ≤ x.value := by
    rw [value_of_same h, ← rndValue_of_exact hlo]
    exact rndValue_mono h1
  have hh : x.value ≤ hi := by
    rw [value_of_same h, ← rndValue_of_exact hhi]
    exact rndValue_mono h2
  refine ⟨?_, hl, hh⟩
  rcases h with rfl | ⟨⟨hfin, -⟩, -⟩
  · obtain ⟨a, ha, rfl⟩ := hlo
    obtain ⟨b, hb, rfl⟩ := hhi
    have hau := F32.value_le_value_iff.1 hl
    have hbu := F32.value_le_value_iff.1 hh
    have hal := (F32.isFinite_iff_units.1 ha).2
    have hbl := (F32.isFinite_iff_units.1 hb).2
    exact F32.isFinite_iff_units.2 ⟨F32.isNaN_ofRat q, by omega⟩
  · exact hfin

theorem hasValue_of_same (hq : Exact q) : binary32.hasValue x q := by
  obtain ⟨hfin, hl, hh⟩ := between_of_same h hq hq le_rfl le_rfl
  exact ⟨hfin, le_antisymm hh hl⟩

end rounded

section operators
variable {a b : F32} {lo hi : ℚ} (ha : a.isFinite = true) (hb : b.isFinite = true)
include ha hb

theorem value_add : (a.add b).value = rndValue (a.value + b.value) := value_of_same (binary32_lawful.add a b ha hb)
theorem value_sub : (a.sub b).value = rndValue (a.value - b.value) := value_of_same (binary32_lawful.sub a b ha hb)
theorem value_mul : (a.mul b).value = rndValue (a.value * b.value) := value_of_same (binary32_lawful.mul a b ha hb)

theorem hasValue_add (h : Exact (a.value + b.value)) : binary32.hasValue (a.add b) (a.value + b.value) :=
  hasValue_of_same (binary32_lawful.add a b ha hb) h
theorem hasValue_sub (h : Exact (a.value - b.value)) : binary32.hasValue (a.sub b) (a.value - b.value) :=
  hasValue_of_same (binary32_lawful.sub a b ha hb) h
theorem hasValue_mul (h : Exact (a.value * b.value)) : binary32.hasValue (a.mul b) (a.value * b.value) :=
  hasValue_of_same (binary32_lawful.mul a b ha hb) h

variable (hlo : Exact lo) (hhi : Exact hi)
include hlo hhi

theorem between_add (h1 : lo ≤ a.value + b.value) (h2 : a.value + b.value ≤ hi) : (a.add b).between lo hi :=
  between_of_same (binary32_lawful.add a b ha hb) hlo hhi h1 h2
theorem between_sub (h1 : lo ≤ a.value - b.value) (h2 : a.value - b.value ≤ hi) : (a.sub b).between lo hi :=
  between_of_same (binary32_lawful.sub a b ha hb) hlo hhi h1 h2
theorem between_mul (h1 : lo ≤ a.value * b.value) (h2 : a.value * b.value ≤ hi) : (a.mul b).between lo hi :=
  between_of_same (binary32_lawful.mul a b ha hb) hlo hhi h1 h2
theorem between_div (h0 : b.value ≠ 0) (h1 : lo ≤ a.value / b.value) (h2 : a.value / b.value ≤ hi) :
    (a.div b).between lo hi :=
  between_of_same (binary32_lawful.div a b ha hb h0) hlo hhi h1 h2

end operators

/-! ## The fractional part (00_scope.md R11) -/

/-- The low bits of a number are a number. -/
theorem exact_fract {q : ℚ} (h : Exact q) (h0 : 0 ≤ q) : Exact (Int.fract q) := by
  obtain ⟨m, e, hm, he, heq⟩ := h.exists_significand
  lift m to Nat using (by
    have : (0 : ℚ) ≤ m * 2 ^ e := heq ▸ mul_nonneg h0 (by positivity)
    exact_mod_cast nonneg_of_mul_nonneg_left this (by positivity : (0 : ℚ) < 2 ^ e))
  have hq : q = ((m * 2 ^ e : Nat) : ℚ) / ((2 ^ 149 : Nat) : ℚ) := by
    rw [eq_div_iff (by positivity), Nat.cast_mul, Nat.cast_pow, Nat.cast_pow, Nat.cast_ofNat, heq,
      Int.cast_natCast]
  rw [hq, Int.fract_div_natCast_eq_div_natCast_mod]
  rcases le_or_gt 149 e with hbig | hsmall
  · have hmod : m * 2 ^ e % 2 ^ 149 = 0 := by
      rw [← Nat.sub_add_cancel hbig, pow_add, ← mul_assoc, Nat.mul_mod_left]
    rw [hmod, Nat.cast_zero, zero_div]
    exact ⟨F32.zero, zero_hasValue⟩
  · have hscale : 2 ^ 149 = 2 ^ (149 - e) * 2 ^ e := by rw [← pow_add, Nat.sub_add_cancel hsmall.le]
    have hmod : m * 2 ^ e % 2 ^ 149 = m % 2 ^ (149 - e) * 2 ^ e := by rw [hscale, Nat.mul_mod_mul_right]
    have hle := Nat.mod_le m (2 ^ (149 - e))
    rw [hmod]
    generalize m % 2 ^ (149 - e) = r at hle ⊢
    refine exact_of_mul_eq (m := r) (e := e) (by simp at hm ⊢; omega) he ?_
    rw [Nat.cast_mul, Nat.cast_pow, Nat.cast_pow, Nat.cast_ofNat, div_mul_cancel₀ _ (by positivity),
      Int.cast_natCast]

/-- `frac` is exact for the non-negative numbers whose integer part `ofInt` keeps. -/
theorem frac_hasValue {x : F32} (hfin : x.isFinite = true) (h0 : 0 ≤ x.value) (h1 : x.value < 2 ^ 24) :
    binary32.hasValue (binary32.frac x) (Int.fract x.value) := by
  have hfloor : ⌊x.value⌋.natAbs ≤ 2 ^ 24 := by
    have hlo : 0 ≤ ⌊x.value⌋ := Int.floor_nonneg.2 h0
    have hhi : ⌊x.value⌋ < 2 ^ 24 := Int.floor_lt.2 (by push_cast; exact h1)
    omega
  obtain ⟨hofInt, hvalue⟩ :=
    hasValue_iff.1 (hasValue_of_units (F32.isFinite_ofInt hfloor) (F32.units_ofInt hfloor))
  have hsub : x.value - (F32.ofInt ⌊x.value⌋).value = Int.fract x.value := by
    rw [hvalue, Int.self_sub_floor]
  rw [binary32_frac, F32.floor_eq, ← hsub]
  exact hasValue_sub hfin hofInt (hsub ▸ exact_fract (exact_value hfin) h0)

end Sys2Proof

/-! The phase engine (41_phase_bank.md R85 to R90) in numbers. -/

namespace Sys2Proof
open Machine

/-! ## The increment and the advance (R85, R86) -/

theorem cfg_dpMin_isFinite : cfg.dpMin.isFinite = true := by decide
theorem cfg_dpMax_isFinite : cfg.dpMax.isFinite = true := by decide

theorem phaseIncrement_mem_band (lt : Latch F32) (ep : F32) : (phaseIncrement cfg lt ep).isFinite = true ∧
    cfg.dpMin.le (phaseIncrement cfg lt ep) = true ∧ (phaseIncrement cfg lt ep).le cfg.dpMax = true := by
  obtain ⟨-, hle, -⟩ := dpBand
  exact clamp_mem_band cfg_dpMin_isFinite cfg_dpMax_isFinite hle

/-- A number in the band is inside (0, 1). -/
theorem value_of_mem_band {dp : F32} (hlo : cfg.dpMin.le dp = true) (hhi : dp.le cfg.dpMax = true) :
    dp.isFinite = true ∧ 0 < dp.value ∧ dp.value < 1 := by
  obtain ⟨hpos, -, hlt⟩ := dpBand
  obtain ⟨hfin, h1, h2⟩ := (le_and_le_iff_between cfg_dpMin_isFinite cfg_dpMax_isFinite).1 ⟨hlo, hhi⟩
  rw [F32.lt_iff_value F32.isFinite_zero cfg_dpMin_isFinite, F32.value_zero] at hpos
  rw [F32.lt_iff_value cfg_dpMax_isFinite F32.isFinite_one, F32.value_one] at hlt
  exact ⟨hfin, hpos.trans_le h1, h2.trans_lt hlt⟩

/-- Settles O35: the increment is a clamp to a band inside (0, 1). -/
theorem phaseIncrementIsInTheBand : Obligations.PhaseIncrementIsInTheBand := by
  intro lt ep
  obtain ⟨hfin, hlo, hhi⟩ := phaseIncrement_mem_band lt ep
  obtain ⟨-, hpos, hlt⟩ := value_of_mem_band hlo hhi
  refine ⟨hfin, hlo, hhi, ?_, ?_⟩
  · rwa [F32.lt_iff_value F32.isFinite_zero hfin, F32.value_zero]
  · rwa [F32.lt_iff_value hfin F32.isFinite_one, F32.value_one]

theorem inUnit_of_hasValue_fract {x : F32} {q : ℚ} (h : binary32.hasValue x (Int.fract q)) : binary32.inUnit x := by
  obtain ⟨hfin, hvalue⟩ := hasValue_iff.1 h
  rw [inUnit_iff, hvalue]
  exact ⟨⟨hfin, hvalue ▸ Int.fract_nonneg q, hvalue ▸ (Int.fract_lt_one q).le⟩, Int.fract_lt_one q⟩

theorem advancePhase_hasValue {prev dp : F32} (hprev : binary32.inUnit prev) (hlo : cfg.dpMin.le dp = true)
    (hhi : dp.le cfg.dpMax = true) :
    binary32.hasValue (advancePhase binary32 prev dp) (Int.fract (prev.add dp).value) := by
  obtain ⟨⟨hfin, h0, -⟩, h1⟩ := inUnit_iff.1 hprev
  obtain ⟨hdp, hdp0, hdp1⟩ := value_of_mem_band hlo hhi
  obtain ⟨hsum, hs0, hs2⟩ := between_add hfin hdp exact_zero exact_two (by linarith) (by linarith)
  exact frac_hasValue hsum hs0 (hs2.trans_lt (by norm_num))

/-- Settles O36: the rounded sum is in [0, 2], where taking the fractional part is exact. -/
theorem advancedPhaseStaysInUnit : Obligations.AdvancedPhaseStaysInUnit := by
  intro prev dp hprev hlo hhi
  have h := advancePhase_hasValue hprev hlo hhi
  exact ⟨h.1, inUnit_of_hasValue_fract h, h.2⟩

/-! ## The raw saw (R88) -/

/-- A number from 1/2 on is a multiple of 2^-24: its significand has 24 bits. -/
theorem exists_int_of_half_le {q : ℚ} (h : Exact q) (hq : 1 / 2 ≤ q) : ∃ k : Int, q * 2 ^ 24 = k := by
  obtain ⟨m, e, hm, -, heq⟩ := h.exists_significand
  have hexp : 125 ≤ e := by
    by_contra hlt
    have hm' : (m : ℚ) < 2 ^ 24 := by
      have : m < 2 ^ 24 := by omega
      exact_mod_cast this
    have hpow : (2 : ℚ) ^ e ≤ 2 ^ 124 := pow_le_pow_right₀ (by norm_num) (by omega)
    have : (m : ℚ) * 2 ^ e < 2 ^ 24 * 2 ^ 124 := by
      have hepos : (0 : ℚ) < 2 ^ e := by positivity
      calc (m : ℚ) * 2 ^ e < 2 ^ 24 * 2 ^ e := by gcongr
        _ ≤ 2 ^ 24 * 2 ^ 124 := by gcongr
    linarith
  refine ⟨m * 2 ^ (e - 125), ?_⟩
  have hscale : (2 : ℚ) ^ e = 2 ^ (e - 125) * 2 ^ 125 := by rw [← pow_add, Nat.sub_add_cancel hexp]
  push_cast
  rw [hscale] at heq
  linarith

/-- So is twice its fractional part less 1, which is a number for that reason. -/
theorem exact_two_mul_fract_sub_one {q : ℚ} (h : Exact q) (hq : 1 / 2 ≤ q) : Exact (2 * Int.fract q - 1) := by
  obtain ⟨k, hk⟩ := exists_int_of_half_le h hq
  have hfloor : Int.fract q = q - ⌊q⌋ := rfl
  have h0 := Int.fract_nonneg q
  have h1 := Int.fract_lt_one q
  have hscaled : (2 * Int.fract q - 1) * 2 ^ 24 = ((2 * k - (2 * ⌊q⌋ + 1) * 2 ^ 24 : Int) : ℚ) := by
    rw [hfloor]
    push_cast
    linarith
  rcases h0.eq_or_lt with hzero | hpos
  · rw [← hzero, mul_zero, zero_sub]
    exact exact_one.neg
  · generalize (2 * k - (2 * ⌊q⌋ + 1) * 2 ^ 24 : Int) = j at hscaled
    have hj : j.natAbs < 2 ^ 24 := by
      have hlo : (-(2 ^ 24 : Int) : ℚ) < j := by push_cast; linarith
      have hhi : (j : ℚ) < (2 ^ 24 : Int) := by push_cast; linarith
      norm_cast at hlo hhi
      omega
    exact exact_of_mul_eq (e := 125) hj (by norm_num) (by rw [← hscaled]; ring)

theorem sawRaw_hasValue {p : F32} (h : binary32.inUnit p) :
    binary32.hasValue (sawRaw binary32 p) (2 * Int.fract (p.add F32.half).value - 1) := by
  obtain ⟨⟨hfin, h0, -⟩, h1⟩ := inUnit_iff.1 h
  obtain ⟨hsum, hs0, hs2⟩ := between_add hfin F32.isFinite_half exact_half exact_two
    (by rw [F32.value_half]; linarith) (by rw [F32.value_half]; linarith)
  obtain ⟨hfrac, hvalue⟩ := hasValue_iff.1 (frac_hasValue hsum (by linarith) (by linarith))
  have hdouble : binary32.hasValue (F32.two.mul (binary32.frac (p.add F32.half)))
      (2 * Int.fract (p.add F32.half).value) := by
    have hexact := (exact_fract (exact_value hsum) (by linarith)).two_pow_mul (k := 1)
      (by rw [abs_of_nonneg (Int.fract_nonneg _)]; linarith [Int.fract_lt_one (p.add F32.half).value])
      (by norm_num)
    have := hasValue_mul F32.isFinite_two hfrac (by rw [F32.value_two, hvalue]; simpa using hexact)
    rwa [F32.value_two, hvalue] at this
  obtain ⟨hdfin, hdvalue⟩ := hasValue_iff.1 hdouble
  have := hasValue_sub hdfin F32.isFinite_one
    (by rw [hdvalue, F32.value_one]; exact exact_two_mul_fract_sub_one (exact_value hsum) hs0)
  rwa [hdvalue, F32.value_one] at this

/-- Settles O37: every operation after the sum `p + 1/2` is exact. -/
theorem rawSawIsInRange : Obligations.RawSawIsInRange := by
  refine ⟨fun p h => ?_, by decide +kernel⟩
  obtain ⟨hfin, hvalue⟩ := hasValue_iff.1 (sawRaw_hasValue h)
  have h0 := Int.fract_nonneg (p.add F32.half).value
  have h1 := Int.fract_lt_one (p.add F32.half).value
  refine ⟨?_, ?_, hvalue⟩
  · rw [F32.le_iff_value (by decide) hfin, F32.value_neg, F32.value_one, hvalue]
    linarith
  · rw [F32.lt_iff_value hfin F32.isFinite_one, F32.value_one, hvalue]
    linarith

/-! ## The raw sine (R90) -/

/-- The numerator of the default sine at `u`, the square of the distance from 1/2. -/
def sineNum (u : F32) : F32 :=
  let k := constants32.sine
  F32.one.add (u.mul (k.p1.add (u.mul (k.p2.add (u.mul k.p3)))))

/-- Its denominator. -/
def sineDen (u : F32) : F32 :=
  let k := constants32.sine
  F32.one.add (u.mul (k.q1.add (u.mul (k.q2.add (u.mul k.q3)))))

/-- The square the two polynomials are evaluated at. -/
def sineArg (p : F32) : F32 := (p.sub F32.half).mul (p.sub F32.half)

theorem cfg_sinApprox_apply (p : F32) : cfg.sinApprox p = (sineNum (sineArg p)).div (sineDen (sineArg p)) := by
  rw [cfg_sinApprox]
  rfl

theorem sineArg_between {p : F32} (h : binary32.inUnit p) : (sineArg p).between 0 (1 / 4) := by
  obtain ⟨⟨hfin, h0, -⟩, h1⟩ := inUnit_iff.1 h
  obtain ⟨hx, hlo, hhi⟩ := between_sub hfin F32.isFinite_half exact_half.neg exact_half
    (by rw [F32.value_half]; linarith) (by rw [F32.value_half]; linarith)
  exact between_mul hx hx exact_zero exact_quarter (mul_self_nonneg _) (by nlinarith)

/-- One step of Horner's rule at an argument in [0, 1/4], with whole bounds. -/
theorem horner_between {u z k : F32} {l h : Nat} {lo hi : Int} (hu : u.between 0 (1 / 4))
    (hz : z.between (-(4 * l)) (4 * h)) (hk : k.between lo hi) (hl : l ≤ 2 ^ 23) (hh : h ≤ 2 ^ 23)
    (hlo : lo.natAbs ≤ 2 ^ 23) (hhi : hi.natAbs ≤ 2 ^ 23) :
    (k.add (u.mul z)).between (lo - l : Int) (hi + h : Int) := by
  obtain ⟨hufin, hu0, hu1⟩ := hu
  obtain ⟨hzfin, hz0, hz1⟩ := hz
  obtain ⟨hkfin, hk0, hk1⟩ := hk
  have hl0 : (0 : ℚ) ≤ l := by positivity
  have hh0 : (0 : ℚ) ≤ h := by positivity
  obtain ⟨hpfin, hp0, hp1⟩ := between_mul hufin hzfin (exact_nat (n := l) (by omega)).neg
    (exact_nat (n := h) (by omega)) (by nlinarith) (by nlinarith)
  refine between_add hkfin hpfin (exact_int (by omega)) (exact_int (by omega)) ?_ ?_ <;> push_cast <;> linarith

section sine
variable {u : F32} (hu : u.between 0 (1 / 4))
include hu

theorem sineNum_between : (sineNum u).between (-4) 1 := by
  have h3 : constants32.sine.p3.between (-(4 * (6 : Nat))) (4 * (0 : Nat)) :=
    ⟨by decide, by decide +kernel, by decide +kernel⟩
  have h2 : constants32.sine.p2.between (42 : Int) (43 : Int) := ⟨by decide, by decide +kernel, by decide +kernel⟩
  have h1 : constants32.sine.p1.between (-19 : Int) (-18 : Int) := ⟨by decide, by decide +kernel, by decide +kernel⟩
  have h0 : F32.one.between (1 : Int) (1 : Int) := ⟨by decide, by simp, by simp⟩
  have hp := horner_between hu h3 h2 (by norm_num) (by norm_num) (by norm_num) (by norm_num)
  have hp := horner_between (l := 0) (h := 11) hu (hp.mono (by norm_num) (by norm_num)) h1 (by norm_num) (by norm_num)
    (by norm_num) (by norm_num)
  have hp := horner_between (l := 5) (h := 0) hu (hp.mono (by norm_num) (by norm_num)) h0 (by norm_num) (by norm_num)
    (by norm_num) (by norm_num)
  exact hp.mono (by norm_num) (by norm_num)

theorem sineDen_between : (sineDen u).between 1 2 := by
  have h3 : constants32.sine.q3.between (-(4 * (0 : Nat))) (4 * (1 : Nat)) :=
    ⟨by decide, by decide +kernel, by decide +kernel⟩
  have h2 : constants32.sine.q2.between (0 : Int) (1 : Int) := ⟨by decide, by decide +kernel, by decide +kernel⟩
  have h1 : constants32.sine.q1.between (1 : Int) (2 : Int) := ⟨by decide, by decide +kernel, by decide +kernel⟩
  have h0 : F32.one.between (1 : Int) (1 : Int) := ⟨by decide, by simp, by simp⟩
  have hp := horner_between hu h3 h2 (by norm_num) (by norm_num) (by norm_num) (by norm_num)
  have hp := horner_between (l := 0) (h := 1) hu (hp.mono (by norm_num) (by norm_num)) h1 (by norm_num) (by norm_num)
    (by norm_num) (by norm_num)
  have hp := horner_between (l := 0) (h := 1) hu (hp.mono (by norm_num) (by norm_num)) h0 (by norm_num) (by norm_num)
    (by norm_num) (by norm_num)
  exact hp.mono (by norm_num) (by norm_num)

end sine

/-- The default sine on [0, 1), with the bound the numerator gives it. -/
theorem sinApprox_between {p : F32} (h : binary32.inUnit p) : (cfg.sinApprox p).between (-4) 1 := by
  obtain ⟨hn, hn0, hn1⟩ := sineNum_between (sineArg_between h)
  obtain ⟨hd, hd1, -⟩ := sineDen_between (sineArg_between h)
  have hpos : (0 : ℚ) < (sineDen (sineArg p)).value := by linarith
  rw [cfg_sinApprox_apply]
  refine between_div hn hd (exact_nat (n := 4) (by norm_num)).neg exact_one hpos.ne' ?_ ?_
  · rw [le_div_iff₀ hpos]
    linarith
  · rw [div_le_iff₀ hpos]
    linarith

/-- The constants R90 lists in decimal. -/
theorem sineConstants_decimal :
    F32.ofRat (-18.57837706) = constants32.sine.p1 ∧ F32.ofRat 42.68589444 = constants32.sine.p2 ∧
    F32.ofRat (-22.90981333) = constants32.sine.p3 ∧ F32.ofRat 1.160831745 = constants32.sine.q1 ∧
    F32.ofRat 0.6604006172 = constants32.sine.q2 ∧ F32.ofRat 0.1990794590 = constants32.sine.q3 := by
  rw [← constants_decimal]
  refine ⟨?_, ?_, ?_, ?_, ?_, ?_⟩ <;> exact congrArg F32.ofRat (by norm_num)

/-- Settles O38: on [0, 1) the square is in [0, 1/4], where Horner's rule bounds both polynomials. -/
theorem rawSineMeetsItsContract : Obligations.RawSineMeetsItsContract := by
  obtain ⟨hp1, hp2, hp3, hq1, hq2, hq3⟩ := sineConstants_decimal
  unfold Obligations.RawSineMeetsItsContract
  rw [hp1, hp2, hp3, hq1, hq2, hq3]
  refine ⟨fun p => ⟨cfg_sinApprox_apply p, fun h => ?_⟩, ?_⟩
  · obtain ⟨hd, hd1, -⟩ := sineDen_between (sineArg_between h)
    refine ⟨(F32.le_iff_value F32.isFinite_one hd).2 ?_, (sinApprox_between h).1⟩
    rwa [F32.value_one]
  · rw [cfg_sinApprox]
    decide +kernel

end Sys2Proof

/-! The sync detector (42_hard_sync.md R92, R94) in numbers. -/

namespace Sys2Proof
open Machine

theorem F32.eq_zero_iff_isZero {x : F32} (h : x.isFinite = true) : x.eq F32.zero = x.isZero := by
  rw [Bool.eq_iff_iff, F32.eq_iff_value h F32.isFinite_zero, F32.value_zero, F32.value_eq_zero_iff,
    F32.isZero_iff_units]

/-- R92 over any number type: the guard passes and the three tests hold. -/
theorem detectSync_eq_some_iff {Num : Type} (N : Numerics Num) {prev cur cr : Num} :
    detectSync N prev cur = some cr ↔
      N.isFinite (N.sub cur prev) = true ∧ N.eq (N.sub cur prev) N.zero = false ∧
      cr = N.div (N.sub N.zero prev) (N.sub cur prev) ∧
      N.gt cr N.zero = true ∧ N.le cr N.one = true ∧ N.ge cur N.zero = true := by
  unfold detectSync
  simp only
  generalize N.sub cur prev = ds
  generalize hc : N.div (N.sub N.zero prev) ds = c
  by_cases hguard : (!N.isFinite ds || N.eq ds N.zero) = true
  · rw [if_pos hguard]
    simp only [reduceCtorEq, false_iff]
    rintro ⟨hfin, hzero, -⟩
    simp [hfin, hzero] at hguard
  · rw [if_neg hguard]
    simp only [Bool.not_eq_true, Bool.or_eq_false_iff, Bool.not_eq_false'] at hguard
    simp only [hguard, true_and, Option.ite_none_right_eq_some, Bool.and_eq_true, Option.some.injEq]
    constructor
    · rintro ⟨⟨⟨hpos, hone⟩, hcur⟩, rfl⟩
      exact ⟨rfl, hpos, hone, hcur⟩
    · rintro ⟨rfl, hpos, hone, hcur⟩
      exact ⟨⟨⟨hpos, hone⟩, hcur⟩, rfl⟩

theorem detectSync_binary32_eq_some_iff {prev cur cr : F32} : detectSync binary32 prev cur = some cr ↔
    (cur.sub prev).isFinite = true ∧ (cur.sub prev).isZero = false ∧
    cr = (F32.zero.sub prev).div (cur.sub prev) ∧
    F32.zero.lt cr = true ∧ cr.le F32.one = true ∧ F32.zero.le cur = true := by
  rw [detectSync_eq_some_iff]
  refine and_congr_right fun hfin => ?_
  have hzero : binary32.eq (binary32.sub cur prev) binary32.zero = (cur.sub prev).isZero := F32.eq_zero_iff_isZero hfin
  rw [hzero]
  rfl

theorem F32.le_of_lt {a b : F32} (h : a.lt b = true) : a.le b = true := by
  obtain ⟨ha, hb, hlt⟩ := F32.lt_iff.1 h
  exact F32.le_iff.2 ⟨ha, hb, hlt.le⟩

theorem F32.not_lt_of_le {a b : F32} (h : a.le b = true) : b.lt a = false := by
  obtain ⟨-, -, hle⟩ := F32.le_iff.1 h
  rw [Bool.eq_false_iff]
  intro hlt
  obtain ⟨-, -, hlt⟩ := F32.lt_iff.1 hlt
  omega

/-- A crossing fraction is a number in (0, 1]. -/
theorem crossing_between {prev cur cr : F32} (h : detectSync binary32 prev cur = some cr) :
    cr.between 0 1 ∧ 0 < cr.value := by
  obtain ⟨-, -, -, hpos, hone, -⟩ := detectSync_binary32_eq_some_iff.1 h
  have hbetween := (le_and_le_iff_between F32.isFinite_zero F32.isFinite_one).1 ⟨F32.le_of_lt hpos, hone⟩
  rw [F32.value_zero, F32.value_one] at hbetween
  rw [F32.lt_iff_value F32.isFinite_zero hbetween.1, F32.value_zero] at hpos
  exact ⟨hbetween, hpos⟩

/-- Settles O39: the detector's three tests, read one by one. -/
theorem detectorFiresOnlyInRange : Obligations.DetectorFiresOnlyInRange := by
  refine ⟨fun _ _ _ => detectSync_binary32_eq_some_iff, fun _ _ _ h => (crossing_between h).1.1, fun prev cur h => ?_,
    fun prev cur h => ?_⟩
  · rw [Option.eq_none_iff_forall_ne_some]
    intro cr hcr
    obtain ⟨hfin, hzero, -⟩ := detectSync_binary32_eq_some_iff.1 hcr
    simp [hfin, hzero] at h
  · rw [Option.eq_none_iff_forall_ne_some]
    intro cr hcr
    obtain ⟨-, -, -, -, -, hcur⟩ := detectSync_binary32_eq_some_iff.1 hcr
    simp [F32.not_lt_of_le hcur] at h

/-- A sample of zero puts the crossing at 0, outside (0, 1]. -/
theorem detectSync_of_isZero {z : F32} (hz : z.isZero = true) (cur : F32) : detectSync binary32 z cur = none := by
  rw [Option.eq_none_iff_forall_ne_some]
  intro cr h
  obtain ⟨-, hpos⟩ := crossing_between h
  obtain ⟨hfin, hne, rfl, -⟩ := detectSync_binary32_eq_some_iff.1 h
  have hz0 : z.value = 0 := F32.value_eq_zero_iff.2 (F32.isZero_iff_units.1 hz)
  have hds : (cur.sub z).value ≠ 0 := fun h0 => by
    rw [F32.isZero_iff_units.2 (F32.value_eq_zero_iff.1 h0)] at hne
    exact absurd hne (by decide)
  have hdiff : F32.zero.value - z.value = 0 := by rw [hz0, F32.value_zero, sub_zero]
  obtain ⟨hnum, hnum0⟩ := hasValue_iff.1
    (hasValue_sub F32.isFinite_zero (F32.isFinite_of_isZero hz) (hdiff ▸ exact_zero))
  have hquot := value_of_same (binary32_lawful.div _ _ hnum hfin hds)
  rw [binary32_value, binary32_value, hnum0, hdiff, zero_div, rndValue_of_exact exact_zero] at hquot
  exact hpos.ne' hquot

/-- Settles O40: the reset state holds 0.0, and neither zero can fire. -/
theorem syncFromZeroCannotFire : Obligations.SyncFromZeroCannotFire := by
  refine ⟨fun z cur hz => detectSync_of_isZero hz cur, fun v cur => detectSync_of_isZero ?_ cur⟩
  rw [reset_voice]
  rfl

/-- The phase of a sub-oscillator reset at a crossing is at most one increment on (R94, R97). -/
theorem syncPhase_between {cr dp : F32} (hcr : cr.between 0 1) (hdp : dp.isFinite = true) (h0 : 0 ≤ dp.value) :
    ((F32.one.sub cr).mul dp).between 0 dp.value := by
  obtain ⟨hfin, hc0, hc1⟩ := hcr
  obtain ⟨hrest, hr0, hr1⟩ := between_sub F32.isFinite_one hfin exact_zero exact_one
    (by rw [F32.value_one]; linarith) (by rw [F32.value_one]; linarith)
  exact between_mul hrest hdp exact_zero (exact_value hdp) (mul_nonneg hr0 h0) (mul_le_of_le_one_left h0 hr1)

end Sys2Proof

/-! Noise samples, the one-pole filter and its coefficient (43_chaos_noise_filter.md R99, R102, R104). -/

namespace Sys2Proof
open Machine

theorem noiseSample_hasValue (x : Word) :
    binary32.hasValue (noiseSample binary32 x) ((x.extractLsb' 8 24).toInt / 2 ^ 23) := by
  have hlo := BitVec.le_toInt (x.extractLsb' 8 24)
  have hhi := BitVec.toInt_lt (x := x.extractLsb' 8 24)
  exact F32.ofInt_div_two_pow_hasValue (k := 23) (by omega) (by norm_num)

/-- Settles O42: the quotient is exact, and its dividend is a signed 24-bit integer. -/
theorem noiseSampleIsExact : Obligations.NoiseSampleIsExact := by
  intro x
  obtain ⟨hfin, hvalue⟩ := hasValue_iff.1 (noiseSample_hasValue x)
  have hlo : (-(2 ^ 23) : ℚ) ≤ (x.extractLsb' 8 24).toInt := by
    exact_mod_cast BitVec.le_toInt (x.extractLsb' 8 24)
  have hhi : ((x.extractLsb' 8 24).toInt : ℚ) + 1 ≤ 2 ^ 23 := by
    exact_mod_cast BitVec.toInt_lt (x := x.extractLsb' 8 24)
  refine ⟨hfin, hvalue, ?_, ?_⟩
  · rw [hvalue, le_div_iff₀ (by positivity)]
    linarith
  · rw [hvalue, div_le_iff₀ (by positivity)]
    linarith

/-! ## The one-pole filter (R102) -/

theorem exact_of_mul_eq_of_le {q : ℚ} {m : Int} {e : Nat} (hm : m.natAbs ≤ 2 ^ 24) (he : e ≤ 172)
    (h : q * 2 ^ 149 = m * 2 ^ e) : Exact q := by
  rcases hm.lt_or_eq with hlt | heq
  · exact exact_of_mul_eq hlt (by omega) h
  · refine exact_of_mul_eq (m := m / 2) (e := e + 1) (by omega) (by omega) ?_
    have heven : (m : ℚ) = 2 * (m / 2 : Int) := by
      have : m = 2 * (m / 2) := by omega
      exact_mod_cast this
    rw [h, heven, pow_succ]
    ring

theorem exact_two_pow {k : Nat} (hk : k ≤ 24) : Exact (2 ^ k) := by
  exact_mod_cast exact_nat (n := 2 ^ k) (Nat.pow_le_pow_right two_pos hk)

/-- Below the overflow limit a rounded result is a number. -/
theorem exact_rndValue {q : ℚ} (h : |q| < 2 ^ 128 - 2 ^ 103) : Exact (rndValue q) :=
  exact_value ((ofRat_isFinite_iff q).2 h)

/-- Below `2 * 2^k` the numbers are `2^k / 2^23` apart, or closer. -/
theorem rndValue_sub_le {q : ℚ} {k : Nat} (hk : k ≤ 20) (h0 : 0 ≤ q) (h1 : q ≤ 2 * 2 ^ k) :
    |rndValue q - q| ≤ 2 ^ k / 2 ^ 24 := by
  have hB : (0 : ℚ) < 2 ^ k := by positivity
  have hB' : (2 : ℚ) ^ k ≤ 2 ^ 20 := pow_le_pow_right₀ (by norm_num) hk
  have hround := abs_sub_round (q * 2 ^ 23 / 2 ^ k)
  set j := round (q * 2 ^ 23 / 2 ^ k)
  have hj : j.natAbs ≤ 2 ^ 24 := by
    have hlo : (0 : ℚ) ≤ q * 2 ^ 23 / 2 ^ k := by positivity
    have hhi : q * 2 ^ 23 / 2 ^ k ≤ 2 ^ 24 := by
      rw [div_le_iff₀ hB]
      linarith
    rw [abs_le] at hround
    have h1 : (-1 : ℚ) < j := by linarith
    have h2 : (j : ℚ) < 2 ^ 24 + 1 := by linarith
    norm_cast at h1 h2
    omega
  have hexact : Exact (j * 2 ^ k / 2 ^ 23) :=
    exact_of_mul_eq_of_le (m := j) (e := k + 126) hj (by omega) (by ring)
  obtain ⟨y, hy⟩ := hexact
  obtain ⟨hyfin, hyvalue⟩ := hasValue_iff.1 hy
  have hq : |q| < 2 ^ 128 - 2 ^ 103 := by
    rw [abs_of_nonneg h0]
    calc q ≤ 2 * 2 ^ 20 := h1.trans (by gcongr)
      _ < 2 ^ 128 - 2 ^ 103 := by norm_num
  have hnear : |rndValue q - q| ≤ |y.value - q| := by
    have hrounds := roundsTo_ofRat q
    rw [Reference.RoundsTo, if_pos hq] at hrounds
    obtain ⟨-, hnearest⟩ := hrounds
    exact (hnearest y hyfin).1
  refine hnear.trans ?_
  have hdist : y.value - q = -(q * 2 ^ 23 / 2 ^ k - j) * (2 ^ k / 2 ^ 23) := by
    rw [hyvalue]
    field_simp
    ring
  rw [hdist, abs_mul, abs_neg, abs_of_pos (by positivity : (0 : ℚ) < 2 ^ k / 2 ^ 23)]
  calc |q * 2 ^ 23 / 2 ^ k - j| * (2 ^ k / 2 ^ 23) ≤ 1 / 2 * (2 ^ k / 2 ^ 23) := by gcongr
    _ = 2 ^ k / 2 ^ 24 := by ring

/-- The new state of the filter as a value, one rounding per operator. -/
def rndLerp (y a x : ℚ) : ℚ := rndValue (y + rndValue (a * rndValue (x - y)))

section lerp
variable {k : Nat} (hk : k ≤ 20) {y a x : ℚ} (hy : |y| ≤ 2 ^ k) (hx : |x| ≤ 2 ^ k) (ha0 : 0 ≤ a) (ha1 : a ≤ 1)

theorem rndLerp_neg (y a x : ℚ) : rndLerp (-y) a (-x) = -rndLerp y a x := by
  rw [rndLerp, rndLerp, show -x - -y = -(x - y) by ring, rndValue_neg, mul_neg, rndValue_neg, ← neg_add,
    rndValue_neg]

include hk hy hx ha0 ha1

/-- Where the filter moves up, the difference may round up by half a gap, which takes the sum at most to the
midpoint above the bound; by `htie` that midpoint rounds back. -/
theorem rndLerp_le (hexact : Exact y) (htie : rndValue (2 ^ k + 2 ^ k / 2 ^ 24) = 2 ^ k) :
    rndLerp y a x ≤ 2 ^ k := by
  obtain ⟨hy0, hy1⟩ := abs_le.1 hy
  obtain ⟨hx0, hx1⟩ := abs_le.1 hx
  rcases le_or_gt x y with hxy | hxy
  · have hr : rndValue (x - y) ≤ 0 := by
      rw [← rndValue_of_exact exact_zero]
      exact rndValue_mono (by linarith)
    have ht : rndValue (a * rndValue (x - y)) ≤ 0 := by
      rw [← rndValue_of_exact exact_zero]
      exact rndValue_mono (by nlinarith)
    calc rndLerp y a x ≤ rndValue y := rndValue_mono (by linarith)
      _ = y := rndValue_of_exact hexact
      _ ≤ 2 ^ k := hy1
  · have hr0 : 0 ≤ rndValue (x - y) := by
      rw [← rndValue_of_exact exact_zero]
      exact rndValue_mono (by linarith)
    have herr := (abs_le.1 (rndValue_sub_le hk (by linarith : 0 ≤ x - y) (by linarith))).2
    have hB : (2 : ℚ) ^ k ≤ 2 ^ 20 := pow_le_pow_right₀ (by norm_num) hk
    have hrexact : Exact (rndValue (x - y)) := exact_rndValue (by
      rw [abs_of_pos (by linarith)]
      calc x - y ≤ 2 * 2 ^ 20 := by linarith
        _ < 2 ^ 128 - 2 ^ 103 := by norm_num)
    have ht : rndValue (a * rndValue (x - y)) ≤ rndValue (x - y) :=
      (rndValue_mono (mul_le_of_le_one_left hr0 ha1)).trans_eq (rndValue_of_exact hrexact)
    calc rndLerp y a x ≤ rndValue (2 ^ k + 2 ^ k / 2 ^ 24) := rndValue_mono (by linarith)
      _ = 2 ^ k := htie

theorem abs_rndLerp_le (hexact : Exact y) (htie : rndValue (2 ^ k + 2 ^ k / 2 ^ 24) = 2 ^ k) :
    |rndLerp y a x| ≤ 2 ^ k := by
  rw [abs_le]
  refine ⟨?_, rndLerp_le hk hy hx ha0 ha1 hexact htie⟩
  have := rndLerp_le hk (y := -y) (x := -x) (by rwa [abs_neg]) (by rwa [abs_neg]) ha0 ha1 hexact.neg htie
  rw [rndLerp_neg] at this
  linarith

end lerp

/-- The filter keeps a power of two that bounds its state and its input, for a coefficient in [0, 1]. -/
theorem onePole_between {k : Nat} (hk : k ≤ 20) (htie : rndValue (2 ^ k + 2 ^ k / 2 ^ 24) = 2 ^ k) {y a x : F32}
    (hy : y.between (-2 ^ k) (2 ^ k)) (hx : x.between (-2 ^ k) (2 ^ k)) (ha : a.between 0 1) :
    (onePole binary32 y a x).between (-2 ^ k) (2 ^ k) := by
  obtain ⟨hyfin, hy0, hy1⟩ := hy
  obtain ⟨hxfin, hx0, hx1⟩ := hx
  obtain ⟨hafin, ha0, ha1⟩ := ha
  have hB : (0 : ℚ) < 2 ^ k := by positivity
  have h2 : Exact (2 * 2 ^ k) := by rw [← pow_succ']; exact exact_two_pow (by omega)
  have h4 : Exact (4 * 2 ^ k) := by
    rw [show (4 : ℚ) * 2 ^ k = 2 ^ (k + 2) by ring]
    exact exact_two_pow (by omega)
  obtain ⟨hdfin, hd0, hd1⟩ := between_sub hxfin hyfin h2.neg h2 (by linarith) (by linarith)
  obtain ⟨hpfin, hp0, hp1⟩ := between_mul hafin hdfin h2.neg h2 (by nlinarith) (by nlinarith)
  obtain ⟨hfin, -, -⟩ := between_add hyfin hpfin h4.neg h4 (by linarith) (by linarith)
  have hvalue : (onePole binary32 y a x).value = rndLerp y.value a.value x.value := by
    rw [onePole, binary32_add, binary32_mul, binary32_sub, value_add hyfin hpfin, value_mul hafin hdfin,
      value_sub hxfin hyfin]
    rfl
  have habs := abs_rndLerp_le hk (abs_le.2 ⟨hy0, hy1⟩) (abs_le.2 ⟨hx0, hx1⟩) ha0 ha1 (exact_value hyfin) htie
  rw [← hvalue, abs_le] at habs
  exact ⟨hfin, habs.1, habs.2⟩

theorem rndValue_midpoint_one : rndValue (2 ^ 0 + 2 ^ 0 / 2 ^ 24) = 2 ^ 0 := by
  rw [rndValue, show F32.ofRat (2 ^ 0 + 2 ^ 0 / 2 ^ 24) = F32.one by decide +kernel, F32.value_one, pow_zero]

theorem within_one_iff {x : F32} : x.within 1 ↔ x.between (-2 ^ 0) (2 ^ 0) := by
  rw [within_iff_between]
  norm_num

theorem onePole_within_one {y a x : F32} (hy : y.within 1) (hx : x.within 1) (ha : a.between 0 1) :
    (onePole binary32 y a x).within 1 :=
  within_one_iff.2
    (onePole_between (by norm_num) rndValue_midpoint_one (within_one_iff.1 hy) (within_one_iff.1 hx) ha)

/-- With coefficient 0 the product is a zero and the sum exact. -/
theorem onePole_of_isZero {y a x : F32} (hy : y.within 1) (hx : x.within 1) (ha : a.isZero = true) :
    (onePole binary32 y a x).eq y = true := by
  obtain ⟨hyfin, hy0, hy1⟩ := within_one_iff.1 hy
  obtain ⟨hxfin, hx0, hx1⟩ := within_one_iff.1 hx
  have hafin := F32.isFinite_of_isZero ha
  have ha0 : a.value = 0 := F32.value_eq_zero_iff.2 (F32.isZero_iff_units.1 ha)
  rw [pow_zero] at hy0 hy1 hx0 hx1
  obtain ⟨hdfin, -, -⟩ := between_sub hxfin hyfin exact_two.neg exact_two (by linarith) (by linarith)
  have hprod : a.value * (x.sub y).value = 0 := by rw [ha0, zero_mul]
  obtain ⟨hpfin, hp0⟩ := hasValue_iff.1 (hasValue_mul hafin hdfin (hprod ▸ exact_zero))
  have hsum : y.value + (a.mul (x.sub y)).value = y.value := by
    rw [hp0, hprod, add_zero]
  obtain ⟨hfin, hvalue⟩ := hasValue_add hyfin hpfin (by rw [hsum]; exact exact_value hyfin)
  exact (F32.eq_iff_value hfin hyfin).2 (hvalue.trans hsum)

theorem between_zero_one_iff {x : F32} : x.between 0 1 ↔ F32.zero.le x = true ∧ x.le F32.one = true := by
  rw [le_and_le_iff_between F32.isFinite_zero F32.isFinite_one, F32.value_zero, F32.value_one]

/-- Settles O44: the bound by the rounding of the difference and of the sum, the hold by exactness. -/
theorem onePoleStaysInRange : Obligations.OnePoleStaysInRange :=
  ⟨fun _ _ _ => rfl, fun _ _ _ hy hx ha0 ha1 => onePole_within_one hy hx (between_zero_one_iff.2 ⟨ha0, ha1⟩),
    fun _ _ _ => onePole_of_isZero⟩

/-! ## The coefficient (R104) -/

theorem abs_value_le_of_isFinite {x : F32} (h : x.isFinite = true) : |x.value| ≤ 2 ^ 128 - 2 ^ 104 := by
  have hle : magUnits x.mag ≤ (2 ^ 24 - 1) * 2 ^ 253 := by
    rw [show (2 ^ 24 - 1) * 2 ^ 253 = magUnits (infMag - 1) by decide, magUnits_le_iff]
    have := F32.isFinite_iff.1 h
    omega
  have hle' : (magUnits x.mag : ℚ) ≤ ((2 ^ 24 - 1) * 2 ^ 253 : Nat) := by exact_mod_cast hle
  push_cast at hle'
  rw [F32.abs_value, div_le_iff₀ (by positivity)]
  linarith

theorem isFinite_of_same {x : F32} {q : ℚ} (h : binary32.same x (F32.ofRat q)) (hq : |q| < 2 ^ 128 - 2 ^ 103) :
    x.isFinite = true := by
  rcases h with rfl | ⟨⟨hfin, -⟩, -⟩
  · exact (ofRat_isFinite_iff q).2 hq
  · exact hfin

/-- `1 + w` is above `w` and above 1, and does not overflow. -/
theorem one_add_bounds {w : F32} (hfin : w.isFinite = true) (hpos : 0 < w.value) :
    (F32.one.add w).isFinite = true ∧ 1 ≤ (F32.one.add w).value ∧ w.value ≤ (F32.one.add w).value := by
  have hsame := binary32_lawful.add F32.one w F32.isFinite_one hfin
  have hvalue : (F32.one.add w).value = rndValue (1 + w.value) := by
    rw [value_add F32.isFinite_one hfin, F32.value_one]
  refine ⟨?_, ?_, ?_⟩
  · have hlimit : |F32.one.value + w.value| < 2 ^ 128 - 2 ^ 103 := by
      have := (abs_le.1 (abs_value_le_of_isFinite hfin)).2
      rw [F32.value_one, abs_of_pos (by linarith)]
      linarith
    exact isFinite_of_same hsame hlimit
  · calc (1 : ℚ) = rndValue 1 := (rndValue_of_exact exact_one).symm
      _ ≤ rndValue (1 + w.value) := rndValue_mono (by linarith)
      _ = _ := hvalue.symm
  · calc w.value = rndValue w.value := (rndValue_of_exact (exact_value hfin)).symm
      _ ≤ rndValue (1 + w.value) := rndValue_mono (by linarith)
      _ = _ := hvalue.symm

theorem coef_eq (fc dt : F32) : coef cfg fc dt =
    if F32.zero.lt ((cfg.twoPi.mul fc).mul dt) then
      (if ((cfg.twoPi.mul fc).mul dt).isFinite then
        ((cfg.twoPi.mul fc).mul dt).div (F32.one.add ((cfg.twoPi.mul fc).mul dt)) else F32.one)
    else F32.zero := by
  show (if !F32.zero.lt ((cfg.twoPi.mul fc).mul dt) then F32.zero
    else if !((cfg.twoPi.mul fc).mul dt).isFinite then F32.one
    else ((cfg.twoPi.mul fc).mul dt).div (F32.one.add ((cfg.twoPi.mul fc).mul dt))) = _
  cases F32.zero.lt ((cfg.twoPi.mul fc).mul dt) <;> cases ((cfg.twoPi.mul fc).mul dt).isFinite <;> rfl

theorem coef_between (fc dt : F32) : (coef cfg fc dt).between 0 1 := by
  rw [coef_eq]
  generalize (cfg.twoPi.mul fc).mul dt = w
  split
  · next hpos =>
    split
    · next hfin =>
      rw [F32.lt_iff_value F32.isFinite_zero hfin, F32.value_zero] at hpos
      obtain ⟨hden, hone, hle⟩ := one_add_bounds hfin hpos
      have hden0 : (0 : ℚ) < (F32.one.add w).value := by linarith
      refine between_div hfin hden exact_zero exact_one hden0.ne' (by positivity) ?_
      rwa [div_le_one hden0]
    · exact ⟨F32.isFinite_one, by simp, by simp⟩
  · exact ⟨F32.isFinite_zero, by simp, by simp⟩

/-- Settles O45: the quotient of a positive number by a larger one is in [0, 1]. -/
theorem coefficientIsInUnit : Obligations.CoefficientIsInUnit := by
  intro fc dt
  obtain ⟨h0, h1⟩ := between_zero_one_iff.1 (coef_between fc dt)
  refine ⟨fun h => ?_, fun hpos hinf => ?_, fun hpos hfin => ?_, (coef_between fc dt).1, h0, h1⟩
  · rw [coef_eq, h]
    rfl
  · rw [coef_eq, hpos, hinf]
    rfl
  · rw [coef_eq, hpos, hfin]
    rfl

end Sys2Proof

/-! The kernel lookup (44_minblep.md R112, R113) in numbers. -/

namespace Sys2Proof
open Machine

theorem cfg_kernel_contract : KernelContract binary32 cfg.kernel (cfg.blepLen * cfg.blepOvs) :=
  cfg_open_contract.kernel

theorem kernelAt_of_neg {n : Int} (h : n < 0) : kernelAt cfg n = F32.zero := if_pos h

theorem kernelAt_of_lt {n : Nat} (h : n < cfg.blepLen * cfg.blepOvs) : kernelAt cfg n = cfg.kernel n := by
  rw [kernelAt, if_neg (by omega), if_pos (by exact_mod_cast h)]
  rfl

theorem kernelAt_of_le {n : Nat} (h : cfg.blepLen * cfg.blepOvs ≤ n) : kernelAt cfg n = F32.one := by
  rw [kernelAt, if_neg (by omega), if_neg (by rw [not_lt]; exact_mod_cast h)]
  rfl

/-- The one number of value 1. -/
theorem eq_one_of_hasValue {x : F32} (h : binary32.hasValue x 1) : x = F32.one := by
  have hvalue : x.value = F32.one.value := h.2.trans F32.value_one.symm
  exact F32.eq_of_units_eq (F32.value_eq_value_iff.1 hvalue) (by decide)

/-- Every entry of the total lookup is at most 2 in magnitude. -/
theorem kernelAt_between (n : Int) : (kernelAt cfg n).between (-2) 2 := by
  rcases lt_or_ge n 0 with hneg | hnonneg
  · rw [kernelAt_of_neg hneg]
    exact ⟨F32.isFinite_zero, by simp, by simp⟩
  · lift n to Nat using hnonneg
    rcases lt_or_ge n (cfg.blepLen * cfg.blepOvs) with hlt | hge
    · obtain ⟨hfin, habs⟩ := cfg_kernel_contract.bounded n hlt.le
      rw [kernelAt_of_lt hlt]
      exact ⟨hfin, (abs_le.1 habs).1, (abs_le.1 habs).2⟩
    · rw [kernelAt_of_le hge]
      exact ⟨F32.isFinite_one, by rw [F32.value_one]; norm_num, by rw [F32.value_one]; norm_num⟩

section interp
variable {t : F32} (hfin : t.isFinite = true) (h0 : 0 ≤ t.value) (h1 : t.value ≤ cfg.blepLen)
include hfin h0 h1

/-- The index of a time is exact: the table has 16 entries a sample. -/
theorem kernelIndex_hasValue : binary32.hasValue (t.mul (F32.ofInt cfg.blepOvs)) (t.value * cfg.blepOvs) := by
  obtain ⟨hofin, hovalue⟩ := ofInt_natCast (n := cfg.blepOvs) (by decide)
  have hexact : Exact (t.value * cfg.blepOvs) := by
    have hlen : (cfg.blepLen : ℚ) = 16 := by rw [cfg_blepLen]; norm_num
    have hovs : (cfg.blepOvs : ℚ) = 2 ^ 4 := by rw [cfg_blepOvs]; norm_num
    rw [hovs, mul_comm]
    exact (exact_value hfin).two_pow_mul (by rw [abs_of_nonneg h0]; linarith) (by norm_num)
  rw [← hovalue] at hexact ⊢
  exact hasValue_mul hfin hofin hexact

/-- R113 with its index and fraction exact. -/
theorem kernelInterp_eq : ∃ f : F32, f.isFinite = true ∧
    f.value = t.value * cfg.blepOvs - ⌊t.value * cfg.blepOvs⌋ ∧
    kernelInterp cfg t = (kernelAt cfg ⌊t.value * cfg.blepOvs⌋).add
      (f.mul ((kernelAt cfg (⌊t.value * cfg.blepOvs⌋ + 1)).sub (kernelAt cfg ⌊t.value * cfg.blepOvs⌋))) := by
  obtain ⟨hifin, hivalue⟩ := hasValue_iff.1 (kernelIndex_hasValue hfin h0 h1)
  have hlen : (cfg.blepLen : ℚ) = 16 := by rw [cfg_blepLen]; norm_num
  have hovs : (cfg.blepOvs : ℚ) = 16 := by rw [cfg_blepOvs]; norm_num
  obtain ⟨hffin, hfvalue⟩ := frac_hasValue hifin (by rw [hivalue]; positivity)
    (by rw [hivalue, hovs]; linarith)
  rw [hivalue] at hfvalue
  have hfloor : (t.mul (F32.ofInt cfg.blepOvs)).floor = ⌊t.value * cfg.blepOvs⌋ := by rw [F32.floor_eq, hivalue]
  refine ⟨_, hffin, hfvalue, ?_⟩
  rw [← hfloor]
  rfl

/-- The interpolated kernel is bounded by its two entries and their difference. -/
theorem kernelInterp_between : (kernelInterp cfg t).between (-6) 6 := by
  obtain ⟨f, hffin, hfvalue, heq⟩ := kernelInterp_eq hfin h0 h1
  have hf0 : 0 ≤ f.value := by rw [hfvalue, Int.self_sub_floor]; exact Int.fract_nonneg _
  have hf1 : f.value < 1 := by rw [hfvalue, Int.self_sub_floor]; exact Int.fract_lt_one _
  obtain ⟨ha, ha0, ha1⟩ := kernelAt_between ⌊t.value * cfg.blepOvs⌋
  obtain ⟨hb, hb0, hb1⟩ := kernelAt_between (⌊t.value * cfg.blepOvs⌋ + 1)
  have h4 : Exact 4 := exact_nat (n := 4) (by norm_num)
  have h6 : Exact 6 := exact_nat (n := 6) (by norm_num)
  obtain ⟨hd, hd0, hd1⟩ := between_sub hb ha h4.neg h4 (by linarith) (by linarith)
  obtain ⟨hp, hp0, hp1⟩ := between_mul hffin hd h4.neg h4 (by nlinarith) (by nlinarith)
  rw [heq]
  exact between_add ha hp h6.neg h6 (by linarith) (by linarith)

end interp

/-- Settles O47: the kernel's contract gives both ends of the table, and an index of at most 256 is exact. -/
theorem kernelLookupIsTotal : Obligations.KernelLookupIsTotal := by
  have hlast : cfg.kernel (cfg.blepLen * cfg.blepOvs) = F32.one := eq_one_of_hasValue cfg_kernel_contract.at_last
  obtain ⟨hzfin, hzvalue⟩ := cfg_kernel_contract.at_zero
  refine ⟨fun _ => kernelAt_of_neg, fun _ => kernelAt_of_lt, fun _ => kernelAt_of_le,
    (kernelAt_of_le le_rfl).trans hlast.symm, ?_, fun _ _ _ => rfl, fun _ hfin h0 h1 => kernelInterp_eq hfin h0 h1⟩
  have hzero : kernelAt cfg 0 = cfg.kernel 0 := kernelAt_of_lt (n := 0) (by decide)
  rw [hzero, F32.eq_iff_value hzfin F32.isFinite_zero, F32.value_zero]
  exact hzvalue

end Sys2Proof

/-! A computing tick is its sub-oscillators, each on its own (46_tick.md R134, R135, R141). The loop's state after
its first `k` passes is written down from the voice before the tick (`mixBelow`); one pass takes it from `k` to
`k + 1`. -/

namespace Sys2Proof.Machine
open Reference

/-! ## Vectors written from the front -/

section below
variable {α : Type} (k : Nat) (new : SubIdx → α) (old : Vector α 8)

/-- The vector whose first `k` entries are new. -/
def updateBelow : Vector α 8 := Vector.ofFn fun i => if i.val < k then new i else old.get i

theorem updateBelow_get (i : SubIdx) : (updateBelow k new old).get i = if i.val < k then new i else old.get i :=
  Vector.get_ofFn _ i

theorem ext_get {x y : Vector α 8} (h : ∀ i, x.get i = y.get i) : x = y :=
  Vector.ext fun i hi => h ⟨i, hi⟩

theorem updateBelow_zero : updateBelow 0 new old = old :=
  ext_get fun i => by rw [updateBelow_get, if_neg (Nat.not_lt_zero _)]

theorem updateBelow_get_next (i : SubIdx) : (updateBelow i.val new old).get i = old.get i := by
  rw [updateBelow_get, if_neg (lt_irrefl _)]

theorem updateBelow_set (i : SubIdx) :
    (updateBelow i.val new old).set i (new i) = updateBelow (i.val + 1) new old := by
  refine ext_get fun j => ?_
  by_cases hj : j = i
  · rw [hj, get_set_self, updateBelow_get, if_pos (Nat.lt_succ_self _)]
  · rw [get_set_of_ne _ _ _ hj, updateBelow_get, updateBelow_get]
    exact if_congr (by rw [Fin.ext_iff] at hj; omega) rfl rfl

end below

/-- The sub-oscillators below `k`, in ascending order. -/
def subsBelow (k : Nat) : List SubIdx := (List.finRange 8).filter fun i => decide (i.val < k)

theorem subsBelow_succ : ∀ i : SubIdx, subsBelow (i.val + 1) = subsBelow i.val ++ [i] := by decide

theorem activeSubs_eq (d : Density) : activeSubs d = subsBelow (densityCount d) := by
  cases d <;> decide

theorem densityCount_le (d : Density) : densityCount d ≤ 8 := by
  cases d <;> decide

section tick
variable {Num : Type} (c : Cfg Num) {L : Nat} (lt : Latch Num) (v : Voice Num L)

/-! ## The unit definitions of the reference -/

theorem committedPhase_subAdv (i : SubIdx) :
    committedPhase c.num (syncEvent c lt v) (subDp c lt v i) (subAdv c lt v i) = subPhase c lt v i := by
  unfold committedPhase subPhase
  cases syncEvent c lt v <;> rfl

theorem rawWave_eq_raw (w : Wave) (p : Num) : rawWave c w p = raw c w p := by
  cases w <;> rfl

/-- The sine corrector gets the sync correction alone. -/
theorem subRing_sin (i : SubIdx) : subRing c lt v .sin i =
    insertSync c (rawWave c .sin) (syncEvent c lt v) (subDp c lt v i) (subAdv c lt v i) (v.sin.blep.get i) := by
  unfold subRing insertSync
  cases syncEvent c lt v with
  | none => simp only [reduceCtorEq, false_and, if_false, Voice.path]
  | some cr =>
    simp only [reduceCtorEq, false_and, if_false, Voice.path]
    rfl

/-- The saw corrector gets the wrap first. -/
theorem subRing_saw (i : SubIdx) : subRing c lt v .saw i =
    insertSync c (rawWave c .saw) (syncEvent c lt v) (subDp c lt v i) (subAdv c lt v i)
      (insertSawWrap c (v.phase.get i) (subDp c lt v i) (v.saw.blep.get i)) := by
  unfold subRing insertSync insertSawWrap
  cases syncEvent c lt v with
  | none => simp only [true_and, Voice.path, wrapFraction, Bool.and_eq_true]
  | some cr =>
    simp only [true_and, Voice.path, wrapFraction, Bool.and_eq_true]
    rfl

/-! ## The loop's state after `k` passes -/

/-- The noise filters after `k` passes. -/
def nfBelow (k : Nat) : Vector Num 8 :=
  if c.num.gt lt.chaos c.num.zero then updateBelow k (subNf c lt v) v.nf else v.nf

/-- The generator word after `k` passes. -/
def prngBelow (k : Nat) : Word := if c.num.gt lt.chaos c.num.zero then prngAfter c.noise k v.prng else v.prng

/-- One waveform's path after `k` passes. -/
def pathBelow (w : Wave) (en : Bool) (k : Nat) : WavePath Num L :=
  if en then { v.path w with blep := updateBelow k (subRingAfter c lt v w) (v.path w).blep } else v.path w

/-- One waveform's accumulator after `k` passes. -/
def accBelow (w : Wave) (en : Bool) (k : Nat) : Num :=
  if en then (subsBelow k).foldl (fun acc i => c.num.add acc (subSample c lt v w i)) c.num.zero else c.num.zero

/-- The loop's state after `k` passes. -/
def mixBelow (k : Nat) : Mix Num L where
  voice :=
    { params := v.params
      phase := updateBelow k (subPhase c lt v) v.phase
      lastSync := if lt.syncEn then lt.cur else v.lastSync
      nf := nfBelow c lt v k
      prng := prngBelow c lt v k
      sin := pathBelow c lt v .sin lt.sinEn k
      saw := pathBelow c lt v .saw lt.sawEn k }
  accSin := accBelow c lt v .sin lt.sinEn k
  accSaw := accBelow c lt v .saw lt.sawEn k

theorem nfBelow_zero : nfBelow c lt v 0 = v.nf := by
  rw [nfBelow, updateBelow_zero, ite_self]

theorem prngBelow_zero : prngBelow c lt v 0 = v.prng := by
  rw [prngBelow, prngAfter, ite_self]

theorem pathBelow_zero (w : Wave) (en : Bool) : pathBelow c lt v w en 0 = v.path w := by
  rw [pathBelow, updateBelow_zero, ite_self]

theorem accBelow_zero (w : Wave) (en : Bool) : accBelow c lt v w en 0 = c.num.zero := by
  have hnil : subsBelow 0 = [] := by decide
  rw [accBelow, hnil, List.foldl_nil, ite_self]

theorem mixBelow_zero : mixBelow c lt v 0 = ⟨trackSync lt v, c.num.zero, c.num.zero⟩ := by
  simp only [mixBelow, updateBelow_zero, nfBelow_zero, prngBelow_zero, pathBelow_zero, accBelow_zero, Voice.path]
  unfold trackSync
  split <;> rfl

/-- The `i`-th chaos step draws word `i + 1` and writes `nf[i]` from its value before the tick. -/
theorem chaosStep_mixBelow (i : SubIdx) :
    chaosStep c lt (coef c lt.bw lt.dt) (mixBelow c lt v i.val).voice i =
      (subOff c lt v i, { (mixBelow c lt v i.val).voice with
        prng := prngBelow c lt v (i.val + 1), nf := nfBelow c lt v (i.val + 1) }) := by
  unfold chaosStep subOff Latch.chaosOn mixBelow nfBelow prngBelow
  split
  · have hy : onePole c.num ((updateBelow i.val (subNf c lt v) v.nf).get i) (coef c lt.bw lt.dt)
        (c.noise.sample (c.noise.step (prngAfter c.noise i.val v.prng))) = subNf c lt v i := by
      rw [updateBelow_get_next]
      rfl
    simp only [hy, updateBelow_set]
    rfl
  · rfl

/-- One pass on one waveform: `hring` says that the insertions make `subRing` of the corrector before the tick. -/
theorem mixPath_pathBelow (w : Wave) (en : Bool) (i : SubIdx) {b : Corrector Num L → Corrector Num L}
    (hring : b ((v.path w).blep.get i) = subRing c lt v w i) :
    mixPath c.num en (raw c w (subPhase c lt v i)) b i (pathBelow c lt v w en i.val) (accBelow c lt v w en i.val) =
      (accBelow c lt v w en (i.val + 1), pathBelow c lt v w en (i.val + 1)) := by
  cases en with
  | false => rfl
  | true =>
    have hget : (pathBelow c lt v w true i.val).blep.get i = (v.path w).blep.get i := updateBelow_get_next _ _ i
    have hset := updateBelow_set (subRingAfter c lt v w) (v.path w).blep i
    simp only [mixPath, mixSub, if_true, hget, hring]
    simp only [accBelow, pathBelow, if_true, subsBelow_succ, List.foldl_concat, ← hset]
    rfl

theorem tickSub_mixBelow (i : SubIdx) :
    tickSub c lt (syncEvent c lt v) (coef c lt.bw lt.dt) (mixBelow c lt v i.val) i = mixBelow c lt v (i.val + 1) := by
  have hprev : (mixBelow c lt v i.val).voice.phase.get i = v.phase.get i := updateBelow_get_next _ _ i
  have hdp : phaseIncrement c lt (effectivePitch c lt i (subOff c lt v i)) = subDp c lt v i := rfl
  have hadv : advancePhase c.num (v.phase.get i) (subDp c lt v i) = subAdv c lt v i := rfl
  have hset := updateBelow_set (subPhase c lt v) v.phase i
  unfold tickSub
  simp only [chaosStep_mixBelow, hprev, hdp, hadv, committedPhase_subAdv, rawWave_eq_raw]
  simp only [mixBelow]
  rw [mixPath_pathBelow c lt v .sin lt.sinEn i (subRing_sin c lt v i).symm,
    mixPath_pathBelow c lt v .saw lt.sawEn i (subRing_saw c lt v i).symm, hset]

theorem foldl_tickSub (k : Nat) (hk : k ≤ 8) :
    (subsBelow k).foldl (tickSub c lt (syncEvent c lt v) (coef c lt.bw lt.dt))
      ⟨trackSync lt v, c.num.zero, c.num.zero⟩ = mixBelow c lt v k := by
  induction k with
  | zero => exact (mixBelow_zero c lt v).symm
  | succ k ih =>
    have hsucc := subsBelow_succ ⟨k, hk⟩
    simp only at hsucc
    rw [hsucc, List.foldl_concat, ih (by omega)]
    exact tickSub_mixBelow c lt v ⟨k, hk⟩

/-! ## The whole tick -/

/-- What follows the loop on one waveform (45_mixer_dcblock.md R123 to R126). -/
theorem finish_pathBelow (w : Wave) (en : Bool) :
    (if en then finishPath c.num lt.density (coef c c.dcCutoffHz lt.dt)
        (accBelow c lt v w en (densityCount lt.density)) (pathBelow c lt v w en (densityCount lt.density))
      else silencePath c.num (pathBelow c lt v w en (densityCount lt.density))) = pathAfter c lt v w en := by
  have hblep : updateBelow (densityCount lt.density) (subRingAfter c lt v w) (v.path w).blep =
      Vector.ofFn fun i => if active lt i then subRingAfter c lt v w i else (v.path w).blep.get i := by
    simp only [updateBelow, active, decide_eq_true_eq]
  cases en with
  | false => rfl
  | true =>
    simp only [pathAfter, ← hblep]
    rfl

theorem computeTick_eq_voiceAfter : computeTick c lt v = voiceAfter c lt v := by
  have hloop := foldl_tickSub c lt v (densityCount lt.density) (densityCount_le _)
  have hnf : nfBelow c lt v (densityCount lt.density) = (voiceAfter c lt v).nf := by
    refine ext_get fun i => ?_
    simp only [nfBelow, voiceAfter, Vector.get_ofFn, active, decide_eq_true_eq]
    by_cases hon : c.num.gt lt.chaos c.num.zero = true <;> simp [hon, updateBelow_get]
  have hphase : updateBelow (densityCount lt.density) (subPhase c lt v) v.phase = (voiceAfter c lt v).phase := by
    simp only [updateBelow, voiceAfter, active, decide_eq_true_eq]
  have hfire : syncFire c.num lt v = syncEvent c lt v := rfl
  simp only [computeTick, hfire, activeSubs_eq, hloop]
  simp only [mixBelow, finish_pathBelow, hnf, hphase]
  rfl

end tick

/-- A tick with a waveform enabled. -/
theorem tickVoice_eq_voiceAfter {Num : Type} (c : Cfg Num) {L : Nat} (m : TuneMode) {v : Voice Num L}
    (h : v.params.sinEn = true ∨ v.params.sawEn = true) :
    tickVoice c m v = voiceAfter c (latchInputs c v.params m) v := by
  rcases tickVoice_cases c m v with ⟨hsin, hsaw, -⟩ | ⟨-, htick⟩
  · simp [hsin, hsaw] at h
  · rw [htick, computeTick_eq_voiceAfter]

/-- The reference's reading of the registers is the input latch. -/
theorem latch_eq_latchInputs (p : Params) (m : TuneMode) : latch p m = latchInputs cfg p m := by
  have hdensity : effectiveDensity cfg (p.read .density) =
      if p.read .density = 2 then .two else if p.read .density = 4 then .four else .eight := by
    have hfallback : cfg.densityFallback = .eight := rfl
    rw [effectiveDensity, hfallback, ite_self]
  rw [latch, ← hdensity]
  rfl

/-- Settles O26: the loop's state after the active passes, then the mixer's last steps. -/
theorem tickEqualsIndependentSubOscillators : Obligations.TickEqualsIndependentSubOscillators := by
  refine ⟨fun v s h => ?_, fun Num c L m v h => tickVoice_eq_voiceAfter c m h⟩
  rw [exec_eq_next, afterExec, tickVoice_eq_voiceAfter cfg s.tuneMode h, latch_eq_latchInputs]
  rfl

end Sys2Proof.Machine

/-! What a computing tick leaves alone, and what its phases do (46_tick.md R136, R139; 45_mixer_dcblock.md R126;
42_hard_sync.md R94, R97), read from `voiceAfter`. -/

namespace Sys2Proof.Machine
open Reference

section frame
variable {Num : Type} (c : Cfg Num) {L : Nat} (lt : Latch Num) (v : Voice Num L)

theorem voiceAfter_phase_get (i : SubIdx) : (voiceAfter c lt v).phase.get i =
    if i.val < densityCount lt.density then subPhase c lt v i else v.phase.get i := by
  simp only [voiceAfter, Vector.get_ofFn, active, decide_eq_true_eq]

theorem voiceAfter_nf_get (i : SubIdx) : (voiceAfter c lt v).nf.get i =
    if i.val < densityCount lt.density ∧ c.num.gt lt.chaos c.num.zero = true then subNf c lt v i
    else v.nf.get i := by
  simp only [voiceAfter, Vector.get_ofFn, active, decide_eq_true_eq]

theorem pathAfter_blep_get (w : Wave) (en : Bool) (i : SubIdx) : (pathAfter c lt v w en).blep.get i =
    if i.val < densityCount lt.density ∧ en = true then subRingAfter c lt v w i else (v.path w).blep.get i := by
  cases en with
  | false => simp [pathAfter]
  | true => simp only [pathAfter, if_true, Vector.get_ofFn, active, decide_eq_true_eq, and_true]

/-- An inactive sub-oscillator keeps its phase, noise filter and correctors. -/
theorem voiceAfter_inactive {i : SubIdx} (h : densityCount lt.density ≤ i.val) :
    (voiceAfter c lt v).phase.get i = v.phase.get i ∧ (voiceAfter c lt v).nf.get i = v.nf.get i ∧
      (voiceAfter c lt v).sin.blep.get i = v.sin.blep.get i ∧
      (voiceAfter c lt v).saw.blep.get i = v.saw.blep.get i := by
  have hsin := pathAfter_blep_get c lt v .sin lt.sinEn i
  have hsaw := pathAfter_blep_get c lt v .saw lt.sawEn i
  have hi : ¬ i.val < densityCount lt.density := not_lt.2 h
  rw [if_neg (fun h => hi h.1)] at hsin hsaw
  exact ⟨(voiceAfter_phase_get c lt v i).trans (if_neg hi),
    (voiceAfter_nf_get c lt v i).trans (if_neg fun h => hi h.1), hsin, hsaw⟩

/-- Without chaos nothing is drawn and no filter written. -/
theorem voiceAfter_chaos_off (h : c.num.gt lt.chaos c.num.zero = false) :
    (voiceAfter c lt v).prng = v.prng ∧ (voiceAfter c lt v).nf = v.nf := by
  refine ⟨if_neg (by simp [h]), ext_get fun i => ?_⟩
  rw [voiceAfter_nf_get, if_neg (by simp [h])]

end frame

/-- Settles O27: each clause is one field of `voiceAfter`. -/
theorem computingTickFrame : Obligations.ComputingTickFrame := by
  intro Num c L m v h
  simp only [tickVoice_eq_voiceAfter c m h]
  refine ⟨rfl, fun i => voiceAfter_inactive c (latchInputs c v.params m) v, fun hs => ?_, fun hs => ?_,
    voiceAfter_chaos_off c (latchInputs c v.params m) v, fun hon => if_pos hon, fun hs => ?_, fun hs => ?_⟩
  · exact if_neg (by simp [latchInputs, hs])
  · exact if_pos hs
  · show pathAfter c (latchInputs c v.params m) v .sin v.params.sinEn = _
    rw [hs]
    rfl
  · show pathAfter c (latchInputs c v.params m) v .saw v.params.sawEn = _
    rw [hs]
    rfl

/-- Two latches that differ in the waveform enables alone. -/
theorem latchInputs_enables_of_sync_eq {Num : Type} (c : Cfg Num) (p : Params) (m : TuneMode) {b b' : Word}
    (h : b.getLsbD 2 = b'.getLsbD 2) : latchInputs c { p with enables := b' } m =
      { latchInputs c { p with enables := b } m with sinEn := b'.getLsbD 0, sawEn := b'.getLsbD 1 } := by
  simp only [latchInputs, Params.syncEn, h]
  rfl

/-- Settles O28: no formula of the reference but the choice of `pathAfter` reads a waveform enable. -/
theorem disabledWaveformDoesNotDisturbTheOther : Obligations.DisabledWaveformDoesNotDisturbTheOther := by
  intro Num c L m v b b' hsync
  have hlatch := latchInputs_enables_of_sync_eq c v.params m hsync
  have htick : ∀ e : Word, e.getLsbD 0 = true ∨ e.getLsbD 1 = true →
      tickVoice c m { v with params := { v.params with enables := e } } =
        voiceAfter c (latchInputs c { v.params with enables := e } m)
          { v with params := { v.params with enables := e } } :=
    fun _ he => tickVoice_eq_voiceAfter c m he
  refine ⟨fun hb hb' => ?_, fun hb hb' => ?_⟩
  · rw [htick b (.inr hb), htick b' (.inr hb'), hlatch]
    refine ⟨rfl, rfl, rfl, rfl, ?_⟩
    show pathAfter c _ _ .saw (b.getLsbD 1) = pathAfter c _ _ .saw (b'.getLsbD 1)
    rw [hb, hb']
    rfl
  · rw [htick b (.inl hb), htick b' (.inl hb'), hlatch]
    refine ⟨rfl, rfl, rfl, rfl, ?_⟩
    show pathAfter c _ _ .sin (b.getLsbD 0) = pathAfter c _ _ .sin (b'.getLsbD 0)
    rw [hb, hb']
    rfl

/-! ## Phases (R94, R97, R139) -/

section phase
variable {L : Nat} (lt : Latch F32) (v : Voice F32 L) (i : SubIdx)

theorem subDp_mem_band : cfg.dpMin.le (subDp cfg lt v i) = true ∧ (subDp cfg lt v i).le cfg.dpMax = true := by
  obtain ⟨-, hlo, hhi⟩ := phaseIncrement_mem_band lt (subPitch cfg lt v i)
  exact ⟨hlo, hhi⟩

/-- After a sync event the committed phase is R94's. -/
theorem subPhase_of_syncEvent {cr : F32} (h : syncEvent cfg lt v = some cr) :
    subPhase cfg lt v i = (F32.one.sub cr).mul (subDp cfg lt v i) := by
  rw [subPhase, h]
  rfl

theorem syncEvent_eq_some {cr : F32} (h : syncEvent cfg lt v = some cr) :
    detectSync binary32 v.lastSync lt.cur = some cr := by
  unfold syncEvent at h
  split at h
  · exact h
  · cases h

theorem subPhase_between_of_syncEvent {cr : F32} (h : syncEvent cfg lt v = some cr) :
    ((F32.one.sub cr).mul (subDp cfg lt v i)).between 0 (subDp cfg lt v i).value := by
  obtain ⟨hlo, hhi⟩ := subDp_mem_band lt v i
  obtain ⟨hfin, hpos, -⟩ := value_of_mem_band hlo hhi
  obtain ⟨hcr, -⟩ := crossing_between (syncEvent_eq_some lt v h)
  exact syncPhase_between hcr hfin hpos.le

theorem inUnit_of_between {x : F32} {hi : ℚ} (h : x.between 0 hi) (hhi : hi < 1) : binary32.inUnit x := by
  obtain ⟨hfin, h0, h1⟩ := h
  exact inUnit_iff.2 ⟨⟨hfin, h0, (h1.trans hhi.le)⟩, h1.trans_lt hhi⟩

/-- The reset phase of R94 is in [0, 1). -/
theorem inUnit_syncPhase {cr : F32} (h : syncEvent cfg lt v = some cr) :
    binary32.inUnit ((F32.one.sub cr).mul (subDp cfg lt v i)) := by
  obtain ⟨hlo, hhi⟩ := subDp_mem_band lt v i
  obtain ⟨-, -, hlt⟩ := value_of_mem_band hlo hhi
  exact inUnit_of_between (subPhase_between_of_syncEvent lt v i h) hlt

theorem inUnit_subAdv (h : binary32.inUnit (v.phase.get i)) : binary32.inUnit (subAdv cfg lt v i) := by
  obtain ⟨hlo, hhi⟩ := subDp_mem_band lt v i
  exact inUnit_of_hasValue_fract (advancePhase_hasValue h hlo hhi)

/-- A committed phase is in [0, 1): the reset one or the advanced one. -/
theorem inUnit_subPhase (h : binary32.inUnit (v.phase.get i)) : binary32.inUnit (subPhase cfg lt v i) := by
  cases hfire : syncEvent cfg lt v with
  | some cr =>
    rw [subPhase_of_syncEvent lt v i hfire]
    exact inUnit_syncPhase lt v i hfire
  | none =>
    rw [subPhase, hfire]
    exact inUnit_subAdv lt v i h

end phase

/-- Settles O29: a crossing is in (0, 1], and the reset phase reads no phase. -/
theorem syncResetsEveryActivePhase : Obligations.SyncResetsEveryActivePhase := by
  intro L m v cr hen hsync hfire i hi
  have hevent : syncEvent cfg (latch v.params m) v = some cr := (if_pos hsync).trans hfire
  have hphase : ∀ ph : Vector F32 8, (tickVoice cfg m { v with phase := ph }).phase.get i =
      (F32.one.sub cr).mul (subDp cfg (latch v.params m) v i) := by
    intro ph
    rw [tickVoice_eq_voiceAfter cfg m (v := { v with phase := ph }) hen, voiceAfter_phase_get]
    refine (if_pos hi).trans ?_
    show subPhase cfg (latchInputs cfg v.params m) { v with phase := ph } i = _
    rw [← latch_eq_latchInputs]
    exact subPhase_of_syncEvent (latch v.params m) { v with phase := ph } i hevent
  have hself := hphase v.phase
  obtain ⟨hlo, hhi⟩ := subDp_mem_band (latch v.params m) v i
  obtain ⟨hdp, -, -⟩ := value_of_mem_band hlo hhi
  have hrange := subPhase_between_of_syncEvent (latch v.params m) v i hevent
  rw [← F32.value_zero, ← le_and_le_iff_between F32.isFinite_zero hdp, ← hself] at hrange
  exact ⟨hlo, hhi, hself, hrange.1, hrange.2, fun ph => (hphase ph).trans hself.symm⟩

/-! ## What every step keeps of phases, filters and generators -/

theorem inUnit_unitSample (x : Word) : binary32.inUnit (unitSample binary32 x) := by
  obtain ⟨hfin, hvalue, h0, h1⟩ := unitSampleIsExact x
  exact inUnit_iff.2 ⟨⟨hfin, h0, by linarith⟩, by linarith⟩

theorem tickVoice_keeps_phases {L : Nat} (m : TuneMode) {v : Voice F32 L} (h : ∀ i, binary32.inUnit (v.phase.get i))
    (i : SubIdx) : binary32.inUnit ((tickVoice cfg m v).phase.get i) := by
  rcases tickVoice_cases cfg m v with ⟨-, -, htick⟩ | ⟨-, htick⟩
  · rw [htick]
    exact h i
  · rw [htick, computeTick_eq_voiceAfter, voiceAfter_phase_get]
    split
    · exact inUnit_subPhase _ v i (h i)
    · exact h i

theorem inUnit_resetVoice_phase (seed : Word) (v : VoiceIdx) (i : SubIdx) :
    binary32.inUnit ((resetVoice cfg seed v).phase.get i) := by
  rw [resetVoice_phase]
  exact inUnit_unitSample _

/-- Settles O53: reset draws phases from [0, 1), and a tick commits an advanced or a reset phase. -/
theorem everyStepKeepsPhasesInUnit : Obligations.EveryStepKeepsPhasesInUnit := fun _ _ hs h =>
  step_keeps_voices (P := fun v => ∀ i, binary32.inUnit (v.phase.get i)) h hs inUnit_resetVoice_phase
    (fun _ _ hv => hv) fun _ m hv => tickVoice_keeps_phases m hv

theorem noiseSample_within (x : Word) : (noiseSample binary32 x).within 1 := by
  obtain ⟨hfin, -, h0, h1⟩ := noiseSampleIsExact x
  refine within_iff_between.2 ⟨hfin, by simpa using h0, ?_⟩
  norm_num at h1 ⊢
  linarith

theorem tickVoice_keeps_nf {L : Nat} (m : TuneMode) {v : Voice F32 L} (h : ∀ i, (v.nf.get i).within 1)
    (i : SubIdx) : ((tickVoice cfg m v).nf.get i).within 1 := by
  rcases tickVoice_cases cfg m v with ⟨-, -, htick⟩ | ⟨-, htick⟩
  · rw [htick]
    exact h i
  · rw [htick, computeTick_eq_voiceAfter, voiceAfter_nf_get]
    split
    · exact onePole_within_one (h i) (noiseSample_within _) (coef_between _ _)
    · exact h i

theorem F32.zero_within (b : Nat) : F32.zero.within b := by
  rw [within_iff_between]
  exact ⟨F32.isFinite_zero, by simp, by simp⟩

theorem resetVoice_nf_within (seed : Word) (v : VoiceIdx) (i : SubIdx) :
    ((resetVoice cfg seed v).nf.get i).within 1 := by
  rw [resetVoice_nf]
  exact F32.zero_within 1

/-- Settles O54: a filter is written by a one-pole step towards a noise sample. -/
theorem everyStepKeepsNoiseFiltersInRange : Obligations.EveryStepKeepsNoiseFiltersInRange := fun _ _ hs h =>
  step_keeps_voices (P := fun v => ∀ i, (v.nf.get i).within 1) h hs resetVoice_nf_within
    (fun _ _ hv => hv) fun _ m hv => tickVoice_keeps_nf m hv

theorem tickVoice_keeps_prng {L : Nat} (m : TuneMode) {v : Voice F32 L} (h : v.prng ≠ 0) :
    (tickVoice cfg m v).prng ≠ 0 := by
  rcases tickVoice_cases cfg m v with ⟨-, -, htick⟩ | ⟨-, htick⟩
  · rw [htick]
    exact h
  · rw [htick, computeTick_eq_voiceAfter, voiceAfter]
    simp only
    split
    · rw [cfg_noise, prngAfter_xorshift32]
      exact iterate_xs32_ne_zero h _
    · exact h

theorem resetVoice_prng_ne_zero (seed : Word) (v : VoiceIdx) : (resetVoice cfg seed v).prng ≠ 0 := by
  rw [resetVoice_prng]
  exact iterate_xs32_ne_zero (startWord_ne_zero seed v) 8

/-- Settles O55: a tick iterates the generator step, which keeps a non-zero word non-zero. -/
theorem everyStepKeepsGeneratorsNonZero : Obligations.EveryStepKeepsGeneratorsNonZero := fun _ _ hs h =>
  step_keeps_voices (P := fun v => v.prng ≠ 0) h hs resetVoice_prng_ne_zero
    (fun _ _ hv => hv) fun _ m hv => tickVoice_keeps_prng m hv

end Sys2Proof.Machine

/-! The whole invariant (10_state.md R35). In a tick a ring gets at most a saw wrap and a sync correction; the two
together add less than `slotGain` to a slot, which then moves one delay nearer to the cursor. -/

namespace Sys2Proof.Machine
open Reference

/-! ## Bounds by whole numbers -/

theorem within_mono {x : F32} {m n : Nat} (h : x.within m) (hmn : m ≤ n) : x.within n := by
  have hmn' : (m : ℚ) ≤ n := mod_cast hmn
  exact within_iff_between.2 ((within_iff_between.1 h).mono (by linarith) hmn')

theorem within_add {x y : F32} {m n : Nat} (hx : x.within m) (hy : y.within n) (hmn : m + n ≤ 2 ^ 24) :
    (x.add y).within (m + n) := by
  obtain ⟨hxfin, hx0, hx1⟩ := within_iff_between.1 hx
  obtain ⟨hyfin, hy0, hy1⟩ := within_iff_between.1 hy
  have hexact := exact_nat hmn
  refine within_iff_between.2 (between_add hxfin hyfin hexact.neg hexact ?_ ?_) <;> push_cast <;> linarith

theorem foldl_add_within {α : Type} (f : α → F32) (b : Nat) (l : List α) (hf : ∀ i ∈ l, (f i).within b) :
    ∀ (acc : F32) (n : Nat), acc.within n → n + b * l.length ≤ 2 ^ 24 →
      (l.foldl (fun acc i => acc.add (f i)) acc).within (n + b * l.length) := by
  induction l with
  | nil => exact fun acc n h _ => by simpa using h
  | cons i l ih =>
    intro acc n h hle
    rw [List.length_cons, Nat.mul_succ] at hle ⊢
    have hstep := within_add h (hf i List.mem_cons_self) (by omega)
    have := ih (fun j hj => hf j (List.mem_cons_of_mem i hj)) _ _ hstep (by omega)
    rwa [List.foldl_cons, show n + (b * l.length + b) = n + b + b * l.length by omega]

/-! ## Insertions -/

/-- A slot `j` ahead of the cursor is within `slotGain * (L - 1 - j) + g`. -/
def RingWithin (g : Nat) (b : Corrector F32 cfg.blepLen) : Prop :=
  ∀ j < cfg.blepLen, (b.buf.get (ringSlot b.pos j)).within (slotGain * (cfg.blepLen - 1 - j) + g)

theorem RingWithin.mono {g g' : Nat} {b : Corrector F32 cfg.blepLen} (h : RingWithin g b) (hg : g ≤ g') :
    RingWithin g' b := fun j hj => within_mono (h j hj) (by omega)

/-- A correction is at most seven times its step's height. -/
theorem blepTerm_within {p a : F32} {h j : Nat} (hp : p.between (-1) 0) (ha : a.within h) (hh : h ≤ 8)
    (hj : j < cfg.blepLen) : (blepTerm cfg p a j).within (7 * h) := by
  obtain ⟨hpfin, hp0, hp1⟩ := hp
  obtain ⟨hafin, ha0, ha1⟩ := within_iff_between.1 ha
  have hlen := cfg_blepLen
  obtain ⟨hjfin, hjvalue⟩ := ofInt_natCast (n := j) (by omega)
  have hj1 : (j : ℚ) + 1 ≤ cfg.blepLen := mod_cast hj
  have hj0 : (0 : ℚ) ≤ j := by positivity
  obtain ⟨htfin, ht0, ht1⟩ := between_sub hjfin hpfin exact_zero (exact_nat (n := cfg.blepLen) (by omega))
    (by linarith) (by linarith)
  obtain ⟨hkfin, hk0, hk1⟩ := kernelInterp_between htfin ht0 ht1
  have h7 : Exact 7 := exact_nat (n := 7) (by norm_num)
  obtain ⟨hdfin, hd0, hd1⟩ := between_sub hkfin F32.isFinite_one h7.neg h7 (by rw [F32.value_one]; linarith)
    (by rw [F32.value_one]; linarith)
  have hexact := exact_nat (n := 7 * h) (by omega)
  have hprod : |a.value * ((kernelInterp cfg ((F32.ofInt j).sub p)).sub F32.one).value| ≤ (7 * h : Nat) := by
    rw [abs_mul]
    push_cast
    rw [mul_comm (7 : ℚ)]
    gcongr
    · exact abs_le.2 ⟨ha0, ha1⟩
    · exact abs_le.2 ⟨hd0, hd1⟩
  exact within_iff_between.2 (between_mul hafin hdfin hexact.neg hexact (abs_le.1 hprod).1 (abs_le.1 hprod).2)

theorem insertDiscontinuity_ringWithin {g h : Nat} {b : Corrector F32 cfg.blepLen} {p a : F32} (hb : RingWithin g b)
    (hp : p.between (-1) 0) (ha : a.within h) (hh : h ≤ 8) (hg : g ≤ slotGain) :
    RingWithin (g + 7 * h) (insertDiscontinuity cfg b p a) := by
  intro j hj
  have hlen := cfg_blepLen
  rw [insertDiscontinuity_pos, insertDiscontinuity_get _ _ _ _ hj, ← Nat.add_assoc]
  unfold slotGain at hg
  exact within_add (hb j hj) (blepTerm_within hp ha hh hj) (by unfold slotGain; omega)

/-- The offset of a crossing or of a wrap: a fraction of the sample step, less one. -/
theorem offset_between {q : F32} (hq : q.between 0 1) : (q.sub F32.one).between (-1) 0 := by
  obtain ⟨hfin, h0, h1⟩ := hq
  exact between_sub hfin F32.isFinite_one exact_one.neg exact_zero (by rw [F32.value_one]; linarith)
    (by rw [F32.value_one]; linarith)

theorem sawStep_within : cfg.sawStep.within 2 := ⟨by decide, by decide +kernel⟩

/-- Both raw waveforms are bounded on [0, 1). -/
theorem raw_between (w : Wave) {p : F32} (h : binary32.inUnit p) : (raw cfg w p).between (-4) 1 := by
  cases w with
  | sin => exact sinApprox_between h
  | saw =>
    obtain ⟨hfin, hvalue⟩ : (raw cfg .saw p).isFinite = true ∧ (raw cfg .saw p).value = _ := sawRaw_hasValue h
    have h0 := Int.fract_nonneg (p.add F32.half).value
    have h1 := Int.fract_lt_one (p.add F32.half).value
    exact ⟨hfin, by rw [hvalue]; linarith, by rw [hvalue]; linarith⟩

section path
variable {lt : Latch F32} {v : Voice F32 cfg.blepLen} (w : Wave) {i : SubIdx}

/-- The corrector of a saw with this tick's wrap (R87), or the corrector itself. -/
theorem insertSawWrap_ringWithin {prev dp : F32} {b : Corrector F32 cfg.blepLen} (hb : RingWithin 0 b) :
    RingWithin 14 (insertSawWrap cfg prev dp b) := by
  unfold insertSawWrap
  simp only [cfg_num, binary32_gt, binary32_le, binary32_zero, binary32_one, Bool.and_eq_true]
  split
  · next h =>
    obtain ⟨hpos, hone⟩ := h
    have hoffset := offset_between (between_zero_one_iff.2 ⟨F32.le_of_lt hpos, hone⟩)
    exact (insertDiscontinuity_ringWithin hb hoffset sawStep_within (by norm_num) (by norm_num)).mono (by norm_num)
  · exact hb.mono (by norm_num)

/-- The sync correction (R95) steps between two raw values. -/
theorem insertSync_ringWithin {b : Corrector F32 cfg.blepLen} (hphase : binary32.inUnit (v.phase.get i))
    (hb : RingWithin 14 b) :
    RingWithin slotGain
      (insertSync cfg (rawWave cfg w) (syncEvent cfg lt v) (subDp cfg lt v i) (subAdv cfg lt v i) b) := by
  cases hfire : syncEvent cfg lt v with
  | none => exact hb.mono (by decide)
  | some cr =>
    obtain ⟨hcr, -⟩ := crossing_between (syncEvent_eq_some lt v hfire)
    obtain ⟨hn, hn0, hn1⟩ := raw_between w (inUnit_syncPhase lt v i hfire)
    obtain ⟨ho, ho0, ho1⟩ := raw_between w (inUnit_subAdv lt v i hphase)
    have h5 : Exact (5 : Nat) := exact_nat (by norm_num)
    have hstep := within_iff_between.2 (between_sub hn ho h5.neg h5 (by push_cast; linarith) (by push_cast; linarith))
    rw [← rawWave_eq_raw, ← rawWave_eq_raw] at hstep
    exact (insertDiscontinuity_ringWithin hb (offset_between hcr) hstep (by norm_num) (by decide)).mono
      (by decide)

theorem subRing_ringWithin (hphase : binary32.inUnit (v.phase.get i)) (hb : RingWithin 0 ((v.path w).blep.get i)) :
    RingWithin slotGain (subRing cfg lt v w i) := by
  cases w with
  | sin =>
    rw [subRing_sin]
    exact insertSync_ringWithin .sin hphase (hb.mono (by norm_num))
  | saw =>
    rw [subRing_saw]
    exact insertSync_ringWithin .saw hphase (insertSawWrap_ringWithin hb)

/-! ## Delivery and mixing -/

/-- `process` clears the slot it delivers and brings every other one nearer (R116, R119). -/
theorem processBlep_ringWithin {b : Corrector F32 cfg.blepLen} (h : RingWithin slotGain b) :
    RingWithin 0 (processBlep binary32 b).2 := by
  intro j hj
  rw [processBlep_pos, ringSlot_succ, processBlep_get]
  split
  · exact F32.zero_within _
  · next hne =>
    have hj' : j + 1 < cfg.blepLen := by
      rcases Nat.lt_or_eq_of_le hj with hlt | heq
      · exact hlt
      · exact absurd (by rw [show j + 1 = cfg.blepLen from heq, ringSlot_length]) hne
    exact within_mono (h (j + 1) hj') (by unfold slotGain; omega)

theorem subRingAfter_ringWithin (hphase : binary32.inUnit (v.phase.get i))
    (hb : RingWithin 0 ((v.path w).blep.get i)) : RingWithin 0 (subRingAfter cfg lt v w i) :=
  processBlep_ringWithin (subRing_ringWithin w hphase hb)

theorem subSample_within (hphase : binary32.inUnit (v.phase.get i)) (hb : RingWithin 0 ((v.path w).blep.get i)) :
    (subSample cfg lt v w i).within 1028 := by
  have hraw : (raw cfg w (subPhase cfg lt v i)).within 4 :=
    within_iff_between.2 ((raw_between w (inUnit_subPhase lt v i hphase)).mono (by norm_num) (by norm_num))
  have hslot := subRing_ringWithin (lt := lt) w hphase hb 0 (by decide)
  rw [ringSlot_zero] at hslot
  exact within_mono (within_add hraw hslot (by decide)) (by decide)

/-- The mean of at most eight samples (R122, R123). -/
theorem mixed_within (hphase : ∀ i, binary32.inUnit (v.phase.get i))
    (hb : ∀ i, RingWithin 0 ((v.path w).blep.get i)) : (mixed cfg lt v w).within 2048 := by
  have hlength : (subsBelow (densityCount lt.density)).length = densityCount lt.density := by
    cases lt.density <;> decide
  have hcount : 2 ≤ densityCount lt.density ∧ densityCount lt.density ≤ 8 := by
    cases lt.density <;> decide
  have hsum := foldl_add_within (subSample cfg lt v w) 1028 (subsBelow (densityCount lt.density))
    (fun i _ => subSample_within w (hphase i) (hb i)) F32.zero 0 (F32.zero_within 0) (by omega)
  rw [hlength] at hsum
  obtain ⟨hfin, h0, h1⟩ := within_iff_between.1 hsum
  obtain ⟨hdfin, hdvalue⟩ := ofInt_natCast (n := densityCount lt.density) (by omega)
  have hpos : (0 : ℚ) < densityCount lt.density := mod_cast (by omega : 0 < densityCount lt.density)
  have hmixed : mixed cfg lt v w = ((subsBelow (densityCount lt.density)).foldl
      (fun acc i => acc.add (subSample cfg lt v w i)) F32.zero).div (F32.ofInt (densityCount lt.density)) := rfl
  push_cast at h0 h1
  rw [hmixed]
  have hexact : Exact (2048 : Nat) := exact_nat (by norm_num)
  refine within_iff_between.2 (between_div hfin hdfin hexact.neg hexact ?_ ?_ ?_)
  · rw [hdvalue]
    exact hpos.ne'
  · rw [hdvalue, le_div_iff₀ hpos]
    push_cast
    linarith
  · rw [hdvalue, div_le_iff₀ hpos]
    push_cast
    linarith

theorem rndValue_midpoint_2048 : rndValue (2 ^ 11 + 2 ^ 11 / 2 ^ 24) = 2 ^ 11 := by
  rw [rndValue, show F32.ofRat (2 ^ 11 + 2 ^ 11 / 2 ^ 24) = ⟨0x45000000⟩ by decide +kernel, value_eq_iff,
    show F32.units ⟨0x45000000⟩ = 2 ^ 160 by decide +kernel]
  norm_num

theorem within_2048_iff {x : F32} : x.within 2048 ↔ x.between (-2 ^ 11) (2 ^ 11) := by
  rw [within_iff_between]
  norm_num

/-- A path after a tick that computes: the output is the difference of two numbers within 2048. -/
theorem pathAfter_inv (hphase : ∀ i, binary32.inUnit (v.phase.get i)) (h : PathInv (v.path w)) (en : Bool) :
    PathInv (pathAfter cfg lt v w en) := by
  have hring : ∀ i, RingWithin 0 ((pathAfter cfg lt v w en).blep.get i) := by
    intro i
    rw [pathAfter_blep_get]
    split
    · exact subRingAfter_ringWithin w (hphase i) (h.ring_within i)
    · exact h.ring_within i
  cases en with
  | false => exact ⟨F32.isFinite_zero, h.dc_within, hring⟩
  | true =>
    have hmixed := mixed_within (lt := lt) w hphase h.ring_within
    have hdc : (onePole binary32 (v.path w).dc (coef cfg cfg.dcCutoffHz lt.dt) (mixed cfg lt v w)).within 2048 :=
      within_2048_iff.2 (onePole_between (by norm_num) rndValue_midpoint_2048 (within_2048_iff.1 h.dc_within)
        (within_2048_iff.1 hmixed) (coef_between _ _))
    obtain ⟨hmfin, hm0, hm1⟩ := within_iff_between.1 hmixed
    obtain ⟨hdfin, hd0, hd1⟩ := within_iff_between.1 hdc
    have h4096 : Exact (4096 : Nat) := exact_nat (by norm_num)
    have hout := between_sub hmfin hdfin h4096.neg h4096 (by push_cast at *; linarith) (by push_cast at *; linarith)
    exact ⟨hout.1, hdc, hring⟩

end path

/-! ## Voices -/

theorem silencePath_inv {L : Nat} {p : WavePath F32 L} (h : PathInv p) : PathInv (silencePath binary32 p) :=
  ⟨F32.isFinite_zero, h.dc_within, h.ring_within⟩

theorem tickVoice_keeps_inv (m : TuneMode) {v : Voice F32 cfg.blepLen} (h : VoiceInv v) :
    VoiceInv (tickVoice cfg m v) where
  phase_unit := tickVoice_keeps_phases m h.phase_unit
  nf_within := tickVoice_keeps_nf m h.nf_within
  prng_ne_zero := tickVoice_keeps_prng m h.prng_ne_zero
  sin_inv := by
    rcases tickVoice_cases cfg m v with ⟨-, -, htick⟩ | ⟨-, htick⟩ <;> rw [htick]
    · exact silencePath_inv h.sin_inv
    · rw [computeTick_eq_voiceAfter]
      exact pathAfter_inv .sin h.phase_unit h.sin_inv _
  saw_inv := by
    rcases tickVoice_cases cfg m v with ⟨-, -, htick⟩ | ⟨-, htick⟩ <;> rw [htick]
    · exact silencePath_inv h.saw_inv
    · rw [computeTick_eq_voiceAfter]
      exact pathAfter_inv .saw h.phase_unit h.saw_inv _

theorem WavePath.reset_inv : PathInv (WavePath.reset binary32 cfg.blepLen_pos) where
  out_finite := F32.isFinite_zero
  dc_within := F32.zero_within _
  ring_within i j _ := by
    rw [WavePath.reset_blep_get, Corrector.reset_buf_get]
    exact F32.zero_within _

theorem resetVoice_inv (seed : Word) (v : VoiceIdx) : VoiceInv (resetVoice cfg seed v) where
  phase_unit := inUnit_resetVoice_phase seed v
  nf_within := resetVoice_nf_within seed v
  prng_ne_zero := resetVoice_prng_ne_zero seed v
  sin_inv := WavePath.reset_inv
  saw_inv := WavePath.reset_inv

/-- Settles O52: every voice of a reset state is `resetVoice` of a seed. -/
theorem resetMeetsTheInvariant : Obligations.ResetMeetsTheInvariant := by
  refine ⟨fun v => ?_, fun seed s t h v => ?_⟩
  · rw [reset_voice]
    exact resetVoice_inv _ v
  · obtain rfl := exec_next_iff.1 h
    rw [afterExec, respond_voice, resetAll_voice]
    exact resetVoice_inv seed v

/-- Settles O56: a reset establishes the invariant, a register write does not touch it, and a tick keeps it. -/
theorem everyStepKeepsTheInvariant : Obligations.EveryStepKeepsTheInvariant := fun _ _ hs h =>
  step_keeps_voices h hs resetVoice_inv
    (fun _ _ hv => ⟨hv.phase_unit, hv.nf_within, hv.prng_ne_zero, hv.sin_inv, hv.saw_inv⟩)
    fun _ m hv => tickVoice_keeps_inv m hv

end Sys2Proof.Machine
